-- ==== Sys2Proof/Word.lean ====
section
/-! DEFINITION. The three bit widths of Modbus-FE: the byte and the 16-bit word (R7, R8), and the clock sample
(CLOCK_WIDTH = 32, R6). Everything else about bytes and words (halves, joining, swapping) is in Machine/Bytes.lean. -/

namespace Sys2Proof

/-- A byte is 8 bits (R8). -/
abbrev Byte := BitVec 8

/-- A word is 16 bits (R8). -/
abbrev Word := BitVec 16

/-- A sample of the injected monotonic clock, CLOCK_WIDTH = 32 bits (R6, R275). -/
abbrev Clock := BitVec 32

end Sys2Proof
end

