-- ==== Sys2Proof/Config.lean ====
section
/-! DEFINITION. The implementation parameters of R6. A parameter with a value is a constant here. The parameters a claim must
hold for every value of are the fields of `Params`, carried by every State and changed by no step, so that a statement
about every state quantifies over them. The two OPEN parameters that no rule reads are uninterpreted. -/

namespace Sys2Proof

/-- `TRANSPORT_KIND`, the transport variant of an engine, fixed at construction (R6, R71). -/
inductive TransportKind where
  | rtu
  | tcp
  deriving DecidableEq, Repr

/-- The per-engine parameters of R6 that a rule reads. `rtuReadTimeout` is RTU_READ_CALL_TIMEOUT and `rtuWriteTimeout` is
RTU_WRITE_CALL_TIMEOUT, both OPEN (D29); `coilSkip` is TCP_COIL_SKIP (D20); `retainsUnread` is TRANSPORT_RETAINS_UNREAD,
OPEN (D31). -/
structure Params where
  kind            : TransportKind
  coilSkip        : Bool
  rtuReadTimeout  : Nat
  rtuWriteTimeout : Nat
  retainsUnread   : Bool
  deriving DecidableEq, Repr

namespace Config

/-- `RTU_BUDGET`, in clock ticks (R6, D6). -/
abbrev rtuBudget : Nat := 350

/-- `OUT_BYTES` (R6, R35). -/
abbrev outBytes : Nat := 255

/-- `WDATA_WORDS` (R6, R33). -/
abbrev wdataWords : Nat := 127

/-- `IBUF_BYTES` (R6, R34). -/
abbrev ibufBytes : Nat := 256

/-- `CRC_POLY`, the reflected polynomial (R3, R6). -/
abbrev crcPoly : Word := 0xA001

/-- The two seed bytes of every frame CRC, so that the register starts at `CRC_INIT` = 0xFFFF (R6, R102). -/
abbrev crcSeed : Byte := 0xFF

/-- `TIME_UNIT`, OPEN: the physical duration of one tick (R6, D6). No rule reads it. -/
opaque timeUnit : Nat

/-- `BUS_MAP`, OPEN: the bus address of each host register (R6, R58). No rule depends on it. -/
opaque busMap : Nat → Nat

end Config

end Sys2Proof
end

