-- ==== Sys2Proof/Machine/Bytes.lean ====
section
/-! DEFINITION. The halves of a word, joining two bytes, the byte swap, and lists of them (R8, R9, R51, R53, R200). -/

namespace Sys2Proof.Machine

/-- `hi(w)` = w[15:8] (R8). -/
def hi (w : Word) : Byte := w.extractLsb' 8 8

/-- `lo(w)` = w[7:0] (R8). -/
def lo (w : Word) : Byte := w.extractLsb' 0 8

/-- `(h << 8) or l` (R9): the word of a big-endian pair (R51). -/
def word (h l : Byte) : Word := (h.zeroExtend 16 <<< 8) ||| l.zeroExtend 16

/-- `swap16` (R200). -/
def swap16 (w : Word) : Word := word (lo w) (hi w)

/-- A word's two bytes, high byte first (R51). -/
def be16 (w : Word) : List Byte := [hi w, lo w]

/-- A word's two bytes, low byte first, the order of the RTU CRC trailer (R52). -/
def le16 (w : Word) : List Byte := [lo w, hi w]

/-- The bytes of a list of words, each high byte first (R77, R205). -/
def beWords : List Word → List Byte
  | [] => []
  | w :: ws => hi w :: lo w :: beWords ws

/-- Byte `i` of a byte string, zero beyond its end; every use is within the length its pseudocode has checked. -/
def byteAt (s : List Byte) (i : Nat) : Byte := s.getD i 0

end Sys2Proof.Machine
end

