-- ==== Sys2Proof/Machine/Crc.lean ====
section
/-! DEFINITION. The CRC16 engine (40_crc16.md). -/

namespace Sys2Proof.Machine

/-- One right shift of the CRC register, with the polynomial XORed in when the bit shifted out is 1 (R100). -/
def crcBit (r : Word) : Word :=
  if r.getLsbD 0 then (r >>> 1) ^^^ Config.crcPoly else r >>> 1

/-- `n` shifts of the CRC register (R100 repeats 8 times). -/
def crcShift : Nat → Word → Word
  | 0, r => r
  | n + 1, r => crcShift n (crcBit r)

/-- One byte enters the CRC register at its low end (R100). -/
def crcByte (r : Word) (b : Byte) : Word := crcShift 8 (r ^^^ b.zeroExtend 16)

/-- The CRC register after a byte string, from a register value (R100). -/
def crcFold (r : Word) (s : List Byte) : Word := s.foldl crcByte r

/-- `CRC16(s, sh, sl)` (R100, R101): the seed bytes are the register's high and low halves. -/
def crc16 (s : List Byte) (sh sl : Byte) : Word := crcFold (word sh sl) s

/-- A frame CRC, from the seed bytes (0xFF, 0xFF) (R102). -/
def frameCrc (s : List Byte) : Word := crc16 s Config.crcSeed Config.crcSeed

/-- The CRC of two chunks, the second seeded with the first's result (R103, R121, R130). -/
def chainedCrc (a b : List Byte) : Word := crc16 b (hi (frameCrc a)) (lo (frameCrc a))

/-- `CrcOk(s, t0, t1)` for a CRC register value `c` of s: the trailer is lo then hi (R52, R104). -/
def trailerOk (c : Word) (t0 t1 : Byte) : Bool := t0 == lo c && t1 == hi c

end Sys2Proof.Machine
end

