-- ==== Sys2Proof/Syntax.lean ====
section
/-! DEFINITION. The syntax of Modbus-FE: the sixteen commands (R72, spec/opcode_table.json), the fields of the command word
(R70), the host registers by name (R21 to R32), the cause codes by name (R262), and the operations a host program is made
of (R87). -/

namespace Sys2Proof

/-- The commands of R72, one constructor per row of the opcode table. A command word has no operand bits: the operands
are the ARG registers (R29 to R32). -/
inductive Instr where
  | rtuRdCoils
  | rtuRdDiscrete
  | rtuRdHolding
  | rtuRdInput
  | rtuWrCoil
  | rtuWrReg
  | rtuWrMulti
  | tcpRdCoils
  | tcpRdDiscrete
  | tcpRdHolding
  | tcpRdInput
  | tcpWrCoil
  | tcpWrReg
  | tcpWrMulti
  | utilCrc16
  | utilSwap
  deriving DecidableEq, Repr

/-- The three fields of a command word (R70). -/
structure CmdFields where
  cls : BitVec 2
  rsv : BitVec 6
  fc  : Byte
  deriving DecidableEq, Repr

/-- Why a command word is not one of R72's (R73): the reserved CLASS 11, nonzero RSV bits, a function code that is not
implemented, or an unknown utility selector. -/
inductive DecodeError where
  | reservedClass
  | nonzeroRsv
  | unknownFunction
  | unknownUtility
  deriving DecidableEq, Repr

/-- What the decoder answers: a command, or the name of the reason there is none. -/
inductive Decoded where
  | ok (i : Instr)
  | bad (e : DecodeError)
  deriving DecidableEq, Repr

/-- The twelve host registers (R21 to R32). -/
inductive HostReg where
  | cmd
  | status
  | rc
  | cause
  | bc
  | ndone
  | tid
  | crcr
  | argUnit
  | argStart
  | argQty
  | argFlags
  deriving DecidableEq, Repr

/-- The causes of R262, CAUSE codes 0 to 10. -/
inductive Cause where
  | none
  | illegalCmd
  | shortWrite
  | addrMismatch
  | funcMismatch
  | timeout
  | crcMismatch
  | echoMismatch
  | shortRead
  | tidMismatch
  | serverException
  deriving DecidableEq, Repr

/-- One operation of a host program (R87). `setReg` at index 0 is a write of CMD, so R87's `CMD m` is `setReg 0` of the
word of `m`. R87's SET names no OUT element: `setOut` is the host write that is ignored because OUT has access RO (R35). `wait`
is R87's WAIT, a poll of STATUS until DONE = 1. `pause` is a turn in which the host does nothing, so that a host operation can
come after any number of the engine's events. `reset` is the reset event of R290. -/
inductive HostOp where
  | setReg (index : Nat) (v : Word)
  | setWdata (i : Nat) (v : Word)
  | setIbuf (i : Nat) (b : Byte)
  | setOut (i : Nat) (b : Byte)
  | getReg (index : Nat)
  | getWdata (i : Nat)
  | getIbuf (i : Nat)
  | getOut (i : Nat)
  | getOutw (i : Nat)
  | wait
  | pause
  | reset
  deriving DecidableEq, Repr

end Sys2Proof
end

