-- ==== Sys2Proof/Machine/State.lean ====
section
/-! DEFINITION. The state of Modbus-FE (10_state.md), as plain data, and the state right after reset (R290). The reasons a
step can stop are here too. -/

namespace Sys2Proof.Machine

/-- Why a step stops with a fault. Each is safe: the model stops where the hardware returns some value no source gives (the
first three, R41), or where the access names nothing that exists (the last two, R50). -/
inductive Fault where
  /-- A host reads an OUT byte nothing has written (R41). Raised by a host read. Safe. -/
  | unwrittenOut (i : Nat)
  /-- A command or a host reads a WDATA element nothing has written (R41). Raised by RTU.WR_MULTI, TCP.WR_MULTI, UTIL.SWAP and
  a host read. Safe. -/
  | unwrittenWdata (i : Nat)
  /-- A command or a host reads an IBUF element nothing has written (R41). Raised by UTIL.CRC16 and a host read. Safe. -/
  | unwrittenIbuf (i : Nat)
  /-- A host access names a register index above 0x0B (R50: twelve registers). Raised by a host access. Safe. -/
  | noSuchRegister (index : Nat)
  /-- A host access names a buffer element outside the buffer (R50). Raised by a host access. Safe. -/
  | noSuchElement (i : Nat)
  deriving DecidableEq, Repr

/-- Why a step gives no meaning. All but `notModelled` say that the outside world did something the spec rules out, or that
the state is one no run reaches. Each is safe. -/
inductive Refusal where
  /-- A command with no meaning yet; raised by a refused arm of exec only (there is none). Safe. -/
  | notModelled (mnemonic : String)
  /-- A transport write returns more than it was given (R10: `0 ≤ n ≤ len(s)`). Raised by any transaction command. Safe. -/
  | overlongWrite
  /-- A transport read returns more bytes than asked (R10, D15, U4: refuse). Raised by any transaction command. Safe. -/
  | overlongRead
  /-- A transport read returns more bytes than the inbound queue holds (R57: a call returns bytes from the queue). Raised by
  any transaction command. Safe. -/
  | phantomBytes
  /-- A clock sample runs backwards within one response (R125, R303, U5). Raised by any RTU command. Safe. -/
  | clockWentBack
  /-- The next answer is for another kind of call than the one in progress (R61: calls are answered in order, and no two
  overlap). Raised by any transaction command. Safe. -/
  | wrongAnswer
  /-- The transport loses unread bytes although TRANSPORT_RETAINS_UNREAD holds (R6, R43). Raised by that step. Safe. -/
  | lostRetainedBytes
  /-- fsm stands at a point the running command does not have (R36). No run from reset reaches such a state. Safe. -/
  | strayPoint
  deriving DecidableEq, Repr

/-- STATUS (R22), its two flags. -/
structure Status where
  busy : Bool
  done : Bool
  deriving DecidableEq, Repr

/-- The result registers a completion step writes: RC (R23), CAUSE (R24), BC (R25), NDONE (R26) and CRCR (R28). -/
structure Results where
  rc    : Word
  cause : Byte
  bc    : Byte
  ndone : Byte
  crcr  : Word
  deriving DecidableEq, Repr

/-- The argument registers ARG_UNIT, ARG_START, ARG_QTY, ARG_FLAGS (R29 to R32), and the latched L_UNIT, L_START, L_QTY,
L_SWAP (R37). Only bit 0 of ARG_FLAGS exists: the others ignore writes and read as zero. -/
structure Args where
  unit  : Byte
  start : Word
  qty   : Word
  swap  : BitVec 1
  deriving DecidableEq, Repr

/-- The working values of the current command: RXBUF (R38), T0 (R39), CRCW, BCNT, I, SKIP, ZF (R40). -/
structure Work where
  rxbuf : List Byte
  t0    : Clock
  crcw  : Word
  bcnt  : Byte
  i     : Byte
  skip  : BitVec 1
  zf    : Byte
  deriving DecidableEq, Repr

/-- A visible event of a run (R10, R61): a write call with its bytes, its timeout argument (RTU only) and the number of
bytes written; a read call with the number asked, its timeout argument and the bytes returned; a clock sample. -/
inductive Event where
  | txWrite (bs : List Byte) (timeout : Option Nat) (written : Nat)
  | rxRead (asked : Nat) (timeout : Option Nat) (bs : List Byte)
  | now (v : Clock)
  deriving DecidableEq, Repr

/-- The transport outside the engine (R43): the bytes received and not yet read, oldest first, and the record of every
visible event, oldest first (R61), from which the outbound log is read. -/
structure Transport where
  inQ   : List Byte
  trace : List Event
  deriving DecidableEq, Repr

/-- The parts of an RTU response gathered by one accumulation each: the 3-byte start, the payload and the trailer of a read
response (R126 to R129), the 5 further bytes of a write echo (R133). -/
inductive RtuPhase where
  | start
  | payload
  | trailer
  | echo
  deriving DecidableEq, Repr

/-- Which transaction of a TCP command is running: the coil pre-read of TCP.WR_COIL (R233), or any other. -/
inductive TcpTxn where
  | preRead
  | main
  deriving DecidableEq, Repr

/-- Where a TCP transaction stands: its request write (with the frame), its header read, a read response's payload read,
or a write echo's last read (R162 to R170). -/
inductive TcpPhase where
  | tx (frame : List Byte)
  | header
  | payload
  | rest
  deriving DecidableEq, Repr

/-- The next visible event of a command's pseudocode, with the local variables it needs (R36): an RTU write call (and the
chunks after it), the sample that starts the deadline, an RTU read call or clock sample of an accumulation (with the last
sample taken), a TCP call; or, for a utility command, which has no visible event, its computation and completion. -/
inductive Point where
  | rtuTx (chunk : List Byte) (more : List (List Byte))
  | rtuT0
  | rtuRx (ph : RtuPhase) (last : Clock)
  | rtuClk (ph : RtuPhase) (last : Clock)
  | tcp (txn : TcpTxn) (ph : TcpPhase)
  | compute
  deriving DecidableEq, Repr

/-- `fsm`, the sequencing state (R36). -/
inductive Fsm where
  | idle
  | run (cmd : Instr) (pt : Point)
  deriving DecidableEq, Repr

/-- What the outside world does, in order: bytes reach the transport; the transport loses its oldest unread bytes (possible
only where TRANSPORT_RETAINS_UNREAD does not hold); somebody empties the transport (R294); the next write call returns how
many bytes it wrote; the next read call returns how many of the queued bytes; the next clock sample is answered. -/
inductive EnvInput where
  | arrive (bs : List Byte)
  | lose (k : Nat)
  | drain
  | txDone (n : Nat)
  | rxDone (n : Nat)
  | clock (v : Clock)
  deriving DecidableEq, Repr

/-- One buffer: its written elements, by index. An unlisted element is unwritten (R41). A buffer of bytes is a list of
`Host.Cell`. -/
abbrev Memory (w : Nat) := List (Nat × BitVec w)

/-- The state (R20): the parameters of the instance (R6); the host registers (R21 to R32); the buffers (R33 to R35); fsm, the
latched arguments and the working values (R36 to R40); the transport (R43). `host` and `env` are the model's own: what the
host is still to do (R87) and what the outside world is still to do (R10's draws), in order. -/
structure State where
  params    : Params
  cmd       : Word
  status    : Status
  res       : Results
  tid       : Word
  args      : Args
  wdata     : Memory 16
  ibuf      : Memory 8
  out       : Memory 8
  fsm       : Fsm
  latched   : Args
  work      : Work
  transport : Transport
  host      : List HostOp
  env       : List EnvInput
  deriving DecidableEq, Repr

/-- What a step or a meaning answers. -/
abbrev Result := Host.Outcome State Fault Refusal

/-- The working values right after reset. The spec says they hold no value and are never read before a command writes them
(R38 to R40); DESIGN CHOICE: zero and empty (log entry 3). -/
def Work.reset : Work :=
  { rxbuf := [], t0 := 0, crcw := 0, bcnt := 0, i := 0, skip := 0, zf := 0 }

/-- The argument registers right after reset (R29 to R32). -/
def Args.reset : Args := { unit := 0, start := 0, qty := 0, swap := 0 }

/-- The result registers right after reset (R23 to R26, R28). -/
def Results.reset : Results := { rc := 0, cause := 0, bc := 0, ndone := 0, crcr := 0 }

/-- The parameters of the instance whose reset state is `State.reset`: TCP_COIL_SKIP as R6 gives it, and for what R6 leaves to
the instance or OPEN a DESIGN CHOICE (log entry 2). No statement rests on them. -/
def Params.reset : Params :=
  { kind := .rtu, coilSkip := true, rtuReadTimeout := 0, rtuWriteTimeout := 0, retainsUnread := true }

/-- The machine right after reset (R290): every register zero, every buffer unwritten, fsm IDLE, nothing on the transport. -/
def State.reset : State :=
  { params    := Params.reset
    cmd       := 0
    status    := { busy := false, done := false }
    res       := Results.reset
    tid       := 0
    args      := Args.reset
    wdata     := []
    ibuf      := []
    out       := []
    fsm       := .idle
    latched   := Args.reset
    work      := Work.reset
    transport := { inQ := [], trace := [] }
    host      := []
    env       := [] }

end Sys2Proof.Machine
end

