-- ==== Sys2Proof/Machine/Flags.lean ====
section
/-! DEFINITION. The flags and result codes: what STATUS reads as and how a command moves it (R22), and the RC and CAUSE of each
ending (R221, R261, R262). -/

namespace Sys2Proof.Machine

/-- STATUS as a word: BUSY in bit 0, DONE in bit 1, bits 15:2 zero (R22). -/
def Status.word (f : Status) : Word :=
  (if f.busy then 1 else 0) ||| (if f.done then 2 else 0)

/-- STATUS from a command's latching on (R22, R220). -/
def Status.running : Status := { busy := true, done := false }

/-- STATUS from a command's completion step on (R22, R221). -/
def Status.ended : Status := { busy := false, done := true }

/-- The CAUSE code of a cause (R262). -/
def causeCode : Cause → Byte
  | .none            => 0
  | .illegalCmd      => 1
  | .shortWrite      => 2
  | .addrMismatch    => 3
  | .funcMismatch    => 4
  | .timeout         => 5
  | .crcMismatch     => 6
  | .echoMismatch    => 7
  | .shortRead       => 8
  | .tidMismatch     => 9
  | .serverException => 10

/-- The three endings of a command (R260): `finish()`, `raise Fail(cause)`, `raise ServerExc(code)`. -/
inductive Ending where
  | success
  | fail (c : Cause)
  | serverExc (k : Byte)
  deriving DecidableEq, Repr

/-- RC of an ending (R221, R261): 0, -1, or the zero-extended exception code. -/
def endingRc : Ending → Word
  | .success     => 0
  | .fail _      => 0xFFFF
  | .serverExc k => k.zeroExtend 16

/-- CAUSE of an ending (R221). -/
def endingCause : Ending → Byte
  | .success     => causeCode .none
  | .fail c      => causeCode c
  | .serverExc _ => causeCode .serverException

end Sys2Proof.Machine
end

