-- ==== Sys2Proof/WellFormed.lean ====
section
/-! DEFINITION. Which fields of a command word are those of a command (R70, R72, R73), one named check per reason a word is
illegal. Whether a command may run on an engine and with its arguments (R71, R74) depends on the state and is in
Machine/Operands.lean. -/

namespace Sys2Proof

/-- CLASS 11 is reserved (R70, R89). -/
def CmdFields.classOk (f : CmdFields) : Bool := f.cls != 3

/-- RSV must be 000000 (R70). -/
def CmdFields.rsvOk (f : CmdFields) : Bool := f.rsv == 0

/-- The seven function codes of Modbus-FE (R13). -/
def functionCodes : List Byte := [0x01, 0x02, 0x03, 0x04, 0x05, 0x06, 0x10]

/-- The two utility selectors (R70). -/
def utilitySelectors : List Byte := [0x00, 0x01]

/-- FC is an implemented function code (CLASS 00 and 01), or a utility selector (CLASS 10) (R70, R72). -/
def CmdFields.fcOk (f : CmdFields) : Bool :=
  if f.cls == 2 then utilitySelectors.contains f.fc else functionCodes.contains f.fc

/-- The fields are those of one of R72's sixteen words. -/
def CmdFields.wellFormed (f : CmdFields) : Bool := f.classOk && f.rsvOk && f.fcOk

end Sys2Proof
end

