-- ==== Sys2Proof/Decode.lean ====
section
/-! DEFINITION. Decoding the command word: total, rejecting by name (R70 to R73), then the encoder written from the same
table, and the opcode table's own numbering of a word's bits. Modbus-FE fetches no bytes (R65): the word is the value a
host writes to CMD. -/

namespace Sys2Proof

/-- The fields of a command word: CLASS 15:14, RSV 13:8, FC 7:0 (R70). -/
def fieldsOf (w : Word) : CmdFields :=
  { cls := w.extractLsb' 14 2, rsv := w.extractLsb' 8 6, fc := w.extractLsb' 0 8 }

/-- CLASS 00: the RTU command of a function code (R72). -/
def decodeRtu (fc : Byte) : Decoded :=
  if fc = 0x01 then .ok .rtuRdCoils
  else if fc = 0x02 then .ok .rtuRdDiscrete
  else if fc = 0x03 then .ok .rtuRdHolding
  else if fc = 0x04 then .ok .rtuRdInput
  else if fc = 0x05 then .ok .rtuWrCoil
  else if fc = 0x06 then .ok .rtuWrReg
  else if fc = 0x10 then .ok .rtuWrMulti
  else .bad .unknownFunction

/-- CLASS 01: the TCP command of a function code (R72). -/
def decodeTcp (fc : Byte) : Decoded :=
  if fc = 0x01 then .ok .tcpRdCoils
  else if fc = 0x02 then .ok .tcpRdDiscrete
  else if fc = 0x03 then .ok .tcpRdHolding
  else if fc = 0x04 then .ok .tcpRdInput
  else if fc = 0x05 then .ok .tcpWrCoil
  else if fc = 0x06 then .ok .tcpWrReg
  else if fc = 0x10 then .ok .tcpWrMulti
  else .bad .unknownFunction

/-- CLASS 10: the utility command of a selector (R70, R72). -/
def decodeUtil (sel : Byte) : Decoded :=
  if sel = 0x00 then .ok .utilCrc16
  else if sel = 0x01 then .ok .utilSwap
  else .bad .unknownUtility

/-- The command of a word's fields, or why there is none (R72, R73). -/
def decodeFields (f : CmdFields) : Decoded :=
  if f.cls = 3 then .bad .reservedClass
  else if f.rsv ≠ 0 then .bad .nonzeroRsv
  else if f.cls = 0 then decodeRtu f.fc
  else if f.cls = 1 then decodeTcp f.fc
  else decodeUtil f.fc

/-- The decoder: total on every 16-bit word (R72, R73). -/
def decodeWord (w : Word) : Decoded := decodeFields (fieldsOf w)

/-- The command of a word, where it has one. -/
def decode? (w : Word) : Option Instr :=
  match decodeWord w with
  | .ok i => some i
  | .bad _ => none

/-- The encoding table of R72, field by field. -/
def Instr.fields : Instr → CmdFields
  | .rtuRdCoils    => { cls := 0, rsv := 0, fc := 0x01 }
  | .rtuRdDiscrete => { cls := 0, rsv := 0, fc := 0x02 }
  | .rtuRdHolding  => { cls := 0, rsv := 0, fc := 0x03 }
  | .rtuRdInput    => { cls := 0, rsv := 0, fc := 0x04 }
  | .rtuWrCoil     => { cls := 0, rsv := 0, fc := 0x05 }
  | .rtuWrReg      => { cls := 0, rsv := 0, fc := 0x06 }
  | .rtuWrMulti    => { cls := 0, rsv := 0, fc := 0x10 }
  | .tcpRdCoils    => { cls := 1, rsv := 0, fc := 0x01 }
  | .tcpRdDiscrete => { cls := 1, rsv := 0, fc := 0x02 }
  | .tcpRdHolding  => { cls := 1, rsv := 0, fc := 0x03 }
  | .tcpRdInput    => { cls := 1, rsv := 0, fc := 0x04 }
  | .tcpWrCoil     => { cls := 1, rsv := 0, fc := 0x05 }
  | .tcpWrReg      => { cls := 1, rsv := 0, fc := 0x06 }
  | .tcpWrMulti    => { cls := 1, rsv := 0, fc := 0x10 }
  | .utilCrc16     => { cls := 2, rsv := 0, fc := 0x00 }
  | .utilSwap      => { cls := 2, rsv := 0, fc := 0x01 }

/-- The word of a command word's fields (R70). -/
def wordOf (f : CmdFields) : Word :=
  (f.cls.zeroExtend 16 <<< 14) ||| (f.rsv.zeroExtend 16 <<< 8) ||| f.fc.zeroExtend 16

/-- The encoder: R72's word of a command. -/
def encode (i : Instr) : Word := wordOf i.fields

/-- The command the decoder reads from a word numbered as spec/opcode_table.json numbers it. A command is one 16-bit word,
so there is no second word and no byte order to lay out. -/
def decodeTableWord (nbits w : Nat) : Option Instr :=
  if nbits ≤ 16 ∧ w < 65536 then decode? (BitVec.ofNat 16 w) else none

end Sys2Proof
end

