-- ==== Sys2Proof/Machine/Operands.lean ====
section
/-! DEFINITION. What a command reads from its operands and from a response: the checks made at latching (R71, R74), the
decoding of a response's function byte (R85), staleness (R166), elapsed time (R125) and the register codec
(43_register_codec.md). -/

namespace Sys2Proof.Machine

/-- CLASS 00 runs only on an RTU engine, CLASS 01 only on a TCP engine, CLASS 10 on both (R71). -/
def kindOk (kind : TransportKind) (i : Instr) : Bool :=
  if i.fields.cls = 0 then kind == .rtu
  else if i.fields.cls = 1 then kind == .tcp
  else true

/-- The argument check of a command against its latched quantity (R74). -/
def argsOk (qty : Word) (i : Instr) : Bool :=
  match i with
  | .rtuWrMulti | .tcpWrMulti => 1 ≤ qty.toNat && qty.toNat ≤ Config.wdataWords
  | .utilCrc16 => qty.toNat ≤ Config.ibufBytes
  | .utilSwap => qty.toNat ≤ Config.wdataWords
  | .rtuRdCoils | .rtuRdDiscrete | .rtuRdHolding | .rtuRdInput | .rtuWrCoil | .rtuWrReg
  | .tcpRdCoils | .tcpRdDiscrete | .tcpRdHolding | .tcpRdInput | .tcpWrCoil | .tcpWrReg => true

/-- A command is legal on an engine with its arguments (R70, R71, R74). -/
def legal (kind : TransportKind) (qty : Word) (i : Instr) : Bool := kindOk kind i && argsOk qty i

/-- How a response's function byte answers the requested function (R85). -/
inductive Answer where
  | normal
  | serverException
  | mismatch
  deriving DecidableEq, Repr

/-- The response function decode of R85: equal, else bit 7 set, else a mismatch. -/
def decodeAnswer (fc f : Byte) : Answer :=
  if f = fc then .normal
  else if f.getLsbD 7 then .serverException
  else .mismatch

/-- `Older(e, t)`: 1 ≤ (t - e) mod 2^16 ≤ 0x7FFF (R166). -/
def older (e t : Word) : Bool := 1 ≤ (t - e).toNat && (t - e).toNat ≤ 0x7FFF

/-- The elapsed time (now - T0) mod 2^CLOCK_WIDTH (R125). -/
def elapsed (t0 now : Clock) : Nat := (now - t0).toNat

/-- The bytes of a payload with each pair swapped; an odd last byte stays (R201). -/
def swapPairs : List Byte → List Byte
  | a :: b :: r => b :: a :: swapPairs r
  | [a] => [a]
  | [] => []

/-- `RegCodecRead(fc, d)` (R201): swapped for holding and input registers when L_SWAP is 1. -/
def regCodecRead (fc : Byte) (swap : BitVec 1) (d : List Byte) : List Byte :=
  if (fc = 0x03 ∨ fc = 0x04) ∧ swap = 1 then swapPairs d else d

/-- `EncWord(w)` (R202). -/
def encWord (swap : BitVec 1) (w : Word) : Word := if swap = 1 then swap16 w else w

/-- L_QTY is one of the two Modbus coil values, which the coil skip looks at (R233). -/
def isCoilValue (qty : Word) : Bool := qty == 0xFF00 || qty == 0x0000

/-- The state the host wants the coil in: 1 for 0xFF00, else 0 (R233). -/
def wantedCoil (qty : Word) : Bool := qty == 0xFF00

/-- The pre-read's payload shows the coil already in the wanted state: it has a byte, and bit 0 of the first is the wanted
state (R233). -/
def coilAlready (qty : Word) (r : List Byte) : Bool :=
  match r with
  | [] => false
  | b :: _ => b.getLsbD 0 == wantedCoil qty

end Sys2Proof.Machine
end

