-- ==== Sys2Proof/Machine/Ops.lean ====
section
/-! DEFINITION. The named operations over the buffers, the host registers and the transport, and the two ends of every
command: its latching (R220) and its completion step (R221, R264), which is what taking an exception is on this hardware.
There is no return from one (R272). -/

namespace Sys2Proof.Machine

/-! ### Buffers -/

/-- The element at an index, or none if nothing has written it (R41). -/
def Memory.read {w : Nat} (m : Memory w) (a : Nat) : Option (BitVec w) :=
  match m with
  | [] => none
  | (k, v) :: r => if k = a then some v else Memory.read r a

/-- Write one element, keeping the indexes strictly rising. -/
def Memory.write {w : Nat} (m : Memory w) (a : Nat) (x : BitVec w) : Memory w :=
  match m with
  | [] => [(a, x)]
  | (k, v) :: r =>
    if a < k then (a, x) :: (k, v) :: r
    else if a = k then (a, x) :: r
    else (k, v) :: Memory.write r a x

/-- Write elements from an index up. -/
def Memory.writeList {w : Nat} (m : Memory w) (a : Nat) (xs : List (BitVec w)) : Memory w :=
  match xs with
  | [] => m
  | x :: r => Memory.writeList (Memory.write m a x) (a + 1) r

/-- The elements from index `a` up to, not including, index `a + n`, or the first index that is unwritten. -/
def Memory.readList {w : Nat} (m : Memory w) (a : Nat) : Nat → Except Nat (List (BitVec w))
  | 0 => .ok []
  | n + 1 =>
    match Memory.read m a with
    | none => .error a
    | some x =>
      match Memory.readList m (a + 1) n with
      | .ok xs => .ok (x :: xs)
      | .error j => .error j

/-- The indexes are strictly rising, from `b` up, and below `cap`. -/
def Memory.wfFrom {w : Nat} (b cap : Nat) (m : Memory w) : Bool :=
  match m with
  | [] => true
  | (k, _) :: r => b ≤ k && k < cap && Memory.wfFrom (k + 1) cap r

/-- The canonical form of a buffer of `cap` elements: indexes strictly rising and inside the buffer, so that equal buffers are
equal lists. An unlisted element holds no value, so no entry can equal one. -/
def Memory.wf {w : Nat} (cap : Nat) (m : Memory w) : Bool := Memory.wfFrom 0 cap m

/-- OUTW[i] (R53): the big-endian word of bytes 2i and 2i+1, or the first of them that is unwritten. -/
def outWord (s : State) (i : Nat) : Except Nat Word :=
  match Memory.read s.out (2 * i), Memory.read s.out (2 * i + 1) with
  | some h, some l => .ok (word h l)
  | none, _ => .error (2 * i)
  | some _, none => .error (2 * i + 1)

/-! ### Host registers -/

/-- The register of an index, 0x00 to 0x0B (R21 to R32). -/
def hostRegOf (index : Nat) : Option HostReg :=
  match index with
  | 0x00 => some .cmd
  | 0x01 => some .status
  | 0x02 => some .rc
  | 0x03 => some .cause
  | 0x04 => some .bc
  | 0x05 => some .ndone
  | 0x06 => some .tid
  | 0x07 => some .crcr
  | 0x08 => some .argUnit
  | 0x09 => some .argStart
  | 0x0A => some .argQty
  | 0x0B => some .argFlags
  | _ => none

/-- What a host read of a register returns (R21 to R32); narrower registers read zero above their width. -/
def readHostReg (s : State) : HostReg → Word
  | .cmd      => s.cmd
  | .status   => s.status.word
  | .rc       => s.res.rc
  | .cause    => s.res.cause.zeroExtend 16
  | .bc       => s.res.bc.zeroExtend 16
  | .ndone    => s.res.ndone.zeroExtend 16
  | .tid      => s.tid
  | .crcr     => s.res.crcr
  | .argUnit  => s.args.unit.zeroExtend 16
  | .argStart => s.args.start
  | .argQty   => s.args.qty
  | .argFlags => s.args.swap.zeroExtend 16

/-- A host write of a register other than CMD while BUSY = 0: the ARG registers take the bits they have (R29 to R32), the
read-only ones ignore it. -/
def writeHostReg (s : State) (r : HostReg) (v : Word) : State :=
  match r with
  | .argUnit  => { s with args := { s.args with unit := lo v } }
  | .argStart => { s with args := { s.args with start := v } }
  | .argQty   => { s with args := { s.args with qty := v } }
  | .argFlags => { s with args := { s.args with swap := v.extractLsb' 0 1 } }
  | .cmd | .status | .rc | .cause | .bc | .ndone | .tid | .crcr => s

/-! ### Latching and completion -/

/-- The register writes of latching a command word (R220): CMD, the latched arguments, STATUS. -/
def latchRegs (w : Word) (s : State) : State :=
  { s with cmd := w, latched := s.args, status := Status.running }

/-- The completion step (R221, R264), one atomic update (R56): RC and CAUSE of the ending, the OUT bytes the commit rule writes
from OUT[0] up and their count in BC (R25), NDONE, then BUSY 0, DONE 1 and fsm IDLE. -/
def complete (e : Ending) (bytes : List Byte) (ndone : Byte) (s : State) : State :=
  { s with
    res    := { s.res with rc := endingRc e, cause := endingCause e, bc := BitVec.ofNat 8 bytes.length, ndone := ndone }
    out    := Memory.writeList s.out 0 bytes
    status := Status.ended
    fsm    := .idle }

/-- An illegal command's whole effect (R73): latched, and completed at once with Fail(ILLEGAL_CMD). -/
def illegalCommand (w : Word) (s : State) : State :=
  complete (.fail .illegalCmd) [] 0 (latchRegs w s)

/-- The latching of command `i` (R220): illegal commands end at once, the others go to their first point by `start`. -/
def latch (i : Instr) (start : State → Result) (s : State) : Result :=
  if legal s.params.kind s.args.qty i then start (latchRegs (encode i) s)
  else .next (illegalCommand (encode i) s)

/-- fsm moves to a point of the running command (R36). -/
def goto (i : Instr) (pt : Point) (s : State) : State := { s with fsm := .run i pt }

/-- One action of the engine for command `i`. With BUSY = 0 it is the latching. With BUSY = 1 it is the next event of the
running command, if that is `i`; another command's start is ignored while BUSY (R44). -/
def command (i : Instr) (start : State → Result) (event : Point → State → Result) (s : State) : Result :=
  if s.status.busy then
    match s.fsm with
    | .run j pt => if j = i then event pt s else .next s
    | .idle => .next s
  else latch i start s

/-! ### Transport and clock calls

Each waits for the answer of the call in progress, records the event (R61), and goes on with `k`. With no answer yet the
call has not returned, and nothing happens (R278, R299). -/

/-- A call is answered: the world goes on with `rest`, the inbound queue is `inQ`, and the event is recorded (R61). -/
def State.answered (s : State) (rest : List EnvInput) (inQ : List Byte) (e : Event) : State :=
  { s with env := rest, transport := { inQ := inQ, trace := s.transport.trace ++ [e] } }

/-- One `TxWrite` call of `bs`: `k` gets the number of bytes written, 0 to len(bs) (R10). -/
def awaitTx (bs : List Byte) (timeout : Option Nat) (k : Nat → State → Result) (s : State) : Result :=
  match s.env with
  | .txDone n :: rest =>
    if n ≤ bs.length then k n (s.answered rest s.transport.inQ (.txWrite bs timeout n))
    else .refused .overlongWrite
  | .rxDone _ :: _ => .refused .wrongAnswer
  | .clock _ :: _ => .refused .wrongAnswer
  | _ => .next s

/-- One `RxRead` call for up to `asked` bytes: `k` gets the bytes it returns, taken from the head of the inbound queue
(R10, R57). -/
def awaitRx (asked : Nat) (timeout : Option Nat) (k : List Byte → State → Result) (s : State) : Result :=
  match s.env with
  | .rxDone n :: rest =>
    if asked < n then .refused .overlongRead
    else if s.transport.inQ.length < n then .refused .phantomBytes
    else
      k (s.transport.inQ.take n)
        (s.answered rest (s.transport.inQ.drop n) (.rxRead asked timeout (s.transport.inQ.take n)))
  | .txDone _ :: _ => .refused .wrongAnswer
  | .clock _ :: _ => .refused .wrongAnswer
  | _ => .next s

/-- One `Now` sample: `k` gets it (R10, R275). -/
def awaitClock (k : Clock → State → Result) (s : State) : Result :=
  match s.env with
  | .clock v :: rest => k v (s.answered rest s.transport.inQ (.now v))
  | .txDone _ :: _ => .refused .wrongAnswer
  | .rxDone _ :: _ => .refused .wrongAnswer
  | _ => .next s

/-- What the outside world does to the transport by itself (R43, R294). The answer of a call is not this: it stays for the call
it answers. -/
def worldAct (s : State) : Result :=
  match s.env with
  | .arrive bs :: rest =>
    .next { s with env := rest, transport := { s.transport with inQ := s.transport.inQ ++ bs } }
  | .lose k :: rest =>
    if s.params.retainsUnread then .refused .lostRetainedBytes
    else .next { s with env := rest, transport := { s.transport with inQ := s.transport.inQ.drop k } }
  | .drain :: rest => .next { s with env := rest, transport := { s.transport with inQ := [] } }
  | _ => .next s

/-- The outbound stream (R43, R50): the bytes each write call wrote, one entry per call, oldest first. -/
def outbound (s : State) : List (List Byte) :=
  s.transport.trace.filterMap fun e =>
    match e with
    | .txWrite bs _ n => some (bs.take n)
    | .rxRead _ _ _ => none
    | .now _ => none

/-- The reset event (R290, R291): every register, buffer and internal value takes its reset value; the instance's parameters,
the transport and the outside world stay. -/
def resetEngine (s : State) : State :=
  { State.reset with params := s.params, transport := s.transport, host := s.host, env := s.env }

end Sys2Proof.Machine
end

