-- ==== Sys2Proof/Machine/Rtu.lean ====
section
/-! DEFINITION. The RTU frame codec (41_rtu_codec.md) and the seven RTU commands (R222 to R228). -/

namespace Sys2Proof.Machine

/-! ### Requests -/

/-- The first six bytes of a fixed request (R76, R120). -/
def rtuFixedBody (unit fc : Byte) (a b : Word) : List Byte := unit :: fc :: (be16 a ++ be16 b)

/-- `RtuBuildFixed(fc, A, B)` (R120), with its CRC. -/
def rtuFixedFrame (unit fc : Byte) (a b : Word) : List Byte :=
  rtuFixedBody unit fc a b ++ le16 (frameCrc (rtuFixedBody unit fc a b))

/-- The header chunk of a write-multiple request of `n` registers (R77, R121). -/
def rtuMultiHeader (unit : Byte) (start n : Word) : List Byte :=
  unit :: 0x10 :: (be16 start ++ be16 n ++ [lo (2 * n)])

/-- The payload chunk of a write-multiple request (R121). -/
def rtuMultiPayload (swap : BitVec 1) (ws : List Word) : List Byte := beWords (ws.map (encWord swap))

/-- The start of a read or single-write command: one chunk, the fixed request (R120, R122). CRCW keeps the request's CRC. -/
def rtuStartFixed (i : Instr) (fc : Byte) (s : State) : Result :=
  .next (goto i (.rtuTx (rtuFixedFrame s.latched.unit fc s.latched.start s.latched.qty) [])
    { s with work := { s.work with crcw := frameCrc (rtuFixedBody s.latched.unit fc s.latched.start s.latched.qty) } })

/-- The start of RTU.WR_MULTI: three chunks, header, payload and trailer (R121, R122), the CRC continued over the payload. An
unwritten WDATA element faults (R41). -/
def rtuStartMulti (i : Instr) (s : State) : Result :=
  match Memory.readList s.wdata 0 s.latched.qty.toNat with
  | .error j => .fault (.unwrittenWdata j)
  | .ok ws =>
    let hdr := rtuMultiHeader s.latched.unit s.latched.start s.latched.qty
    let pay := rtuMultiPayload s.latched.swap ws
    .next (goto i (.rtuTx hdr [pay, le16 (chainedCrc hdr pay)])
      { s with work := { s.work with crcw := chainedCrc hdr pay } })

/-! ### The accumulation -/

/-- The length RXBUF has when a part of the response is complete (R126 to R129, R133). -/
def rtuTarget (ph : RtuPhase) (bcnt : Byte) : Nat :=
  match ph with
  | .start => 3
  | .payload => 3 + bcnt.toNat
  | .trailer => 5 + bcnt.toNat
  | .echo => 8

/-- How many bytes the next read of an accumulation asks for: exactly those still missing (R123). -/
def rtuMissing (ph : RtuPhase) (s : State) : Nat := rtuTarget ph s.work.bcnt - s.work.rxbuf.length

/-- A command with no commit rule, or a failed RTU command, ends so: OUT unwritten, BC 0, NDONE 0 (R131, R221). -/
def endPlain (e : Ending) (s : State) : Result := .next (complete e [] 0 s)

/-- The address and function checks on the 3-byte start of a response (R126, R127, R132), in that order; `ok` continues after a
normal answer. -/
def rtuCheckStart (fc : Byte) (ok : State → Result) (s : State) : Result :=
  if byteAt s.work.rxbuf 0 ≠ s.latched.unit then endPlain (.fail .addrMismatch) s
  else
    match decodeAnswer fc (byteAt s.work.rxbuf 1) with
    | .serverException => endPlain (.serverExc (byteAt s.work.rxbuf 2)) s
    | .mismatch => endPlain (.fail .funcMismatch) s
    | .normal => ok s

/-- After the start of a read response: the declared count, then the payload, or at once the trailer if it is 0 (R127,
R128). -/
def rtuReadBegin (i : Instr) (last : Clock) (s : State) : Result :=
  let bc := byteAt s.work.rxbuf 2
  .next (goto i (.rtuRx (if bc = 0 then .trailer else .payload) last) { s with work := { s.work with bcnt := bc } })

/-- The 3-byte start p, the payload d and the trailer t in RXBUF (R126 to R129). -/
def rtuStartBytes (s : State) : List Byte := s.work.rxbuf.take 3
def rtuPayloadBytes (s : State) : List Byte := (s.work.rxbuf.drop 3).take s.work.bcnt.toNat
def rtuTrailerBytes (s : State) : List Byte := s.work.rxbuf.drop (3 + s.work.bcnt.toNat)

/-- The CRC check of a read response, chained over start and payload (R130), then the commit (R131). -/
def rtuReadCheck (fc : Byte) (s : State) : Result :=
  let s := { s with work := { s.work with crcw := chainedCrc (rtuStartBytes s) (rtuPayloadBytes s) } }
  if trailerOk s.work.crcw (byteAt (rtuTrailerBytes s) 0) (byteAt (rtuTrailerBytes s) 1) then
    .next (complete .success (regCodecRead fc s.latched.swap (rtuPayloadBytes s)) 0 s)
  else endPlain (.fail .crcMismatch) s

/-- The echo check (R133), then the CRC check (R134), of a write response; a success confirms `ndone` registers (R26). -/
def rtuWriteCheck (a b : Word) (ndone : Byte) (s : State) : Result :=
  let r := s.work.rxbuf
  if word (byteAt r 2) (byteAt r 3) ≠ a ∨ word (byteAt r 4) (byteAt r 5) ≠ b then endPlain (.fail .echoMismatch) s
  else
    let s := { s with work := { s.work with crcw := frameCrc (r.take 6) } }
    if trailerOk s.work.crcw (byteAt r 6) (byteAt r 7) then .next (complete .success [] ndone s)
    else endPlain (.fail .crcMismatch) s

/-- Which response a command parses: a read response, or the echo of a write, whose success confirms `ndone` registers. -/
inductive RtuParse where
  | read
  | write (ndone : Byte)
  deriving DecidableEq, Repr

/-- What follows when a part of the response is complete (R126 to R134). -/
def rtuPartDone (i : Instr) (fc : Byte) (kind : RtuParse) (ph : RtuPhase) (last : Clock) (s : State) : Result :=
  match kind, ph with
  | .read, .start => rtuCheckStart fc (rtuReadBegin i last) s
  | .read, .payload => .next (goto i (.rtuRx .trailer last) s)
  | .read, .trailer => rtuReadCheck fc s
  | .write _, .start => rtuCheckStart fc (fun s => .next (goto i (.rtuRx .echo last) s)) s
  | .write n, .echo => rtuWriteCheck s.latched.start s.latched.qty n s
  | .read, .echo => .refused .strayPoint
  | .write _, .payload => .refused .strayPoint
  | .write _, .trailer => .refused .strayPoint

/-- The next visible event of an RTU command: a chunk's write (R122), the sample that starts the deadline (R124), a read of an
accumulation or the sample after an incomplete one (R123, R125). -/
def rtuEvent (i : Instr) (fc : Byte) (kind : RtuParse) (pt : Point) (s : State) : Result :=
  match pt with
  | .rtuTx chunk more =>
    awaitTx chunk (some s.params.rtuWriteTimeout) (fun n s =>
      if n ≠ chunk.length then endPlain (.fail .shortWrite) s
      else
        match more with
        | [] => .next (goto i .rtuT0 s)
        | c :: cs => .next (goto i (.rtuTx c cs) s)) s
  | .rtuT0 =>
    awaitClock (fun v s =>
      .next (goto i (.rtuRx .start v) { s with work := { s.work with t0 := v, rxbuf := [] } })) s
  | .rtuRx ph last =>
    awaitRx (rtuMissing ph s) (some s.params.rtuReadTimeout) (fun bs s =>
      let s := { s with work := { s.work with rxbuf := s.work.rxbuf ++ bs } }
      if s.work.rxbuf.length = rtuTarget ph s.work.bcnt then rtuPartDone i fc kind ph last s
      else .next (goto i (.rtuClk ph last) s)) s
  | .rtuClk ph last =>
    awaitClock (fun v s =>
      if elapsed s.work.t0 v < elapsed s.work.t0 last then .refused .clockWentBack
      else if Config.rtuBudget < elapsed s.work.t0 v then endPlain (.fail .timeout) s
      else .next (goto i (.rtuRx ph v) s)) s
  | .tcp _ _ => .refused .strayPoint
  | .compute => .refused .strayPoint

/-! ### The commands -/

/-- RTU.RD_COILS (R222). -/
def execRtuRdCoils (s : State) : Result :=
  command .rtuRdCoils (rtuStartFixed .rtuRdCoils 0x01) (rtuEvent .rtuRdCoils 0x01 .read) s

/-- RTU.RD_DISCRETE (R223). -/
def execRtuRdDiscrete (s : State) : Result :=
  command .rtuRdDiscrete (rtuStartFixed .rtuRdDiscrete 0x02) (rtuEvent .rtuRdDiscrete 0x02 .read) s

/-- RTU.RD_HOLDING (R224). -/
def execRtuRdHolding (s : State) : Result :=
  command .rtuRdHolding (rtuStartFixed .rtuRdHolding 0x03) (rtuEvent .rtuRdHolding 0x03 .read) s

/-- RTU.RD_INPUT (R225). -/
def execRtuRdInput (s : State) : Result :=
  command .rtuRdInput (rtuStartFixed .rtuRdInput 0x04) (rtuEvent .rtuRdInput 0x04 .read) s

/-- RTU.WR_COIL (R226): no pre-read and no skip, the value sent as given. -/
def execRtuWrCoil (s : State) : Result :=
  command .rtuWrCoil (rtuStartFixed .rtuWrCoil 0x05) (rtuEvent .rtuWrCoil 0x05 (.write 0)) s

/-- RTU.WR_REG (R227). -/
def execRtuWrReg (s : State) : Result :=
  command .rtuWrReg (rtuStartFixed .rtuWrReg 0x06) (rtuEvent .rtuWrReg 0x06 (.write 0)) s

/-- RTU.WR_MULTI (R228): NDONE is L_QTY on success, 0 on every other ending. -/
def execRtuWrMulti (s : State) : Result :=
  command .rtuWrMulti (rtuStartMulti .rtuWrMulti) (rtuEvent .rtuWrMulti 0x10 (.write (lo s.latched.qty))) s

end Sys2Proof.Machine
end

