-- ==== Sys2Proof/Machine/Tcp.lean ====
section
/-! DEFINITION. The TCP frame codec and transaction sequencer (42_tcp_codec.md) and the seven TCP commands (R229 to R235). -/

namespace Sys2Proof.Machine

/-! ### Requests -/

/-- `TcpBuild(fc, A, B)` for the transaction id `tid` (R81, R161). -/
def tcpFrame (tid : Word) (unit fc : Byte) (a b : Word) : List Byte :=
  be16 tid ++ [0x00, 0x00, 0x00, 0x06, unit, fc] ++ be16 a ++ be16 b

/-- The start of a transaction (R160, R162): TID is incremented, and the request carrying it goes to its write call. -/
def tcpSend (i : Instr) (txn : TcpTxn) (fc : Byte) (a b : Word) (s : State) : Result :=
  .next (goto i (.tcp txn (.tx (tcpFrame (s.tid + 1) s.latched.unit fc a b))) { s with tid := s.tid + 1 })

/-! ### Responses -/

/-- How one transaction ends: with the payload of a read (empty for a write), a failure, or a server exception. On a failure of
a read, ZF holds the zero-fill length (R164 to R168). -/
inductive TxnEnd where
  | ok (d : List Byte)
  | fail (c : Cause)
  | serverExc (k : Byte)
  deriving DecidableEq, Repr

/-- The ending of a command whose transaction ends so (R221). -/
def TxnEnd.ending : TxnEnd → Ending
  | .ok _ => .success
  | .fail c => .fail c
  | .serverExc k => .serverExc k

/-- The echoed transaction id of a header (R82). -/
def headerTid (hdr : List Byte) : Word := word (byteAt hdr 0) (byteAt hdr 1)

/-- `TcpParseRead(fc)` on a full header (R165 to R167): accept the id just sent, discard an older one and read a header again,
or fail; then the function byte; then the declared count, with no payload read if it is 0 (R163, R168). -/
def tcpReadHeader (i : Instr) (txn : TcpTxn) (fc : Byte) (fin : TxnEnd → State → Result) (hdr : List Byte)
    (s : State) : Result :=
  if headerTid hdr = s.tid then
    match decodeAnswer fc (byteAt hdr 7) with
    | .serverException => fin (.serverExc (byteAt hdr 8)) s
    | .mismatch => fin (.fail .funcMismatch) { s with work := { s.work with zf := byteAt hdr 8 } }
    | .normal =>
      let s := { s with work := { s.work with bcnt := byteAt hdr 8 } }
      if s.work.bcnt = 0 then fin (.ok []) s else .next (goto i (.tcp txn .payload) s)
  else if older (headerTid hdr) s.tid then .next (goto i (.tcp txn .header) s)
  else fin (.fail .tidMismatch) { s with work := { s.work with zf := byteAt hdr 8 } }

/-- The next visible event of a read transaction (R162 to R168); `fin` follows when the transaction ends. RXBUF holds the part
just read. -/
def tcpReadEvent (i : Instr) (txn : TcpTxn) (fc : Byte) (fin : TxnEnd → State → Result) (ph : TcpPhase)
    (s : State) : Result :=
  match ph with
  | .tx frame =>
    awaitTx frame none (fun n s =>
      if n ≠ frame.length then fin (.fail .shortWrite) { s with work := { s.work with zf := 0 } }
      else .next (goto i (.tcp txn .header) s)) s
  | .header =>
    awaitRx 9 none (fun hdr s =>
      let s := { s with work := { s.work with rxbuf := hdr } }
      if hdr.length ≠ 9 then fin (.fail .shortRead) { s with work := { s.work with zf := 0 } }
      else tcpReadHeader i txn fc fin hdr s) s
  | .payload =>
    awaitRx s.work.bcnt.toNat none (fun d s =>
      let s := { s with work := { s.work with rxbuf := d } }
      if d.length ≠ s.work.bcnt.toNat then
        fin (.fail .shortRead) { s with work := { s.work with zf := s.work.bcnt } }
      else fin (.ok d) s) s
  | .rest => .refused .strayPoint

/-- `TcpParseWrite(fc)` on a full header (R170, R171): any id but the one just sent fails, then the function byte, then the last
three bytes. -/
def tcpWriteHeader (i : Instr) (txn : TcpTxn) (fc : Byte) (fin : TxnEnd → State → Result) (hdr : List Byte)
    (s : State) : Result :=
  if headerTid hdr ≠ s.tid then fin (.fail .tidMismatch) s
  else
    match decodeAnswer fc (byteAt hdr 7) with
    | .serverException => fin (.serverExc (byteAt hdr 8)) s
    | .mismatch => fin (.fail .funcMismatch) s
    | .normal => .next (goto i (.tcp txn .rest) s)

/-- The next visible event of a write transaction (R162, R163, R170); `fin` follows when the transaction ends. -/
def tcpWriteEvent (i : Instr) (txn : TcpTxn) (fc : Byte) (fin : TxnEnd → State → Result) (ph : TcpPhase)
    (s : State) : Result :=
  match ph with
  | .tx frame =>
    awaitTx frame none (fun n s =>
      if n ≠ frame.length then fin (.fail .shortWrite) s
      else .next (goto i (.tcp txn .header) s)) s
  | .header =>
    awaitRx 9 none (fun hdr s =>
      let s := { s with work := { s.work with rxbuf := hdr } }
      if hdr.length ≠ 9 then fin (.fail .shortRead) s
      else tcpWriteHeader i txn fc fin hdr s) s
  | .rest =>
    awaitRx 3 none (fun rest s =>
      let s := { s with work := { s.work with rxbuf := rest } }
      if rest.length ≠ 3 then fin (.fail .shortRead) s
      else fin (.ok []) s) s
  | .payload => .refused .strayPoint

/-! ### Read commands -/

/-- The end of a TCP read command (R169): the payload through the register codec, zeros over the zero-fill length, or nothing
after a server exception. -/
def tcpReadEnd (fc : Byte) (e : TxnEnd) (s : State) : Result :=
  match e with
  | .ok d => .next (complete .success (regCodecRead fc s.latched.swap d) 0 s)
  | .fail c => .next (complete (.fail c) (List.replicate s.work.zf.toNat 0) 0 s)
  | .serverExc k => .next (complete (.serverExc k) [] 0 s)

/-- The start of a TCP read command (R174, R229 to R232). -/
def tcpStartRead (i : Instr) (fc : Byte) (s : State) : Result :=
  tcpSend i .main fc s.latched.start s.latched.qty s

/-- The events of a TCP read command. -/
def tcpReadCommand (i : Instr) (fc : Byte) (pt : Point) (s : State) : Result :=
  match pt with
  | .tcp .main ph => tcpReadEvent i .main fc (tcpReadEnd fc) ph s
  | .tcp .preRead _ => .refused .strayPoint
  | .rtuTx _ _ => .refused .strayPoint
  | .rtuT0 => .refused .strayPoint
  | .rtuRx _ _ => .refused .strayPoint
  | .rtuClk _ _ => .refused .strayPoint
  | .compute => .refused .strayPoint

/-- TCP.RD_COILS (R229). -/
def execTcpRdCoils (s : State) : Result :=
  command .tcpRdCoils (tcpStartRead .tcpRdCoils 0x01) (tcpReadCommand .tcpRdCoils 0x01) s

/-- TCP.RD_DISCRETE (R230). -/
def execTcpRdDiscrete (s : State) : Result :=
  command .tcpRdDiscrete (tcpStartRead .tcpRdDiscrete 0x02) (tcpReadCommand .tcpRdDiscrete 0x02) s

/-- TCP.RD_HOLDING (R231). -/
def execTcpRdHolding (s : State) : Result :=
  command .tcpRdHolding (tcpStartRead .tcpRdHolding 0x03) (tcpReadCommand .tcpRdHolding 0x03) s

/-- TCP.RD_INPUT (R232). -/
def execTcpRdInput (s : State) : Result :=
  command .tcpRdInput (tcpStartRead .tcpRdInput 0x04) (tcpReadCommand .tcpRdInput 0x04) s

/-! ### Single writes -/

/-- The end of a single write command: no commit rule, so OUT is unchanged and BC is 0 (R170, R221). -/
def tcpWriteEnd (e : TxnEnd) (s : State) : Result := .next (complete e.ending [] 0 s)

/-- The events of TCP.WR_REG. -/
def tcpRegEvent (pt : Point) (s : State) : Result :=
  match pt with
  | .tcp .main ph => tcpWriteEvent .tcpWrReg .main 0x06 tcpWriteEnd ph s
  | .tcp .preRead _ => .refused .strayPoint
  | .rtuTx _ _ => .refused .strayPoint
  | .rtuT0 => .refused .strayPoint
  | .rtuRx _ _ => .refused .strayPoint
  | .rtuClk _ _ => .refused .strayPoint
  | .compute => .refused .strayPoint

/-- TCP.WR_REG (R234). -/
def execTcpWrReg (s : State) : Result :=
  command .tcpWrReg (fun s => tcpSend .tcpWrReg .main 0x06 s.latched.start s.latched.qty s) tcpRegEvent s

/-- The write transaction of TCP.WR_COIL (R233). -/
def tcpCoilWrite (s : State) : Result := tcpSend .tcpWrCoil .main 0x05 s.latched.start s.latched.qty s

/-- The start of TCP.WR_COIL (R233): SKIP 0, then the pre-read if TCP_COIL_SKIP holds and the value is 0xFF00 or 0x0000, else the
write. -/
def tcpCoilStart (s : State) : Result :=
  let s := { s with work := { s.work with skip := 0 } }
  if s.params.coilSkip && isCoilValue s.latched.qty then tcpSend .tcpWrCoil .preRead 0x01 s.latched.start 0x0001 s
  else tcpCoilWrite s

/-- The end of the pre-read (R233, R270): SKIP is 1 only if it succeeded and shows the coil as wanted, and then the command
finishes; any other end is absorbed and the write follows. -/
def tcpPreReadEnd (e : TxnEnd) (s : State) : Result :=
  let skip : BitVec 1 :=
    match e with
    | .ok r => if coilAlready s.latched.qty r then 1 else 0
    | .fail _ => 0
    | .serverExc _ => 0
  let s := { s with work := { s.work with skip := skip } }
  if s.work.skip = 1 then .next (complete .success [] 0 s) else tcpCoilWrite s

/-- The events of TCP.WR_COIL: those of the pre-read, then those of the write. -/
def tcpCoilEvent (pt : Point) (s : State) : Result :=
  match pt with
  | .tcp .preRead ph => tcpReadEvent .tcpWrCoil .preRead 0x01 tcpPreReadEnd ph s
  | .tcp .main ph => tcpWriteEvent .tcpWrCoil .main 0x05 tcpWriteEnd ph s
  | .rtuTx _ _ => .refused .strayPoint
  | .rtuT0 => .refused .strayPoint
  | .rtuRx _ _ => .refused .strayPoint
  | .rtuClk _ _ => .refused .strayPoint
  | .compute => .refused .strayPoint

/-- TCP.WR_COIL (R233). -/
def execTcpWrCoil (s : State) : Result := command .tcpWrCoil tcpCoilStart tcpCoilEvent s

/-! ### Write multiple -/

/-- The transaction of register I (R235): address L_START + I modulo 2^16, value EncWord(WDATA[I]). An unwritten WDATA element
faults (R41). -/
def tcpMultiSend (s : State) : Result :=
  match Memory.read s.wdata s.work.i.toNat with
  | none => .fault (.unwrittenWdata s.work.i.toNat)
  | some w =>
    tcpSend .tcpWrMulti .main 0x06 (s.latched.start + s.work.i.zeroExtend 16) (encWord s.latched.swap w) s

/-- The start of TCP.WR_MULTI: I = 0 (R235). -/
def tcpMultiStart (s : State) : Result := tcpMultiSend { s with work := { s.work with i := 0 } }

/-- The end of the transaction of register I (R235, R269): the next register's, the end of the command after n, or the ending of
the first that fails, with NDONE the number that succeeded before it. -/
def tcpMultiEnd (e : TxnEnd) (s : State) : Result :=
  match e with
  | .ok _ =>
    let s := { s with work := { s.work with i := s.work.i + 1 } }
    if s.work.i.toNat < s.latched.qty.toNat then tcpMultiSend s
    else .next (complete .success [] (lo s.latched.qty) s)
  | .fail c => .next (complete (.fail c) [] s.work.i s)
  | .serverExc k => .next (complete (.serverExc k) [] s.work.i s)

/-- The events of TCP.WR_MULTI. -/
def tcpMultiEvent (pt : Point) (s : State) : Result :=
  match pt with
  | .tcp .main ph => tcpWriteEvent .tcpWrMulti .main 0x06 tcpMultiEnd ph s
  | .tcp .preRead _ => .refused .strayPoint
  | .rtuTx _ _ => .refused .strayPoint
  | .rtuT0 => .refused .strayPoint
  | .rtuRx _ _ => .refused .strayPoint
  | .rtuClk _ _ => .refused .strayPoint
  | .compute => .refused .strayPoint

/-- TCP.WR_MULTI (R235). -/
def execTcpWrMulti (s : State) : Result := command .tcpWrMulti tcpMultiStart tcpMultiEvent s

end Sys2Proof.Machine
end

