-- ==== Sys2Proof/Machine/Util.lean ====
section
/-! DEFINITION. The two utility commands, UTIL.CRC16 (R105) and UTIL.SWAP (R205). They make no transport call: latching takes them
to the point `compute`, and their next action is the computation with the completion step. -/

namespace Sys2Proof.Machine

/-- The latching of a utility command (R220): no visible event, so fsm goes to the computation. -/
def utilStart (i : Instr) (s : State) : Result := .next (goto i .compute s)

/-- The computation of UTIL.CRC16 (R105): CRCR takes the CRC of IBUF[0..L_QTY-1] from the seed bytes of L_START. -/
def utilCrcCompute (s : State) : Result :=
  match Memory.readList s.ibuf 0 s.latched.qty.toNat with
  | .error j => .fault (.unwrittenIbuf j)
  | .ok bs =>
    let c := crc16 bs (hi s.latched.start) (lo s.latched.start)
    .next (complete .success [] 0
      { s with res := { s.res with crcr := c }, work := { s.work with crcw := c } })

/-- The computation of UTIL.SWAP (R205): OUT takes the swapped words of WDATA[0..L_QTY-1], high byte first. -/
def utilSwapCompute (s : State) : Result :=
  match Memory.readList s.wdata 0 s.latched.qty.toNat with
  | .error j => .fault (.unwrittenWdata j)
  | .ok ws => .next (complete .success (beWords (ws.map swap16)) 0 s)

/-- A utility command's one action after latching. -/
def utilEvent (compute : State → Result) (pt : Point) (s : State) : Result :=
  match pt with
  | .compute => compute s
  | .rtuTx _ _ => .refused .strayPoint
  | .rtuT0 => .refused .strayPoint
  | .rtuRx _ _ => .refused .strayPoint
  | .rtuClk _ _ => .refused .strayPoint
  | .tcp _ _ => .refused .strayPoint

/-- UTIL.CRC16 (R105). -/
def execUtilCrc16 (s : State) : Result := command .utilCrc16 (utilStart .utilCrc16) (utilEvent utilCrcCompute) s

/-- UTIL.SWAP (R205). -/
def execUtilSwap (s : State) : Result := command .utilSwap (utilStart .utilSwap) (utilEvent utilSwapCompute) s

end Sys2Proof.Machine
end

