-- ==== Sys2Proof/Machine/Dispatch.lean ====
section
/-! DEFINITION. The dispatch of the sixteen commands to their meanings (R72). -/

namespace Sys2Proof.Machine

-- exec i s is one action of the engine for command i: its latching when BUSY = 0, its next visible event when it runs.
def exec (i : Instr) (s : State) : Host.Outcome State Fault Refusal :=
  match i with
  | .rtuRdCoils => Sys2Proof.Machine.execRtuRdCoils s
  | .rtuRdDiscrete => Sys2Proof.Machine.execRtuRdDiscrete s
  | .rtuRdHolding => Sys2Proof.Machine.execRtuRdHolding s
  | .rtuRdInput => Sys2Proof.Machine.execRtuRdInput s
  | .rtuWrCoil => Sys2Proof.Machine.execRtuWrCoil s
  | .rtuWrReg => Sys2Proof.Machine.execRtuWrReg s
  | .rtuWrMulti => Sys2Proof.Machine.execRtuWrMulti s
  | .tcpRdCoils => Sys2Proof.Machine.execTcpRdCoils s
  | .tcpRdDiscrete => Sys2Proof.Machine.execTcpRdDiscrete s
  | .tcpRdHolding => Sys2Proof.Machine.execTcpRdHolding s
  | .tcpRdInput => Sys2Proof.Machine.execTcpRdInput s
  | .tcpWrCoil => Sys2Proof.Machine.execTcpWrCoil s
  | .tcpWrReg => Sys2Proof.Machine.execTcpWrReg s
  | .tcpWrMulti => Sys2Proof.Machine.execTcpWrMulti s
  | .utilCrc16 => Sys2Proof.Machine.execUtilCrc16 s
  | .utilSwap => Sys2Proof.Machine.execUtilSwap s

end Sys2Proof.Machine
end

