-- ==== Sys2Proof/Machine/Agents.lean ====
section
/-! DEFINITION. The two agents outside the engine and whose turn it is: the host with its operations (R87, R88), and the outside
world with the transport and the clock (R43, R275). The engine acts when the world has an answer for the call in progress, or
when the running command has no call left to make. -/

namespace Sys2Proof.Machine

/-- A host write of a word to CMD while BUSY = 0 (R21, R220): the decoded command is latched, and a word that is no command ends
at once (R73). -/
def startCommand (w : Word) (s : State) : Result :=
  match decode? w with
  | some i => exec i s
  | none => .next (illegalCommand w s)

/-- A host write of register `index` (R21 to R32): ignored while BUSY (R44); a write of CMD starts a command. -/
def hostSetReg (index : Nat) (v : Word) (s : State) : Result :=
  match hostRegOf index with
  | none => .fault (.noSuchRegister index)
  | some r =>
    if s.status.busy then .next s
    else if r = .cmd then startCommand v s
    else .next (writeHostReg s r v)

/-- A host write of one buffer element, to the state `written` has it in: ignored while BUSY (R44), a fault where there is no such
element (R50). -/
def hostSetElement (cap i : Nat) (written s : State) : Result :=
  if i < cap then
    if s.status.busy then .next s else .next written
  else .fault (.noSuchElement i)

/-- A host read of one buffer element: no effect (R57), or a fault where there is no such element or it is unwritten (R41). -/
def hostGetElement {w : Nat} (m : Memory w) (cap i : Nat) (unwritten : Nat → Fault) (s : State) : Result :=
  if i < cap then
    match m.read i with
    | some _ => .next s
    | none => .fault (unwritten i)
  else .fault (.noSuchElement i)

/-- What a host read of `OUTW[i]` does (R53): no effect, or a fault where the word view has no such element or one of its two
bytes is unwritten. -/
def hostGetOutw (i : Nat) (s : State) : Result :=
  if i ≤ 126 then
    match outWord s i with
    | .ok _ => .next s
    | .error j => .fault (.unwrittenOut j)
  else .fault (.noSuchElement i)

/-- One host operation, already taken from the host's list (R87). Reads have no side effect (R57), and a write of OUT, which the host
may only read (R35), is ignored. -/
def hostAct (op : HostOp) (s : State) : Result :=
  match op with
  | .setReg index v => hostSetReg index v s
  | .setWdata i v => hostSetElement Config.wdataWords i { s with wdata := s.wdata.write i v } s
  | .setIbuf i b => hostSetElement Config.ibufBytes i { s with ibuf := s.ibuf.write i b } s
  | .setOut i _ => hostSetElement Config.outBytes i s s
  | .getReg index =>
    match hostRegOf index with
    | none => .fault (.noSuchRegister index)
    | some _ => .next s
  | .getWdata i => hostGetElement s.wdata Config.wdataWords i .unwrittenWdata s
  | .getIbuf i => hostGetElement s.ibuf Config.ibufBytes i .unwrittenIbuf s
  | .getOut i => hostGetElement s.out Config.outBytes i .unwrittenOut s
  | .getOutw i => hostGetOutw i s
  | .wait => .next s
  | .pause => .next s
  | .reset => .next (resetEngine s)

/-- The next thing the outside world does is done to the transport by itself, rather than the answer of a call. -/
def worldMoves : List EnvInput → Bool
  | .arrive _ :: _ => true
  | .lose _ :: _ => true
  | .drain :: _ => true
  | .txDone _ :: _ => false
  | .rxDone _ :: _ => false
  | .clock _ :: _ => false
  | [] => false

/-- The turn of the engine and the world. A command with only its computation left acts (R11). Otherwise the world does what it
does by itself, or the running command takes its next event. -/
def engineTurn (s : State) : Result :=
  if s.status.busy then
    match s.fsm with
    | .idle => worldAct s
    | .run i .compute => exec i s
    | .run i _ => if worldMoves s.env then worldAct s else exec i s
  else worldAct s

/-- Whose turn it is: the host's, if it has an operation to do and does not wait; else the engine's and the world's. -/
def turn (s : State) : Result :=
  match s.host with
  | [] => engineTurn s
  | .wait :: rest => if s.status.done then .next { s with host := rest } else engineTurn s
  | .pause :: rest => engineTurn { s with host := rest }
  | op :: rest => hostAct op { s with host := rest }

/-- A CMD write put before the host's other operations, on an engine that is not BUSY and whose kind runs the word's class
(R71, R220). -/
def placeCommand (s : State) (v : Word) : State :=
  { s with
    params :=
      { s.params with
        kind := if (fieldsOf v).cls = 0 then .rtu else if (fieldsOf v).cls = 1 then .tcp else s.params.kind }
    status := { s.status with busy := false }
    host   := .setReg 0 v :: s.host }

/-! ### The pseudo-instructions of a host program (R88) -/

/-- A transaction command with its operands, and the wait for its end. -/
def callTransaction (i : Instr) (unit : Byte) (start qty : Word) (swap : BitVec 1) : List HostOp :=
  [.setReg 0x08 (unit.zeroExtend 16), .setReg 0x09 start, .setReg 0x0A qty, .setReg 0x0B (swap.zeroExtend 16),
    .setReg 0x00 (encode i), .wait]

/-- UTIL.CRC16 with its length and seed. -/
def callCrc16 (len seed : Word) : List HostOp :=
  [.setReg 0x0A len, .setReg 0x09 seed, .setReg 0x00 (encode .utilCrc16), .wait]

/-- UTIL.SWAP with its word count. -/
def callSwap (n : Word) : List HostOp :=
  [.setReg 0x0A n, .setReg 0x00 (encode .utilSwap), .wait]

end Sys2Proof.Machine
end

