-- ==== Sys2Proof/Machine/Step.lean ====
section
/-! DEFINITION. One step of the machine, and the placing of a command word as the next one a step runs. -/

namespace Sys2Proof.Machine

/-- One step: one host operation, one visible event or completion of the engine, or one act of the outside world. -/
def step (s : State) : Host.Outcome State Fault Refusal := turn s

/-- Place a command word so that the next step runs it. Modbus-FE fetches nothing (R65): a command comes from the host's write
of CMD, so the word becomes the host's next operation (log entry 4). -/
def State.withFetchWord (s : State) (nbits w : Nat) : State :=
  if nbits ≤ 16 then placeCommand s (BitVec.ofNat 16 w) else s

end Sys2Proof.Machine
end

