-- ==== Sys2Proof/Safety.lean ====
section
/-! DEFINITION. The terms claims are stated in: the families of commands, where a command stands and what its call returns, how a
command ends, what an action leaves alone, the invariant of the machine, and the scripts of an outside world that answers. -/

namespace Sys2Proof.Machine

/-! ### Families of commands -/

/-- The RTU read commands (R222 to R225). -/
abbrev rtuReads : List Instr := [.rtuRdCoils, .rtuRdDiscrete, .rtuRdHolding, .rtuRdInput]

/-- The RTU write commands (R226 to R228). -/
abbrev rtuWrites : List Instr := [.rtuWrCoil, .rtuWrReg, .rtuWrMulti]

/-- The RTU commands whose request is the fixed frame (R76). -/
abbrev rtuFixed : List Instr := [.rtuRdCoils, .rtuRdDiscrete, .rtuRdHolding, .rtuRdInput, .rtuWrCoil, .rtuWrReg]

/-- All RTU commands. -/
abbrev rtuAll : List Instr := rtuReads ++ rtuWrites

/-- The TCP read commands (R229 to R232). -/
abbrev tcpReads : List Instr := [.tcpRdCoils, .tcpRdDiscrete, .tcpRdHolding, .tcpRdInput]

/-- The TCP write commands (R233 to R235). -/
abbrev tcpWrites : List Instr := [.tcpWrCoil, .tcpWrReg, .tcpWrMulti]

/-- All TCP commands. -/
abbrev tcpAll : List Instr := tcpReads ++ tcpWrites

/-- The utility commands. -/
abbrev utils : List Instr := [.utilCrc16, .utilSwap]

/-- The function code a TCP command's last transaction sends: TCP.WR_MULTI sends 0x06 (R75, R235), the others their own. -/
def wireFc (i : Instr) : Byte := if i = .tcpWrMulti then 0x06 else i.fields.fc

/-! ### Where a command stands -/

/-- Command `i` is running and stands at `pt`. -/
abbrev Runs (i : Instr) (pt : Point) (s : State) : Prop := s.status.busy = true ∧ s.fsm = .run i pt

/-- The pending read returns `bs`, and `left` stays in the inbound queue. -/
abbrev ReadReturns (bs : List Byte) (env' : List EnvInput) (left : List Byte) (s : State) : Prop :=
  s.env = .rxDone bs.length :: env' ∧ s.transport.inQ = bs ++ left

/-- The pending write returns `n`. -/
abbrev WriteReturns (n : Nat) (env' : List EnvInput) (s : State) : Prop := s.env = .txDone n :: env'

/-- The pending clock sample is `v`. -/
abbrev ClockReads (v : Clock) (env' : List EnvInput) (s : State) : Prop := s.env = .clock v :: env'

/-- The transport after a read call of `asked` bytes returned `bs`. -/
def afterRead (s : State) (asked : Nat) (timeout : Option Nat) (bs left : List Byte) : Transport :=
  { inQ := left, trace := s.transport.trace ++ [.rxRead asked timeout bs] }

/-- The transport after a write call of `bs` returned `n`. -/
def afterWrite (s : State) (bs : List Byte) (timeout : Option Nat) (n : Nat) : Transport :=
  { s.transport with trace := s.transport.trace ++ [.txWrite bs timeout n] }

/-- The transport after a clock sample. -/
def afterClock (s : State) (v : Clock) : Transport :=
  { s.transport with trace := s.transport.trace ++ [.now v] }

/-! ### What moves the transport (R43, R57, R61) -/

/-- One visible event: recorded after the earlier ones, its one answer taken from the outside world. A read takes its bytes from
the head of the inbound queue and at most as many as asked, a write writes at most what it was given, and nothing else touches
the queue. -/
abbrev VisibleEvent (s t : State) : Prop :=
  ∃ e a, t.transport.trace = s.transport.trace ++ [e] ∧ s.env = a :: t.env ∧
    match e with
    | .txWrite bs _ n => a = .txDone n ∧ n ≤ bs.length ∧ t.transport.inQ = s.transport.inQ
    | .rxRead asked _ bs => a = .rxDone bs.length ∧ bs.length ≤ asked ∧ s.transport.inQ = bs ++ t.transport.inQ
    | .now v => a = .clock v ∧ t.transport.inQ = s.transport.inQ

/-- One act of the outside world on the transport, with no visible event: bytes arrive behind those queued, the oldest queued bytes
are lost where TRANSPORT_RETAINS_UNREAD does not hold, or the queue is emptied. -/
def WorldMoved (s t : State) : Prop :=
  t.transport.trace = s.transport.trace ∧
  ((∃ bs, s.env = .arrive bs :: t.env ∧ t.transport.inQ = s.transport.inQ ++ bs) ∨
   (∃ k, s.env = .lose k :: t.env ∧ s.params.retainsUnread = false ∧ t.transport.inQ = s.transport.inQ.drop k) ∨
   (s.env = .drain :: t.env ∧ t.transport.inQ = []))

/-- The host leaves the turn to the engine and the world: it has nothing to do, or waits for DONE (log entry 13). -/
abbrev HostYields (s : State) : Prop := s.host = [] ∨ ∃ rest, s.host = .wait :: rest ∧ s.status.done = false

/-! ### How a command ends, and what it leaves alone -/

/-- The command has ended with these results: RC, CAUSE, NDONE, BC the number of OUT bytes written, those bytes in OUT from
OUT[0] up and every other OUT byte as in `s`, STATUS DONE, fsm IDLE (R221, R264). -/
def Ended (s t : State) (rc : Word) (cause : Byte) (bytes : List Byte) (ndone : Byte) : Prop :=
  t.res.rc = rc ∧ t.res.cause = cause ∧ t.res.bc.toNat = bytes.length ∧ t.res.ndone = ndone ∧
  t.status = { busy := false, done := true } ∧ t.fsm = .idle ∧
  ∀ j, t.out.read j = if j < bytes.length then bytes[j]? else s.out.read j

/-- What no action of the engine changes: the parameters, the argument registers, the buffers the host owns, the host's
operations (R33, R34, R44). -/
def HostSideKept (s t : State) : Prop :=
  t.params = s.params ∧ t.args = s.args ∧ t.wdata = s.wdata ∧ t.ibuf = s.ibuf ∧ t.host = s.host

/-- What no action of a running command changes besides: CMD and the latched arguments (R21, R37). -/
def RunningKept (s t : State) : Prop := HostSideKept s t ∧ t.cmd = s.cmd ∧ t.latched = s.latched

/-- `t` is `s` with command `i` ended so, its last event recorded as `tr`, the world left with `env'`; CRCR and the sequence
counter as in `s`. -/
def EndsCommand (s t : State) (tr : Transport) (env' : List EnvInput) (rc : Word) (cause : Byte) (bytes : List Byte)
    (ndone : Byte) : Prop :=
  Ended s t rc cause bytes ndone ∧ RunningKept s t ∧ t.tid = s.tid ∧ t.res.crcr = s.res.crcr ∧
  t.transport = tr ∧ t.env = env'

/-- The elements of `xs` stand in a buffer from index 0 up. -/
def Holds {w : Nat} (m : Memory w) (xs : List (BitVec w)) : Prop :=
  ∀ j, j < xs.length → m.read j = xs[j]?

/-! ### The invariant -/

/-- RC and CAUSE agree with the result contract (R261, R262): success with 0, a local failure with -1, a server exception with a
zero-extended byte. -/
def ResultContract (r : Results) : Prop :=
  (r.cause = 0 ∧ r.rc = 0) ∨ (1 ≤ r.cause.toNat ∧ r.cause.toNat ≤ 9 ∧ r.rc = 0xFFFF) ∨
  (r.cause = 10 ∧ r.rc.toNat ≤ 255)

/-- The parts of an RTU response a command gathers: reads the start, payload and trailer, writes the start and echo. -/
def rtuPhaseOk (i : Instr) (ph : RtuPhase) : Bool :=
  match ph with
  | .start => true
  | .payload => i ∈ rtuReads
  | .trailer => i ∈ rtuReads
  | .echo => i ∈ rtuWrites

/-- A point the command has (R36), with what holds of the working values there: an accumulation still misses a byte, a pending
TCP request is 12 bytes and carries TID, a pending payload is not empty, the register of TCP.WR_MULTI is one of the n. -/
def PointOk (i : Instr) (pt : Point) (s : State) : Prop :=
  (i = .tcpWrMulti → s.work.i.toNat < s.latched.qty.toNat) ∧
  match pt with
  | .rtuTx _ _ => i ∈ rtuAll
  | .rtuT0 => i ∈ rtuAll
  | .rtuRx ph _ => i ∈ rtuAll ∧ rtuPhaseOk i ph = true ∧ s.work.rxbuf.length < rtuTarget ph s.work.bcnt
  | .rtuClk ph _ => i ∈ rtuAll ∧ rtuPhaseOk i ph = true ∧ s.work.rxbuf.length < rtuTarget ph s.work.bcnt
  | .tcp txn ph =>
    i ∈ tcpAll ∧ (txn = .preRead → i = .tcpWrCoil) ∧
    match ph with
    | .tx frame => frame.length = 12 ∧ headerTid frame = s.tid
    | .header => True
    | .payload => (i ∈ tcpReads ∨ txn = .preRead) ∧ s.work.bcnt ≠ 0
    | .rest => i ∈ tcpWrites ∧ txn = .main
  | .compute => i ∈ utils

/-- What holds of the running command (R36, R37, R70 to R74): CMD holds its word, the latched arguments equal the ARG registers,
the command is legal, and fsm is at a point it has. -/
def RunningOk (s : State) : Prop :=
  match s.fsm with
  | .idle => True
  | .run i pt =>
    s.cmd = encode i ∧ s.latched = s.args ∧ legal s.params.kind s.latched.qty i = true ∧ PointOk i pt s

/-- The invariant of the machine: the buffers are canonical and inside their capacity; BUSY exactly when fsm is not IDLE, and
never with DONE (R22, R36); the results keep their contract, OUT holds the BC bytes last written (R25), NDONE is at most
127 (R26); RXBUF is at most 260 bytes (R38); the running command is sound. -/
structure Sound (s : State) : Prop where
  wdata    : Memory.wf Config.wdataWords s.wdata = true
  ibuf     : Memory.wf Config.ibufBytes s.ibuf = true
  out      : Memory.wf Config.outBytes s.out = true
  busy     : s.status.busy = true ↔ s.fsm ≠ .idle
  excl     : ¬ (s.status.busy = true ∧ s.status.done = true)
  contract : ResultContract s.res
  outBytes : ∀ j, j < s.res.bc.toNat → (s.out.read j).isSome = true
  ndone    : s.res.ndone.toNat ≤ 127
  rxbuf    : s.work.rxbuf.length ≤ 260
  running  : RunningOk s

/-! ### What a command's behaviour may depend on (R42) -/

/-- The gathered bytes and the deadline are read again: the point is one of an RTU accumulation (R123). -/
def gathers : Point → Bool
  | .rtuRx _ _ => true
  | .rtuClk _ _ => true
  | .rtuTx _ _ => false
  | .rtuT0 => false
  | .tcp _ _ => false
  | .compute => false

/-- The declared byte count is read again: the point waits for a payload or for the trailer after it (R128, R129, R168). -/
def usesCount : Point → Bool
  | .rtuRx .payload _ => true
  | .rtuRx .trailer _ => true
  | .rtuClk .payload _ => true
  | .rtuClk .trailer _ => true
  | .tcp _ .payload => true
  | _ => false

/-- The working values that a command's later events read at a point. The others are written before they are read (R38 to
R40). -/
def liveWork (i : Instr) (pt : Point) (w : Work) : Work :=
  { Work.reset with
    rxbuf := if gathers pt then w.rxbuf else []
    t0    := if gathers pt then w.t0 else 0
    bcnt  := if usesCount pt then w.bcnt else 0
    i     := if i = .tcpWrMulti then w.i else 0 }

/-- A state without what no later command or event may depend on: the last results, OUT, and the working values and latched
arguments that are not live. -/
def forget (s : State) : State :=
  { s with
    status  := { s.status with done := false }
    cmd     := 0
    res     := Results.reset
    out     := []
    latched := if s.status.busy then s.latched else Args.reset
    fsm     := if s.status.busy then s.fsm else .idle
    work    :=
      if s.status.busy then
        match s.fsm with
        | .idle => Work.reset
        | .run i pt => liveWork i pt s.work
      else Work.reset }

/-! ### Runs, and scripts of an outside world that answers -/

/-- `k` steps, stopping at the first fault or refusal: `Host.Core.run` of this machine, over `State`. -/
def runSteps : Nat → State → Result
  | 0, s => .next s
  | k + 1, s =>
    match step s with
    | .next t => runSteps k t
    | .fault r => .fault r
    | .refused r => .refused r

/-- The answers to one RTU accumulation: short reads, each followed by a clock sample, then the read that completes it. -/
def accScript (frags : List (Nat × Clock)) (last : Nat) : List EnvInput :=
  frags.flatMap (fun p => [.rxDone p.1, .clock p.2]) ++ [.rxDone last]

/-- How many bytes an accumulation's reads return together. -/
def accBytes (frags : List (Nat × Clock)) (last : Nat) : Nat := (frags.map Prod.fst).sum + last

/-- Clock samples that never run backwards within the response and never exceed the budget (R123, R125, R303), after an elapsed
time of `e`. -/
def Paced (t0 : Clock) (e : Nat) : List (Nat × Clock) → Prop
  | [] => True
  | p :: r => e ≤ (p.2 - t0).toNat ∧ (p.2 - t0).toNat ≤ 350 ∧ Paced t0 (p.2 - t0).toNat r

/-- A well-formed RTU read response (R78). -/
def rtuResponse (unit fc bc : Byte) (d : List Byte) : List Byte :=
  unit :: fc :: bc :: d ++ le16 (frameCrc (unit :: fc :: bc :: d))

/-- A TCP write echo (R83): the id, five bytes nothing checks, the function, four bytes nothing checks. -/
def tcpEcho (tid : Word) (mid : List Byte) (fc : Byte) (tail : List Byte) : List Byte := be16 tid ++ mid ++ [fc] ++ tail

/-- The answers to one TCP write transaction that succeeds, its echo carrying the id and otherwise arbitrary bytes. -/
def echoScript (tid : Word) (junk : List Byte × List Byte) : List EnvInput :=
  [.txDone 12, .arrive (tcpEcho tid junk.1 0x06 junk.2), .rxDone 9, .rxDone 3]

/-- The answers to the transactions of TCP.WR_MULTI with ids from `tid` up, all successful. -/
def echoScripts (tid : Word) : List (List Byte × List Byte) → List EnvInput
  | [] => []
  | j :: r => echoScript tid j ++ echoScripts (tid + 1) r

/-- The answers to one write transaction of TCP.WR_MULTI with id `id` that does not succeed, each the first check of R268 that fails;
how many bytes of the request they write; and the RC and CAUSE of the failure. -/
inductive TxnFails (id : Word) : List EnvInput → Nat → Word → Byte → Prop
  | shortWrite (n : Nat) (hn : n < 12) : TxnFails id [.txDone n] n 0xFFFF 2
  | shortHeader (bs : List Byte) (n : Nat) (hn : n < 9) (hb : n ≤ bs.length) :
      TxnFails id [.txDone 12, .arrive bs, .rxDone n] 12 0xFFFF 8
  | tidMismatch (bs : List Byte) (hb : 9 ≤ bs.length) (hid : headerTid bs ≠ id) :
      TxnFails id [.txDone 12, .arrive bs, .rxDone 9] 12 0xFFFF 9
  | serverException (bs : List Byte) (hb : 9 ≤ bs.length) (hid : headerTid bs = id) (hf : byteAt bs 7 ≠ 0x06)
      (h7 : 128 ≤ (byteAt bs 7).toNat) :
      TxnFails id [.txDone 12, .arrive bs, .rxDone 9] 12 ((byteAt bs 8).zeroExtend 16) 10
  | funcMismatch (bs : List Byte) (hb : 9 ≤ bs.length) (hid : headerTid bs = id) (hf : byteAt bs 7 ≠ 0x06)
      (h7 : (byteAt bs 7).toNat < 128) :
      TxnFails id [.txDone 12, .arrive bs, .rxDone 9] 12 0xFFFF 4
  | shortRest (bs : List Byte) (n : Nat) (hn : n < 3) (hb : 9 + n ≤ bs.length) (hid : headerTid bs = id)
      (hf : byteAt bs 7 = 0x06) :
      TxnFails id [.txDone 12, .arrive bs, .rxDone 9, .rxDone n] 12 0xFFFF 8

/-- The requests of TCP.WR_MULTI for the words `ws`, with ids from `tid` and addresses from `a` up (R235). -/
def multiFrames (tid : Word) (unit : Byte) (a : Word) (swap : BitVec 1) : List Word → List (List Byte)
  | [] => []
  | w :: r => tcpFrame tid unit 0x06 a (encWord swap w) :: multiFrames (tid + 1) unit (a + 1) swap r

end Sys2Proof.Machine
end

