-- ==== Sys2Proof/Certificates/Slice0/Obligations.lean ====
section
/-! DEFINITION. The statements for the provers. Each is about every state, every operand and every answer of the outside world that
meets its hypotheses; the terms are those of Safety.lean. Where a statement says which value is OPEN or the model's own choice, its
docstring names the log entry. Every statement about `step` also takes the host's operations and the world's inputs from the model's
own lists, in the model's own order (log entries 1 and 13). -/

open Sys2Proof Sys2Proof.Machine

/-! ### Encoding (30_encoding.md) -/

/-- Decoding and encoding agree both ways (R70, R72): every command's word decodes to it, and a word that decodes to a command is
that command's word. -/
def Obligations.DecodeEncodeAgree : Prop :=
  (∀ i : Instr, decodeWord (encode i) = .ok i) ∧ ∀ (w : Word) (i : Instr), decodeWord w = .ok i → w = encode i

/-- The words of R72 and no others are commands, each the command its row names. -/
def Obligations.OnlySixteenWordsAreCommands : Prop :=
  ∀ (w : Word) (i : Instr), decode? w = some i ↔ (w, i) ∈ ([
    (0x0001, .rtuRdCoils), (0x0002, .rtuRdDiscrete), (0x0003, .rtuRdHolding), (0x0004, .rtuRdInput),
    (0x0005, .rtuWrCoil), (0x0006, .rtuWrReg), (0x0010, .rtuWrMulti),
    (0x4001, .tcpRdCoils), (0x4002, .tcpRdDiscrete), (0x4003, .tcpRdHolding), (0x4004, .tcpRdInput),
    (0x4005, .tcpWrCoil), (0x4006, .tcpWrReg), (0x4010, .tcpWrMulti),
    (0x8000, .utilCrc16), (0x8001, .utilSwap)] : List (Word × Instr))

/-- A word that is no command is rejected under the name of the first reason it has: CLASS 11, nonzero RSV, an unimplemented
function code (CLASS 00 and 01), an unknown utility selector (CLASS 10). R73 gives the cases; the names, and which of two reasons a
word with both gets (0xC103 is reserved class), are the model's choice (log entry 21). -/
def Obligations.RejectedWordsAreNamed : Prop :=
  ∀ w : Word,
    let cls := w.toNat / 16384
    let rsv := w.toNat / 256 % 64
    let fc := w.toNat % 256
    (decodeWord w = .bad .reservedClass ↔ cls = 3) ∧
    (decodeWord w = .bad .nonzeroRsv ↔ cls ≠ 3 ∧ rsv ≠ 0) ∧
    (decodeWord w = .bad .unknownFunction ↔ cls ≤ 1 ∧ rsv = 0 ∧ fc ∉ [1, 2, 3, 4, 5, 6, 16]) ∧
    (decodeWord w = .bad .unknownUtility ↔ cls = 2 ∧ rsv = 0 ∧ fc ∉ [0, 1])

/-- A few words of R72, and V80 to V86's illegal ones. -/
def Obligations.TableWordsDecode : Prop :=
  decodeWord 0x0001 = .ok .rtuRdCoils ∧ decodeWord 0x0010 = .ok .rtuWrMulti ∧ decodeWord 0x4005 = .ok .tcpWrCoil ∧
  decodeWord 0x8001 = .ok .utilSwap ∧ decodeWord 0x0007 = .bad .unknownFunction ∧
  decodeWord 0xC003 = .bad .reservedClass ∧ decodeWord 0x0103 = .bad .nonzeroRsv ∧ decodeWord 0x8002 = .bad .unknownUtility

/-! ### Reset and the step (44_master_api.md, 70_reset_and_hazards.md) -/

/-- What reset leaves, as the spec gives it (10_state.md section 7): every register zero, every buffer element unwritten, fsm
IDLE. The empty inbound queue is the model's choice (log entry 2). -/
def Obligations.ResetStateValues : Prop :=
  (∀ r : HostReg, readHostReg State.reset r = 0) ∧
  (∀ i, State.reset.wdata.read i = none ∧ State.reset.ibuf.read i = none ∧ State.reset.out.read i = none) ∧
  State.reset.fsm = .idle ∧ State.reset.transport.inQ = []

/-- The reset event, also in the middle of a command (R290, R291): every register zero, every buffer unwritten, fsm IDLE, with no
completion step; the parameters, the transport and the outside world as they were. -/
def Obligations.ResetEventAbandonsCommand : Prop :=
  ∀ (s : State) (rest : List HostOp), s.host = .reset :: rest →
    ∃ t, step s = .next t ∧ (∀ r : HostReg, readHostReg t r = 0) ∧
      (∀ i, t.wdata.read i = none ∧ t.ibuf.read i = none ∧ t.out.read i = none) ∧
      t.fsm = .idle ∧ t.status.busy = false ∧ t.params = s.params ∧ t.transport = s.transport ∧ t.env = s.env ∧ t.host = rest

/-- The first transaction id after reset is 0x0001 (R293), whatever the instance's other parameters, the arguments and the words in
WDATA, for TCP.WR_MULTI with a legal count and its first word written. That TID is incremented in the latching step already is the
model's reading of R11 and R36 (log entry 6). -/
def Obligations.FirstTransactionIdIsOne : Prop :=
  ∀ (i : Instr) (p : Params) (a : Args) (m : Memory 16), i ∈ tcpAll → p.kind = .tcp →
    (i = .tcpWrMulti → 1 ≤ a.qty.toNat ∧ a.qty.toNat ≤ 127 ∧ (m.read 0).isSome = true) →
    ∃ t txn frame, exec i { State.reset with params := p, args := a, wdata := m } = .next t ∧ t.tid = 0x0001 ∧
      t.fsm = .run i (.tcp txn (.tx frame)) ∧ frame.take 2 = [0x00, 0x01]

/-- A step runs the decoded command: a host write of a command's word to CMD with BUSY = 0 is exec of that command on the state
with the operation taken (R21, R220), and while a command runs, a turn the outside world does not use is exec of the running
command (R36). Whose turn it is, is the model's choice: that the host moves first and yields while it waits is log entry 13, that a
utility command's computation comes before any pending act of the world is log entry 7. -/
def Obligations.StepRunsDecodedCommand : Prop :=
  (∀ (s : State) (w : Word) (i : Instr) (rest : List HostOp),
    s.host = .setReg 0x00 w :: rest → s.status.busy = false → decodeWord w = .ok i →
    step s = exec i { s with host := rest }) ∧
  (∀ (s : State) (i : Instr) (pt : Point),
    HostYields s → Runs i pt s →
    (pt = .compute ∨ worldMoves s.env = false) → step s = exec i s)

/-- Which commands are legal on which engine with which quantity (R71, R74). -/
def Obligations.LegalityOfCommands : Prop :=
  ∀ (k : TransportKind) (q : Word) (i : Instr), legal k q i = true ↔
    (i ∈ rtuAll → k = .rtu) ∧ (i ∈ tcpAll → k = .tcp) ∧
    (i = .rtuWrMulti ∨ i = .tcpWrMulti → 1 ≤ q.toNat ∧ q.toNat ≤ 127) ∧
    (i = .utilCrc16 → q.toNat ≤ 256) ∧ (i = .utilSwap → q.toNat ≤ 127)

/-- An illegal command ends at once at its latching (R73): a word written to CMD with BUSY = 0 that is no command's word, or whose
command is not legal on this engine with these arguments, completes with RC -1, CAUSE ILLEGAL_CMD, BC 0 and NDONE 0, with no
transport call; TID, CRCR and OUT are unchanged. -/
def Obligations.IllegalCommandsEndAtLatching : Prop :=
  ∀ (s : State) (w : Word) (rest : List HostOp), s.host = .setReg 0x00 w :: rest → s.status.busy = false →
    (decode? w = none ∨ ∃ i, decode? w = some i ∧ legal s.params.kind s.args.qty i = false) →
    ∃ t, step s = .next t ∧ Ended s t 0xFFFF 1 [] 0 ∧ t.cmd = w ∧ t.latched = s.args ∧
      HostSideKept { s with host := rest } t ∧ t.tid = s.tid ∧ t.res.crcr = s.res.crcr ∧ t.out = s.out ∧
      t.transport = s.transport ∧ t.env = s.env

/-- The latching of a legal command, whichever it is (R220): CMD takes its word, the latched arguments the ARG registers, BUSY is 1 and
DONE 0, and fsm stands at a point of that command; no result, no OUT byte, no other host state changes and no call is made. -/
def Obligations.LatchingOnlyStartsTheCommand : Prop :=
  ∀ (i : Instr) (s t : State), s.status.busy = false → legal s.params.kind s.args.qty i = true → exec i s = .next t →
    t.cmd = encode i ∧ t.latched = s.args ∧ t.status = { busy := true, done := false } ∧ (∃ pt, t.fsm = .run i pt) ∧
    HostSideKept s t ∧ t.res = s.res ∧ t.out = s.out ∧ t.transport = s.transport ∧ t.env = s.env

/-! ### The host interface (10_state.md) -/

/-- While BUSY = 1 every host write is ignored (R44): to any register, to WDATA, to IBUF, to OUT. -/
def Obligations.HostWritesIgnoredWhileBusy : Prop :=
  ∀ (s : State) (op : HostOp) (rest : List HostOp), s.host = op :: rest → s.status.busy = true →
    (∃ k v, op = .setReg k v ∧ k ≤ 0x0B) ∨ (∃ k v, op = .setWdata k v ∧ k < 127) ∨ (∃ k b, op = .setIbuf k b ∧ k < 256) ∨
      (∃ k b, op = .setOut k b ∧ k < 255) →
    step s = .next { s with host := rest }

/-- Host writes with BUSY = 0 (R22 to R35): the ARG registers take the bits they have, WDATA and IBUF the element; a write of a
read-only register or of an OUT byte is ignored. -/
def Obligations.HostWritesWhileIdle : Prop :=
  ∀ (s : State) (rest : List HostOp) (v : Word) (b : Byte) (k : Nat), s.status.busy = false →
    (s.host = .setReg 0x08 v :: rest →
      step s = .next { s with host := rest, args := { s.args with unit := BitVec.ofNat 8 v.toNat } }) ∧
    (s.host = .setReg 0x09 v :: rest → step s = .next { s with host := rest, args := { s.args with start := v } }) ∧
    (s.host = .setReg 0x0A v :: rest → step s = .next { s with host := rest, args := { s.args with qty := v } }) ∧
    (s.host = .setReg 0x0B v :: rest →
      step s = .next { s with host := rest, args := { s.args with swap := BitVec.ofNat 1 v.toNat } }) ∧
    (s.host = .setReg k v :: rest → 1 ≤ k ∧ k ≤ 7 → step s = .next { s with host := rest }) ∧
    (s.host = .setWdata k v :: rest → k < 127 →
      ∃ m, step s = .next { s with host := rest, wdata := m } ∧ ∀ j, m.read j = if j = k then some v else s.wdata.read j) ∧
    (s.host = .setIbuf k b :: rest → k < 256 →
      ∃ m, step s = .next { s with host := rest, ibuf := m } ∧ ∀ j, m.read j = if j = k then some b else s.ibuf.read j) ∧
    (s.host = .setOut k b :: rest → k < 255 → step s = .next { s with host := rest })

/-- A host read changes nothing (R57): of a register, or of an element something has written. -/
def Obligations.HostReadsHaveNoEffect : Prop :=
  ∀ (s : State) (op : HostOp) (rest : List HostOp), s.host = op :: rest →
    (∃ k, op = .getReg k ∧ k ≤ 0x0B) ∨
    (∃ k, op = .getWdata k ∧ k < 127 ∧ (s.wdata.read k).isSome = true) ∨
    (∃ k, op = .getIbuf k ∧ k < 256 ∧ (s.ibuf.read k).isSome = true) ∨
    (∃ k, op = .getOut k ∧ k < 255 ∧ (s.out.read k).isSome = true) ∨
    (∃ k, op = .getOutw k ∧ k ≤ 126 ∧ (s.out.read (2 * k)).isSome = true ∧ (s.out.read (2 * k + 1)).isSome = true) →
    step s = .next { s with host := rest }

/-- What the host reads (R21 to R32): STATUS has BUSY in bit 0, DONE in bit 1 and zeros above (R22); the narrow registers read zero
above their width; OUTW[i] is the big-endian word of two OUT bytes (R53). -/
def Obligations.HostReadValues : Prop :=
  ∀ s : State,
    (readHostReg s .status).toNat = (if s.status.busy then 1 else 0) + (if s.status.done then 2 else 0) ∧
    readHostReg s .cmd = s.cmd ∧ readHostReg s .rc = s.res.rc ∧ readHostReg s .tid = s.tid ∧
    readHostReg s .crcr = s.res.crcr ∧ readHostReg s .argStart = s.args.start ∧ readHostReg s .argQty = s.args.qty ∧
    (readHostReg s .cause).toNat = s.res.cause.toNat ∧ (readHostReg s .bc).toNat = s.res.bc.toNat ∧
    (readHostReg s .ndone).toNat = s.res.ndone.toNat ∧ (readHostReg s .argUnit).toNat = s.args.unit.toNat ∧
    (readHostReg s .argFlags).toNat = s.args.swap.toNat ∧
    ∀ (k : Nat) (h l : Byte), s.out.read (2 * k) = some h → s.out.read (2 * k + 1) = some l →
      ∃ w, outWord s k = .ok w ∧ w.toNat = 256 * h.toNat + l.toNat

/-- Reading an unwritten element is a fault (R41): a host read of OUT, and a command's read of WDATA or IBUF, which names the
first unwritten element it needs. That a host read of WDATA or IBUF faults too, and one of OUTW at the first unwritten of its two
bytes, is the model's reading (log entry 14). So is the step in which a command faults: RTU.WR_MULTI and TCP.WR_MULTI in the
latching step, TCP.WR_MULTI for register I + 1 in the step that ends register I's transaction (log entry 6); the utility commands
at their separate computation (log entry 7). -/
def Obligations.UnwrittenElementsFault : Prop :=
  (∀ (s : State) (k : Nat) (rest : List HostOp),
    (s.host = .getOut k :: rest → k < 255 → s.out.read k = none → step s = .fault (.unwrittenOut k)) ∧
    (s.host = .getWdata k :: rest → k < 127 → s.wdata.read k = none → step s = .fault (.unwrittenWdata k)) ∧
    (s.host = .getIbuf k :: rest → k < 256 → s.ibuf.read k = none → step s = .fault (.unwrittenIbuf k)) ∧
    (s.host = .getOutw k :: rest → k ≤ 126 → s.out.read (2 * k) = none → step s = .fault (.unwrittenOut (2 * k))) ∧
    (s.host = .getOutw k :: rest → k ≤ 126 → s.out.read (2 * k) ≠ none → s.out.read (2 * k + 1) = none →
      step s = .fault (.unwrittenOut (2 * k + 1)))) ∧
  (∀ (s : State) (k : Nat), s.status.busy = false → s.params.kind = .rtu → s.args.qty.toNat ≤ 127 → k < s.args.qty.toNat →
    s.wdata.read k = none → (∀ j, j < k → s.wdata.read j ≠ none) → exec .rtuWrMulti s = .fault (.unwrittenWdata k)) ∧
  (∀ (s : State), s.status.busy = false → s.params.kind = .tcp → 1 ≤ s.args.qty.toNat → s.args.qty.toNat ≤ 127 →
    s.wdata.read 0 = none → exec .tcpWrMulti s = .fault (.unwrittenWdata 0)) ∧
  (∀ (s : State) (bs left : List Byte) (env' : List EnvInput), Runs .tcpWrMulti (.tcp .main .rest) s →
    ReadReturns bs env' left s → bs.length = 3 → s.latched.qty.toNat ≤ 127 → s.work.i.toNat + 1 < s.latched.qty.toNat →
    s.wdata.read (s.work.i.toNat + 1) = none → exec .tcpWrMulti s = .fault (.unwrittenWdata (s.work.i.toNat + 1))) ∧
  (∀ (s : State) (k : Nat), Runs .utilCrc16 .compute s → k < s.latched.qty.toNat →
    s.ibuf.read k = none → (∀ j, j < k → s.ibuf.read j ≠ none) → exec .utilCrc16 s = .fault (.unwrittenIbuf k)) ∧
  (∀ (s : State) (k : Nat), Runs .utilSwap .compute s → k < s.latched.qty.toNat →
    s.wdata.read k = none → (∀ j, j < k → s.wdata.read j ≠ none) → exec .utilSwap s = .fault (.unwrittenWdata k))

/-! ### The CRC, the swapper, staleness, the function byte -/

/-- Chaining (R103, which the spec derives from R100): the CRC of a concatenation is the CRC of its second part, seeded with the two
bytes of the first's CRC. -/
def Obligations.CrcChaining : Prop :=
  ∀ (a b : List Byte) (sh sl : Byte), crc16 (a ++ b) sh sl = crc16 b (hi (crc16 a sh sl)) (lo (crc16 a sh sl))

/-- The residue (R107, which the spec takes from general knowledge): a byte string followed by its CRC, low byte then high byte, has
CRC 0. -/
def Obligations.CrcResidueIsZero : Prop :=
  ∀ s : List Byte, crc16 (s ++ [lo (crc16 s 0xFF 0xFF), hi (crc16 s 0xFF 0xFF)]) 0xFF 0xFF = 0x0000

/-- `swap16` exchanges the two bytes, and twice it is the identity (R200, whose last clause the spec derives from the first). -/
def Obligations.SwapExchangesBytes : Prop :=
  ∀ w : Word, (swap16 w).toNat = 256 * (w.toNat % 256) + w.toNat / 256 ∧ swap16 (swap16 w) = w

/-- The register codec byte by byte, and reading back (R201, R202). A payload keeps its length; for fc 0x03 and 0x04 with SWAP 1 the
two bytes of each whole pair change places and an odd last byte stays; for every other function (coils and discrete inputs, fc 0x01
and 0x02, among them) and for SWAP 0 every byte stays. And reading back with the same SWAP setting returns the host's words, which
the spec derives: the payload sent for `ws`, read as holding or input registers, gives OUTW[i] = WDATA[i]. -/
def Obligations.CodecReadsBackWhatItWrites : Prop :=
  (∀ (fc : Byte) (swap : BitVec 1) (d : List Byte),
    (regCodecRead fc swap d).length = d.length ∧
    (∀ k, (fc = 0x03 ∨ fc = 0x04) → swap = 1 →
      (2 * k + 1 < d.length → (regCodecRead fc swap d)[2 * k]? = d[2 * k + 1]? ∧ (regCodecRead fc swap d)[2 * k + 1]? = d[2 * k]?) ∧
      (2 * k + 1 = d.length → (regCodecRead fc swap d)[2 * k]? = d[2 * k]?)) ∧
    (fc ≠ 0x03 ∧ fc ≠ 0x04 ∨ swap = 0 → regCodecRead fc swap d = d)) ∧
  ∀ (fc : Byte) (swap : BitVec 1) (ws : List Word), fc = 0x03 ∨ fc = 0x04 →
    (regCodecRead fc swap (rtuMultiPayload swap ws)).length = 2 * ws.length ∧
    ∀ k (h : k < ws.length),
      256 * (byteAt (regCodecRead fc swap (rtuMultiPayload swap ws)) (2 * k)).toNat +
        (byteAt (regCodecRead fc swap (rtuMultiPayload swap ws)) (2 * k + 1)).toNat = ws[k].toNat

/-- "Older than the most recently sent id" in serial-number arithmetic (R166): the distance (t - e) mod 2^16 is 1 to 0x7FFF; so an
id is never older than itself, and of two different ids at a distance other than 0x8000 exactly one is older. -/
def Obligations.OlderIsSerialDistance : Prop :=
  ∀ e t : Word,
    (older e t = true ↔ 1 ≤ (t.toNat + 65536 - e.toNat) % 65536 ∧ (t.toNat + 65536 - e.toNat) % 65536 ≤ 0x7FFF) ∧
    older t t = false ∧
    (e ≠ t → (t.toNat + 65536 - e.toNat) % 65536 ≠ 0x8000 → older e t = !(older t e))

/-- The response function decode (R85). -/
def Obligations.AnswerDecoding : Prop :=
  ∀ fc f : Byte, decodeAnswer fc f =
    if f.toNat = fc.toNat then .normal else if 128 ≤ f.toNat then .serverException else .mismatch

/-! ### Latching (R220): the first point of each command -/

/-- Latching a legal read or single write on an RTU engine: the fixed request is built from the arguments, with its CRC low byte
first, and its write call is next (R76, R120, R220). What CRCW holds then is left open (log entry 9). -/
def Obligations.RtuFixedRequestLatched : Prop :=
  ∀ (i : Instr) (s : State), i ∈ rtuFixed → s.status.busy = false → s.params.kind = .rtu →
    let body := [s.args.unit, i.fields.fc, hi s.args.start, lo s.args.start, hi s.args.qty, lo s.args.qty]
    ∃ c, exec i s = .next { s with
      cmd := encode i, latched := s.args, status := { busy := true, done := false }
      work := { s.work with crcw := c }
      fsm := .run i (.rtuTx (body ++ [lo (frameCrc body), hi (frameCrc body)]) []) }

/-- Latching RTU.WR_MULTI: three chunks, header, payload and trailer, each word high byte first after the swap L_SWAP asks for, the
trailer the CRC of header and payload together (R77, R121, R122, R202). What CRCW holds then is left open (log entry 9). -/
def Obligations.RtuMultiRequestLatched : Prop :=
  ∀ (s : State) (ws : List Word), s.status.busy = false → s.params.kind = .rtu →
    ws.length = s.args.qty.toNat → 1 ≤ ws.length → ws.length ≤ 127 → Holds s.wdata ws →
    let hdr := [s.args.unit, 0x10, hi s.args.start, lo s.args.start, hi s.args.qty, lo s.args.qty,
      BitVec.ofNat 8 (2 * ws.length)]
    let pay := ws.flatMap fun w => if s.args.swap = 1 then [lo w, hi w] else [hi w, lo w]
    let c := frameCrc (hdr ++ pay)
    ∃ r, exec .rtuWrMulti s = .next { s with
      cmd := 0x0010, latched := s.args, status := { busy := true, done := false }
      work := { s.work with crcw := r }
      fsm := .run .rtuWrMulti (.rtuTx hdr [pay, [lo c, hi c]]) }

/-- Latching a read command or TCP.WR_REG on a TCP engine: TID is incremented, and the 12-byte request carrying the new id is
next (R81, R160, R161, R162). That the increment is in the latching step is the model's reading of R11 and R36 (log entry 6). -/
def Obligations.TcpRequestLatched : Prop :=
  ∀ (i : Instr) (s : State), i ∈ tcpReads ++ [.tcpWrReg] → s.status.busy = false → s.params.kind = .tcp →
    let id := s.tid + 1
    exec i s = .next { s with
      cmd := encode i, latched := s.args, status := { busy := true, done := false }, tid := id
      fsm := .run i (.tcp .main (.tx [hi id, lo id, 0x00, 0x00, 0x00, 0x06, s.args.unit, i.fields.fc,
        hi s.args.start, lo s.args.start, hi s.args.qty, lo s.args.qty])) }

/-- Latching TCP.WR_COIL: the pre-read of one coil if TCP_COIL_SKIP holds and the value is 0xFF00 or 0x0000, else the write
(R233). That the increment of TID is in the latching step is the model's reading of R11 and R36 (log entry 6). -/
def Obligations.TcpCoilRequestLatched : Prop :=
  ∀ s : State, s.status.busy = false → s.params.kind = .tcp →
    let id := s.tid + 1
    let pre := s.params.coilSkip = true ∧ (s.args.qty = 0xFF00 ∨ s.args.qty = 0x0000)
    let frame (fc : Byte) (b : Word) := [hi id, lo id, 0x00, 0x00, 0x00, 0x06, s.args.unit, fc,
      hi s.args.start, lo s.args.start, hi b, lo b]
    exec .tcpWrCoil s = .next { s with
      cmd := 0x4005, latched := s.args, status := { busy := true, done := false }, tid := id
      work := { s.work with skip := 0 }
      fsm := .run .tcpWrCoil (if pre then .tcp .preRead (.tx (frame 0x01 0x0001)) else .tcp .main (.tx (frame 0x05 s.args.qty))) }

/-- Latching TCP.WR_MULTI: register 0's single-register request (R235). That the increment of TID is in the latching step is the
model's reading of R11 and R36 (log entry 6). -/
def Obligations.TcpMultiRequestLatched : Prop :=
  ∀ (s : State) (w : Word), s.status.busy = false → s.params.kind = .tcp → 1 ≤ s.args.qty.toNat → s.args.qty.toNat ≤ 127 →
    s.wdata.read 0 = some w →
    let id := s.tid + 1
    let v := if s.args.swap = 1 then [lo w, hi w] else [hi w, lo w]
    exec .tcpWrMulti s = .next { s with
      cmd := 0x4010, latched := s.args, status := { busy := true, done := false }, tid := id
      work := { s.work with i := 0 }
      fsm := .run .tcpWrMulti (.tcp .main (.tx ([hi id, lo id, 0x00, 0x00, 0x00, 0x06, s.args.unit, 0x06,
        hi s.args.start, lo s.args.start] ++ v))) }

/-- Latching a utility command on either kind of engine: BUSY, and its computation is next; no call is made (R105, R205, R220). The
point itself is the model's (log entry 7). -/
def Obligations.UtilityCommandLatched : Prop :=
  ∀ (i : Instr) (s : State), i ∈ utils → s.status.busy = false → s.args.qty.toNat ≤ (if i = .utilCrc16 then 256 else 127) →
    exec i s = .next { s with
      cmd := encode i, latched := s.args, status := { busy := true, done := false }, fsm := .run i .compute }

/-! ### RTU events (41_rtu_codec.md) -/

/-- The write call of a chunk returns (R122): short, and the command fails with SHORT_WRITE; whole, and the next chunk's call or,
after the last, the sample that starts the deadline follows. -/
def Obligations.RtuWriteCallOutcomes : Prop :=
  ∀ (i : Instr) (s : State) (chunk : List Byte) (more : List (List Byte)) (n : Nat) (env' : List EnvInput),
    i ∈ rtuAll → Runs i (.rtuTx chunk more) s → WriteReturns n env' s →
    let tr := afterWrite s chunk (some s.params.rtuWriteTimeout) n
    (n < chunk.length → ∃ t, exec i s = .next t ∧ EndsCommand s t tr env' 0xFFFF 2 [] 0) ∧
    (n = chunk.length → exec i s = .next { s with
      transport := tr, env := env'
      fsm := .run i (match more with | [] => .rtuT0 | c :: cs => .rtuTx c cs) })

/-- The sample after the last write starts the one deadline of the response, and the first three bytes are read next (R124,
R126). -/
def Obligations.RtuDeadlineStarts : Prop :=
  ∀ (i : Instr) (s : State) (v : Clock) (env' : List EnvInput), i ∈ rtuAll → Runs i .rtuT0 s → ClockReads v env' s →
    exec i s = .next { s with
      transport := afterClock s v, env := env', work := { s.work with t0 := v, rxbuf := [] }
      fsm := .run i (.rtuRx .start v) }

/-- A read that leaves an accumulation incomplete adds its bytes, asked for exactly those missing, and the clock is sampled
next (R123). -/
def Obligations.RtuIncompleteReadSamplesClock : Prop :=
  ∀ (i : Instr) (s : State) (ph : RtuPhase) (last : Clock) (bs left : List Byte) (env' : List EnvInput),
    i ∈ rtuAll → Runs i (.rtuRx ph last) s → ReadReturns bs env' left s →
    s.work.rxbuf.length + bs.length < rtuTarget ph s.work.bcnt →
    exec i s = .next { s with
      transport := afterRead s (rtuTarget ph s.work.bcnt - s.work.rxbuf.length) (some s.params.rtuReadTimeout) bs left
      env := env', work := { s.work with rxbuf := s.work.rxbuf ++ bs }, fsm := .run i (.rtuClk ph last) }

/-- The deadline is strict (R123, R125): an elapsed time (now - T0) mod 2^32 over 350 ends the command with TIMEOUT; 350 or less
reads on. The sample does not run backwards within the response (R303). -/
def Obligations.RtuDeadlineIsStrict : Prop :=
  ∀ (i : Instr) (s : State) (ph : RtuPhase) (last v : Clock) (env' : List EnvInput),
    i ∈ rtuAll → Runs i (.rtuClk ph last) s → ClockReads v env' s →
    (last - s.work.t0).toNat ≤ (v - s.work.t0).toNat →
    (350 < (v - s.work.t0).toNat → ∃ t, exec i s = .next t ∧ EndsCommand s t (afterClock s v) env' 0xFFFF 5 [] 0) ∧
    ((v - s.work.t0).toNat ≤ 350 →
      exec i s = .next { s with transport := afterClock s v, env := env', fsm := .run i (.rtuRx ph v) })

/-- The checks on the three bytes `a f b` that start a response, in their order (R126, R127, R132): the address, then the function
byte; a server exception ends with its code and reads nothing more; a normal read goes to its payload, or to its trailer if the
count is 0, and a normal write to the echo. -/
def Obligations.RtuStartChecks : Prop :=
  ∀ (i : Instr) (s : State) (last : Clock) (bs left : List Byte) (env' : List EnvInput) (a f b : Byte),
    i ∈ rtuAll → Runs i (.rtuRx .start last) s → ReadReturns bs env' left s → s.work.rxbuf ++ bs = [a, f, b] →
    let tr := afterRead s bs.length (some s.params.rtuReadTimeout) bs left
    (a ≠ s.latched.unit → ∃ t, exec i s = .next t ∧ EndsCommand s t tr env' 0xFFFF 3 [] 0) ∧
    (a = s.latched.unit → f ≠ i.fields.fc → 128 ≤ f.toNat →
      ∃ t, exec i s = .next t ∧ EndsCommand s t tr env' (b.zeroExtend 16) 10 [] 0) ∧
    (a = s.latched.unit → f ≠ i.fields.fc → f.toNat < 128 →
      ∃ t, exec i s = .next t ∧ EndsCommand s t tr env' 0xFFFF 4 [] 0) ∧
    (a = s.latched.unit → f = i.fields.fc → i ∈ rtuReads → exec i s = .next { s with
      transport := tr, env := env', work := { s.work with rxbuf := [a, f, b], bcnt := b }
      fsm := .run i (.rtuRx (if b = 0 then .trailer else .payload) last) }) ∧
    (a = s.latched.unit → f = i.fields.fc → i ∈ rtuWrites → exec i s = .next { s with
      transport := tr, env := env', work := { s.work with rxbuf := [a, f, b] }
      fsm := .run i (.rtuRx .echo last) })

/-- The whole payload of a read response leads to the read of the trailer (R128, R129). -/
def Obligations.RtuPayloadThenTrailer : Prop :=
  ∀ (i : Instr) (s : State) (last : Clock) (bs left : List Byte) (env' : List EnvInput),
    i ∈ rtuReads → Runs i (.rtuRx .payload last) s → ReadReturns bs env' left s →
    s.work.rxbuf.length + bs.length = 3 + s.work.bcnt.toNat →
    exec i s = .next { s with
      transport := afterRead s bs.length (some s.params.rtuReadTimeout) bs left, env := env'
      work := { s.work with rxbuf := s.work.rxbuf ++ bs }, fsm := .run i (.rtuRx .trailer last) }

/-- The end of a read command (R130, R131, R222 to R225): with the trailer `c0 c1`, low byte first, equal to the CRC of the start
`p` and the payload `d`, it succeeds, and OUT takes the payload, each pair swapped for fc 0x03 and 0x04 with L_SWAP; otherwise it
fails with CRC_MISMATCH, and no OUT byte changes. -/
def Obligations.RtuReadCompletes : Prop :=
  ∀ (i : Instr) (s : State) (last : Clock) (bs left p d : List Byte) (env' : List EnvInput) (c0 c1 : Byte),
    i ∈ rtuReads → Runs i (.rtuRx .trailer last) s → ReadReturns bs env' left s →
    s.work.rxbuf ++ bs = p ++ d ++ [c0, c1] → p.length = 3 → d.length = s.work.bcnt.toNat →
    let tr := afterRead s bs.length (some s.params.rtuReadTimeout) bs left
    (256 * c1.toNat + c0.toNat = (crc16 (p ++ d) 0xFF 0xFF).toNat →
      ∃ t, exec i s = .next t ∧ EndsCommand s t tr env' 0 0 (regCodecRead i.fields.fc s.latched.swap d) 0) ∧
    (256 * c1.toNat + c0.toNat ≠ (crc16 (p ++ d) 0xFF 0xFF).toNat →
      ∃ t, exec i s = .next t ∧ EndsCommand s t tr env' 0xFFFF 6 [] 0)

/-- The end of a write command (R133, R134, R226 to R228): an echoed field that differs from the request's gives ECHO_MISMATCH,
whatever the CRC; then a wrong trailer gives CRC_MISMATCH; otherwise it succeeds, with NDONE the count of RTU.WR_MULTI. -/
def Obligations.RtuWriteCompletes : Prop :=
  ∀ (i : Instr) (s : State) (last : Clock) (bs left : List Byte) (env' : List EnvInput) (a f x1 x0 y1 y0 c0 c1 : Byte),
    i ∈ rtuWrites → Runs i (.rtuRx .echo last) s → ReadReturns bs env' left s →
    s.work.rxbuf ++ bs = [a, f, x1, x0, y1, y0, c0, c1] →
    let tr := afterRead s bs.length (some s.params.rtuReadTimeout) bs left
    let echoed := 256 * x1.toNat + x0.toNat = s.latched.start.toNat ∧ 256 * y1.toNat + y0.toNat = s.latched.qty.toNat
    let crcOk := 256 * c1.toNat + c0.toNat = (crc16 [a, f, x1, x0, y1, y0] 0xFF 0xFF).toNat
    (¬ echoed → ∃ t, exec i s = .next t ∧ EndsCommand s t tr env' 0xFFFF 7 [] 0) ∧
    (echoed → ¬ crcOk → ∃ t, exec i s = .next t ∧ EndsCommand s t tr env' 0xFFFF 6 [] 0) ∧
    (echoed → crcOk → ∃ t, exec i s = .next t ∧
      EndsCommand s t tr env' 0 0 [] (if i = .rtuWrMulti then lo s.latched.qty else 0))

/-! ### TCP events (42_tcp_codec.md) -/

/-- The write call of a request returns (R162): whole, and the header is read next; short, and the command fails with SHORT_WRITE
(NDONE the registers done before, for TCP.WR_MULTI), with no zero-fill (the model's reading for a read command, log entry 8). The
pre-read of TCP.WR_COIL is in `TcpPreReadOutcomes`. -/
def Obligations.TcpWriteCallOutcomes : Prop :=
  ∀ (i : Instr) (s : State) (frame : List Byte) (n : Nat) (env' : List EnvInput),
    i ∈ tcpAll → Runs i (.tcp .main (.tx frame)) s → WriteReturns n env' s →
    (n < frame.length → ∃ t, exec i s = .next t ∧
      EndsCommand s t (afterWrite s frame none n) env' 0xFFFF 2 [] (if i = .tcpWrMulti then s.work.i else 0)) ∧
    (n = frame.length → exec i s = .next { s with
      transport := afterWrite s frame none n, env := env', fsm := .run i (.tcp .main .header) })

/-- The header read of a TCP read command (R164 to R169): short, SHORT_READ with nothing zero-filled; the id just sent, then the
function byte decides between payload, success with no payload, server exception and FUNC_MISMATCH; an older id is discarded and a
header read again; any other id is TID_MISMATCH. The two mismatches zero-fill OUT over the header's last byte. What RXBUF holds on TCP
is left open (log entry 15). -/
def Obligations.TcpReadHeaderOutcomes : Prop :=
  ∀ (i : Instr) (s : State) (bs left : List Byte) (env' : List EnvInput),
    i ∈ tcpReads → Runs i (.tcp .main .header) s → ReadReturns bs env' left s →
    let tr := afterRead s 9 none bs left
    (bs.length < 9 → ∃ t, exec i s = .next t ∧ EndsCommand s t tr env' 0xFFFF 8 [] 0) ∧
    ∀ e1 e0 h2 h3 h4 h5 h6 f b : Byte, bs = [e1, e0, h2, h3, h4, h5, h6, f, b] →
      let e := 256 * e1.toNat + e0.toNat
      let behind := (s.tid.toNat + 65536 - e) % 65536
      (e = s.tid.toNat → f = i.fields.fc → b ≠ 0 → ∃ r, exec i s = .next { s with
        transport := tr, env := env', work := { s.work with rxbuf := r, bcnt := b }
        fsm := .run i (.tcp .main .payload) }) ∧
      (e = s.tid.toNat → f = i.fields.fc → b = 0 → ∃ t, exec i s = .next t ∧ EndsCommand s t tr env' 0 0 [] 0) ∧
      (e = s.tid.toNat → f ≠ i.fields.fc → 128 ≤ f.toNat →
        ∃ t, exec i s = .next t ∧ EndsCommand s t tr env' (b.zeroExtend 16) 10 [] 0) ∧
      (e = s.tid.toNat → f ≠ i.fields.fc → f.toNat < 128 →
        ∃ t, exec i s = .next t ∧ EndsCommand s t tr env' 0xFFFF 4 (List.replicate b.toNat 0) 0) ∧
      (1 ≤ behind → behind ≤ 0x7FFF → ∃ r, exec i s = .next { s with
        transport := tr, env := env', work := { s.work with rxbuf := r } }) ∧
      (0x8000 ≤ behind →
        ∃ t, exec i s = .next t ∧ EndsCommand s t tr env' 0xFFFF 9 (List.replicate b.toNat 0) 0)

/-- The payload read of a TCP read command (R163, R168, R169, R229 to R232): the whole count succeeds and OUT takes it through the
register codec; a short read is SHORT_READ and zero-fills OUT over the declared count. -/
def Obligations.TcpReadPayloadOutcomes : Prop :=
  ∀ (i : Instr) (s : State) (bs left : List Byte) (env' : List EnvInput),
    i ∈ tcpReads → Runs i (.tcp .main .payload) s → ReadReturns bs env' left s →
    let tr := afterRead s s.work.bcnt.toNat none bs left
    (bs.length = s.work.bcnt.toNat →
      ∃ t, exec i s = .next t ∧ EndsCommand s t tr env' 0 0 (regCodecRead i.fields.fc s.latched.swap bs) 0) ∧
    (bs.length < s.work.bcnt.toNat →
      ∃ t, exec i s = .next t ∧ EndsCommand s t tr env' 0xFFFF 8 (List.replicate s.work.bcnt.toNat 0) 0)

/-- The header read of a TCP write transaction (R170, R171): short, SHORT_READ; any id but the one just sent, TID_MISMATCH, even an
older one; then the function byte; a normal answer leads to the last three bytes. OUT never changes. What RXBUF holds on TCP is
left open (log entry 15). -/
def Obligations.TcpWriteHeaderOutcomes : Prop :=
  ∀ (i : Instr) (s : State) (bs left : List Byte) (env' : List EnvInput),
    i ∈ tcpWrites → Runs i (.tcp .main .header) s → ReadReturns bs env' left s →
    let tr := afterRead s 9 none bs left
    let done := if i = .tcpWrMulti then s.work.i else 0
    (bs.length < 9 → ∃ t, exec i s = .next t ∧ EndsCommand s t tr env' 0xFFFF 8 [] done) ∧
    ∀ e1 e0 h2 h3 h4 h5 h6 f b : Byte, bs = [e1, e0, h2, h3, h4, h5, h6, f, b] →
      let e := 256 * e1.toNat + e0.toNat
      (e ≠ s.tid.toNat → ∃ t, exec i s = .next t ∧ EndsCommand s t tr env' 0xFFFF 9 [] done) ∧
      (e = s.tid.toNat → f ≠ wireFc i → 128 ≤ f.toNat →
        ∃ t, exec i s = .next t ∧ EndsCommand s t tr env' (b.zeroExtend 16) 10 [] done) ∧
      (e = s.tid.toNat → f ≠ wireFc i → f.toNat < 128 →
        ∃ t, exec i s = .next t ∧ EndsCommand s t tr env' 0xFFFF 4 [] done) ∧
      (e = s.tid.toNat → f = wireFc i → ∃ r, exec i s = .next { s with
        transport := tr, env := env', work := { s.work with rxbuf := r }, fsm := .run i (.tcp .main .rest) })

/-- The end of TCP.WR_REG and of TCP.WR_COIL's write (R170, R172, R233, R234): any three further bytes succeed, fewer are
SHORT_READ. -/
def Obligations.TcpSingleWriteCompletes : Prop :=
  ∀ (i : Instr) (s : State) (bs left : List Byte) (env' : List EnvInput),
    i ∈ [Instr.tcpWrReg, Instr.tcpWrCoil] → Runs i (.tcp .main .rest) s → ReadReturns bs env' left s →
    let tr := afterRead s 3 none bs left
    (bs.length = 3 → ∃ t, exec i s = .next t ∧ EndsCommand s t tr env' 0 0 [] 0) ∧
    (bs.length < 3 → ∃ t, exec i s = .next t ∧ EndsCommand s t tr env' 0xFFFF 8 [] 0)

/-- TCP.WR_COIL's pre-read (R164 to R168, R233, R270). It runs as a read of fc 0x01: its request leads to the header, an older id to
another header, a normal answer with a count to the payload. A payload of one byte or more, delivered whole, whose first byte's bit 0
is the wanted state, ends the command with success and no write. That the step which ends the pre-read already increments TID and
builds the write request is the model's reading of R11 and R36 (log entry 6). Every other end (another bit, an empty or short payload, a short
header or request, a mismatch, a server exception) leads to the write request with the next id, and to no RC, CAUSE or OUT byte. -/
def Obligations.TcpPreReadOutcomes : Prop :=
  ∀ (s : State) (bs left : List Byte) (env' : List EnvInput) (frame : List Byte) (n : Nat),
    let id := s.tid + 1
    let writes (tr : Transport) := ∃ t, exec .tcpWrCoil s = .next t ∧ RunningKept s t ∧ t.res = s.res ∧ t.out = s.out ∧
      t.status = s.status ∧ t.transport = tr ∧ t.env = env' ∧ t.tid = id ∧
      t.fsm = .run .tcpWrCoil (.tcp .main (.tx [hi id, lo id, 0x00, 0x00, 0x00, 0x06, s.latched.unit, 0x05,
        hi s.latched.start, lo s.latched.start, hi s.latched.qty, lo s.latched.qty]))
    let goesTo (tr : Transport) (ph : TcpPhase) := ∃ t, exec .tcpWrCoil s = .next t ∧ RunningKept s t ∧ t.res = s.res ∧
      t.out = s.out ∧ t.status = s.status ∧ t.transport = tr ∧ t.env = env' ∧ t.tid = s.tid ∧
      (ph = .payload → t.work.bcnt = byteAt bs 8) ∧ t.fsm = .run .tcpWrCoil (.tcp .preRead ph)
    let want := if s.latched.qty = 0xFF00 then 1 else 0
    (Runs .tcpWrCoil (.tcp .preRead .payload) s → ReadReturns bs env' left s →
      let tr := afterRead s s.work.bcnt.toNat none bs left
      (bs.length = s.work.bcnt.toNat → 1 ≤ bs.length → (byteAt bs 0).toNat % 2 = want →
        ∃ t, exec .tcpWrCoil s = .next t ∧ EndsCommand s t tr env' 0 0 [] 0) ∧
      (bs.length = s.work.bcnt.toNat → 1 ≤ bs.length → (byteAt bs 0).toNat % 2 ≠ want → writes tr) ∧
      (bs.length < s.work.bcnt.toNat → writes tr)) ∧
    (Runs .tcpWrCoil (.tcp .preRead .header) s → ReadReturns bs env' left s →
      let tr := afterRead s 9 none bs left
      (bs.length < 9 → writes tr) ∧
      (bs.length = 9 → headerTid bs = s.tid → byteAt bs 7 ≠ 0x01 → writes tr) ∧
      (bs.length = 9 → headerTid bs = s.tid → byteAt bs 7 = 0x01 → byteAt bs 8 = 0 → writes tr) ∧
      (bs.length = 9 → headerTid bs = s.tid → byteAt bs 7 = 0x01 → byteAt bs 8 ≠ 0 → goesTo tr .payload) ∧
      (bs.length = 9 → headerTid bs ≠ s.tid → older (headerTid bs) s.tid = true → goesTo tr .header) ∧
      (bs.length = 9 → headerTid bs ≠ s.tid → older (headerTid bs) s.tid = false → writes tr)) ∧
    (Runs .tcpWrCoil (.tcp .preRead (.tx frame)) s → WriteReturns n env' s →
      (n < frame.length → writes (afterWrite s frame none n)) ∧
      (n = frame.length → goesTo (afterWrite s frame none n) .header))

/-- The end of one register's transaction of TCP.WR_MULTI (R235, R269): fewer than three bytes fail with SHORT_READ and NDONE = I;
after the last register the command succeeds with NDONE = n; otherwise register I + 1's request follows, at address
L_START + I + 1 modulo 2^16, with the next id. That TID is incremented and this request built in the step that reads register I's last bytes is the model's
reading of R11 and R36 (log entry 6). What RXBUF holds on TCP is left open (log entry 15). -/
def Obligations.TcpMultiRegisterDone : Prop :=
  ∀ (s : State) (bs left : List Byte) (env' : List EnvInput),
    Runs .tcpWrMulti (.tcp .main .rest) s → ReadReturns bs env' left s → s.latched.qty.toNat ≤ 127 →
    let tr := afterRead s 3 none bs left
    let id := s.tid + 1
    (bs.length < 3 → ∃ t, exec .tcpWrMulti s = .next t ∧ EndsCommand s t tr env' 0xFFFF 8 [] s.work.i) ∧
    (bs.length = 3 → s.work.i.toNat + 1 = s.latched.qty.toNat →
      ∃ t, exec .tcpWrMulti s = .next t ∧ EndsCommand s t tr env' 0 0 [] (lo s.latched.qty)) ∧
    ∀ (w : Word), bs.length = 3 → s.work.i.toNat + 1 < s.latched.qty.toNat →
      s.wdata.read (s.work.i.toNat + 1) = some w →
      let a := s.latched.start + BitVec.ofNat 16 (s.work.i.toNat + 1)
      ∃ r, exec .tcpWrMulti s = .next { s with
        transport := tr, env := env', tid := id, work := { s.work with rxbuf := r, i := s.work.i + 1 }
        fsm := .run .tcpWrMulti (.tcp .main (.tx ([hi id, lo id, 0x00, 0x00, 0x00, 0x06, s.latched.unit, 0x06,
          hi a, lo a] ++ if s.latched.swap = 1 then [lo w, hi w] else [hi w, lo w]))) }

/-! ### The utility commands -/

/-- UTIL.CRC16 completes (R105): CRCR takes the CRC of the first L_QTY bytes of IBUF from the seed in L_START; BC and NDONE are 0, and
OUT, TID and the transport are untouched. That it is a step of its own after the latching is log entry 7. -/
def Obligations.UtilCrc16Completes : Prop :=
  ∀ (s : State) (bs : List Byte), Runs .utilCrc16 .compute s → bs.length = s.latched.qty.toNat → Holds s.ibuf bs →
    ∃ t, exec .utilCrc16 s = .next t ∧ Ended s t 0 0 [] 0 ∧ RunningKept s t ∧ t.tid = s.tid ∧
      t.res.crcr = crc16 bs (hi s.latched.start) (lo s.latched.start) ∧ t.transport = s.transport ∧ t.env = s.env

/-- UTIL.SWAP completes (R205): OUT takes each of the first L_QTY words of WDATA swapped, high byte first, and BC is twice the
count; WDATA, TID, CRCR and the transport are unchanged. That it is a step of its own after the latching is log entry 7. -/
def Obligations.UtilSwapCompletes : Prop :=
  ∀ (s : State) (ws : List Word), Runs .utilSwap .compute s → ws.length = s.latched.qty.toNat → ws.length ≤ 127 →
    Holds s.wdata ws →
    ∃ t, exec .utilSwap s = .next t ∧
      EndsCommand s t s.transport s.env 0 0 (ws.flatMap fun w => [lo w, hi w]) 0

/-! ### Frames: what no command changes -/

/-- No command changes the parameters, the ARG registers, WDATA, IBUF or the host's operations (R33, R34, R44, R203), and a running
one changes neither CMD nor the latched arguments (R21, R37). -/
def Obligations.CommandsKeepTheHostSide : Prop :=
  ∀ (i : Instr) (s t : State), exec i s = .next t →
    HostSideKept s t ∧ (s.status.busy = true → t.cmd = s.cmd ∧ t.latched = s.latched)

/-- RC, CAUSE, BC, NDONE, CRCR and OUT change only at a completion step (R23 to R26, R28, R35, R44, R56): while the command still
runs they hold the previous command's values. And only UTIL.CRC16 writes CRCR (R28). -/
def Obligations.ResultsChangeOnlyAtCompletion : Prop :=
  ∀ (i : Instr) (s t : State), exec i s = .next t →
    (t.status.busy = true → t.res = s.res ∧ t.out = s.out) ∧ (i ≠ .utilCrc16 → t.res.crcr = s.res.crcr)

/-- Which commands write OUT, and when (R131, R169, R170, R205, R221): only reads and UTIL.SWAP; an RTU read only on success; a TCP
read not on a server exception; and no command writes an OUT byte at or beyond BC. The bound on L_QTY is R74's. -/
def Obligations.OutputBytesFrame : Prop :=
  ∀ (i : Instr) (s t : State), exec i s = .next t → (i = .utilSwap → s.latched.qty.toNat ≤ 127) →
    (∀ j, t.res.bc.toNat ≤ j → t.out.read j = s.out.read j) ∧
    (i ∉ rtuReads → i ∉ tcpReads → i ≠ .utilSwap → t.out = s.out) ∧
    (i ∈ rtuReads → t.res.cause ≠ 0 → t.out = s.out) ∧
    (i ∈ tcpReads → t.res.cause = 10 → t.out = s.out)

/-- TID changes only by the increment that starts a transaction of a TCP command, whose 12-byte request then carries the new
value (R27, R137, R160, R173). That TID is one higher already in the step after which that request's write call is still next is the
model's reading of R11 and R36 (log entry 6). -/
def Obligations.TidChangesOnlyBySending : Prop :=
  ∀ (i : Instr) (s t : State), exec i s = .next t →
    t.tid = s.tid ∨
    (i ∈ tcpAll ∧ t.tid = s.tid + 1 ∧
      ∃ txn frame, t.fsm = .run i (.tcp txn (.tx frame)) ∧ frame.length = 12 ∧ headerTid frame = t.tid)

/-- What moves the transport (R10, R11, R43, R50, R57, R60, R61). One action of a command makes at most one visible event, and takes
its answer from the outside world. One step makes at most one, and only while a command runs: an idle engine makes none, whether
the step latches a command or not (R220, R264); a step without one leaves the record, and moves the inbound queue only where the
outside world does. When the world has the turn, bytes that arrive queue behind the others; the oldest are lost where
TRANSPORT_RETAINS_UNREAD does not hold, and that act is refused where it does (log entry 5); the queue is emptied (R294). Whose turn
it is, is log entries 7 and 13. -/
def Obligations.OneVisibleEventPerAction : Prop :=
  (∀ (i : Instr) (s t : State), exec i s = .next t → (t.transport = s.transport ∧ t.env = s.env) ∨ VisibleEvent s t) ∧
  (∀ s t : State, step s = .next t →
    (t.transport = s.transport ∧ t.env = s.env) ∨ (s.status.busy = true ∧ VisibleEvent s t) ∨ WorldMoved s t) ∧
  (∀ (s : State) (rest : List EnvInput), HostYields s → (∀ i, s.fsm ≠ .run i .compute) →
    (∀ bs, s.env = .arrive bs :: rest →
      step s = .next { s with env := rest, transport := { s.transport with inQ := s.transport.inQ ++ bs } }) ∧
    (∀ k, s.env = .lose k :: rest → s.params.retainsUnread = false →
      step s = .next { s with env := rest, transport := { s.transport with inQ := s.transport.inQ.drop k } }) ∧
    (∀ k, s.env = .lose k :: rest → s.params.retainsUnread = true → step s = .refused .lostRetainedBytes) ∧
    (s.env = .drain :: rest → step s = .next { s with env := rest, transport := { s.transport with inQ := [] } }))

/-- Every ending is one of the three of R260 and R221: a command that was running and no longer is has RC and CAUSE of a success, a
local failure or a server exception, STATUS DONE and fsm IDLE. -/
def Obligations.EveryEndingIsOneOfThree : Prop :=
  ∀ (i : Instr) (s t : State), exec i s = .next t → s.status.busy = true → t.status.busy = false →
    t.status.done = true ∧ t.fsm = .idle ∧
    ((t.res.rc = 0 ∧ t.res.cause = 0) ∨
     (t.res.rc = 0xFFFF ∧ 2 ≤ t.res.cause.toNat ∧ t.res.cause.toNat ≤ 9) ∨
     (∃ k : Byte, t.res.rc = k.zeroExtend 16 ∧ t.res.cause = 10))

/-! ### Invariants -/

/-- The invariant holds right after reset. -/
def Obligations.InvariantHoldsAtReset : Prop := Sound State.reset

/-- Every step keeps the invariant, from every state that has it. Its clause that a TCP request still to be written carries TID rests
on the model's reading of R11 and R36 (log entry 6). -/
def Obligations.InvariantKeptByStep : Prop := ∀ s t : State, Sound s → step s = .next t → Sound t

/-- From a state with the invariant a step stops only for what the outside did: a host access to something that does not exist or
is unwritten, a command's read of an unwritten element (R41), or an answer outside the contract of the transport and the clock
(R10, R125). In particular fsm never strays. -/
def Obligations.SoundStatesStopOnlyOnInput : Prop :=
  ∀ s : State, Sound s → ∀ r : Refusal, step s = .refused r →
    r ∈ [Refusal.overlongWrite, .overlongRead, .phantomBytes, .clockWentBack, .wrongAnswer, .lostRetainedBytes]

/-- An engine of kind RTU never changes TID, but for reset (R27, R137). -/
def Obligations.RtuEngineKeepsTid : Prop :=
  ∀ s t : State, Sound s → s.params.kind = .rtu → step s = .next t → t.params.kind = .rtu ∧ (t.tid = s.tid ∨ t = { State.reset with
    params := s.params, transport := s.transport, host := t.host, env := s.env })

/-! ### Whole commands -/

/-- The fragmented-read property (R123 to R131, S4): an RTU read whose well-formed response arrives in any number of short reads,
with clock samples that never exceed the budget, succeeds with the whole payload in OUT and reads nothing beyond it. -/
def Obligations.FragmentedRtuReadDelivers : Prop :=
  ∀ (i : Instr) (s : State) (t0 : Clock) (d left : List Byte) (f1 f2 f3 : List (Nat × Clock)) (n1 n2 n3 : Nat),
    i ∈ rtuReads → Runs i .rtuT0 s → s.host = [] → d.length ≤ 255 →
    s.transport.inQ = rtuResponse s.latched.unit i.fields.fc (BitVec.ofNat 8 d.length) d ++ left →
    accBytes f1 n1 = 3 → 1 ≤ n1 → (d = [] → f2 = []) → (d ≠ [] → accBytes f2 n2 = d.length ∧ 1 ≤ n2) →
    accBytes f3 n3 = 2 → 1 ≤ n3 → Paced t0 0 (f1 ++ f2 ++ f3) →
    let script := .clock t0 :: (accScript f1 n1 ++ (if d = [] then [] else accScript f2 n2) ++ accScript f3 n3)
    s.env = script →
    ∃ t, runSteps script.length s = .next t ∧
      Ended s t 0 0 (regCodecRead i.fields.fc s.latched.swap d) 0 ∧ RunningKept s t ∧ t.tid = s.tid ∧
      t.transport.inQ = left ∧ t.env = []

/-- A line that falls silent times out (R123, R303): reads that return nothing, whatever their number, do not end the command
while the elapsed time stays within the budget, and the first sample beyond it does, with TIMEOUT. -/
def Obligations.SilentRtuLineTimesOut : Prop :=
  ∀ (i : Instr) (s : State) (ph : RtuPhase) (last v : Clock) (vs : List Clock),
    i ∈ rtuAll → Runs i (.rtuRx ph last) s → s.host = [] → s.work.rxbuf.length < rtuTarget ph s.work.bcnt →
    Paced s.work.t0 (last - s.work.t0).toNat (vs.map fun c => (0, c)) → 350 < (v - s.work.t0).toNat →
    (∀ c ∈ last :: vs, (c - s.work.t0).toNat ≤ (v - s.work.t0).toNat) →
    s.env = (vs ++ [v]).flatMap (fun c => [.rxDone 0, .clock c]) →
    ∃ t, runSteps (2 * (vs.length + 1)) s = .next t ∧ Ended s t 0xFFFF 5 [] 0 ∧ RunningKept s t ∧
      t.tid = s.tid ∧ t.transport.inQ = s.transport.inQ ∧ t.env = []

/-- TCP.WR_MULTI, start to end (R235, R172): with nothing left unread before it (such bytes would be read as its first header, R294)
and every transaction echoed under its own id and function, whatever the other echoed bytes, it sends the n single-register requests in order, with rising addresses and ids, and ends with NDONE = n. -/
def Obligations.TcpMultiWritesEveryRegister : Prop :=
  ∀ (s : State) (ws : List Word) (junk : List (List Byte × List Byte)),
    s.host = [.setReg 0x00 0x4010] → s.status.busy = false → s.params.kind = .tcp → s.transport.inQ = [] →
    ws.length = s.args.qty.toNat → 1 ≤ ws.length → ws.length ≤ 127 → Holds s.wdata ws →
    junk.length = ws.length → (∀ j ∈ junk, j.1.length = 5 ∧ j.2.length = 4) →
    s.env = echoScripts (s.tid + 1) junk →
    ∃ t, runSteps (1 + 4 * ws.length) s = .next t ∧
      Ended s t 0 0 [] (BitVec.ofNat 8 ws.length) ∧ t.tid = s.tid + BitVec.ofNat 16 ws.length ∧
      outbound t = outbound s ++ multiFrames (s.tid + 1) s.args.unit s.args.start s.args.swap ws ∧
      t.transport.inQ = [] ∧ t.env = [] ∧ t.wdata = s.wdata

/-- TCP.WR_MULTI stops at the first transaction that does not succeed (R235, R268, R269, S7): after the registers of `before` are
echoed, any failure of the transaction of the next word `w` (SHORT_WRITE, SHORT_READ of the header or of the last three bytes,
TID_MISMATCH, FUNC_MISMATCH, a server exception) ends the command with that failure and NDONE the number before it. The requests
sent are those of `before` and the failing one, as far as its write call wrote it, and none of `after`. That a SHORT_WRITE puts the
first `written` bytes of the request on the wire, and no others, is the model's choice (log entry 19). -/
def Obligations.TcpMultiStopsAtFirstFailure : Prop :=
  ∀ (s : State) (before after : List Word) (w : Word) (junk : List (List Byte × List Byte)) (answers : List EnvInput)
    (written : Nat) (rc : Word) (cause : Byte),
    let n := BitVec.ofNat 16 before.length
    let id := s.tid + 1 + n
    s.host = [.setReg 0x00 0x4010] → s.status.busy = false → s.params.kind = .tcp → s.transport.inQ = [] →
    before.length + 1 + after.length = s.args.qty.toNat → s.args.qty.toNat ≤ 127 → Holds s.wdata (before ++ w :: after) →
    junk.length = before.length → (∀ j ∈ junk, j.1.length = 5 ∧ j.2.length = 4) →
    TxnFails id answers written rc cause → s.env = echoScripts (s.tid + 1) junk ++ answers →
    ∃ t, runSteps (1 + 4 * before.length + answers.length) s = .next t ∧
      Ended s t rc cause [] (BitVec.ofNat 8 before.length) ∧ t.tid = id ∧
      outbound t = outbound s ++ multiFrames (s.tid + 1) s.args.unit s.args.start s.args.swap before ++
        [(tcpFrame id s.args.unit 0x06 (s.args.start + n) (encWord s.args.swap w)).take written] ∧
      t.env = [] ∧ t.wdata = s.wdata

/-- Nothing carries over from one command to the next but what R42 names: two states that differ only in the last results, in OUT
and in values no point still reads take the same action of a command, up to those differences; and when the command has ended, its
results and the OUT bytes it counts are the same. -/
def Obligations.NothingElseCarriesOver : Prop :=
  ∀ (i : Instr) (s1 s2 t1 : State), forget s1 = forget s2 → exec i s1 = .next t1 →
    ∃ t2, exec i s2 = .next t2 ∧ forget t1 = forget t2 ∧
      (t1.status.busy = false →
        t1.res.rc = t2.res.rc ∧ t1.res.cause = t2.res.cause ∧ t1.res.bc = t2.res.bc ∧ t1.res.ndone = t2.res.ndone ∧
        (i = .utilCrc16 → t1.res.cause = 0 → t1.res.crcr = t2.res.crcr) ∧
        ∀ j, j < t1.res.bc.toNat → t1.out.read j = t2.out.read j)
end

