-- ==== Sys2Proof/Laws/Bytes.lean ====
section
/-! SUPPORT. The laws of words and bytes, of the command word's fields, and of the register codec. -/

namespace Sys2Proof.Machine

@[simp] theorem hi_word (h l : Byte) : hi (word h l) = h := by
  apply BitVec.eq_of_getLsbD_eq
  intro i hi'
  simp [hi, word, hi', show 8 + i < 16 by omega]

@[simp] theorem lo_word (h l : Byte) : lo (word h l) = l := by
  apply BitVec.eq_of_getLsbD_eq
  intro i hi'
  simp [lo, word, hi', show i < 16 by omega]

@[simp] theorem word_hi_lo (w : Word) : word (hi w) (lo w) = w := by
  apply BitVec.eq_of_getLsbD_eq
  intro i hi'
  simp only [hi, lo, word, BitVec.getLsbD_or, BitVec.getLsbD_shiftLeft, BitVec.getLsbD_setWidth,
    BitVec.getLsbD_extractLsb']
  by_cases h : i < 8
  · simp [h, hi']
  · simp [h, hi', show i - 8 < 8 by omega, show i - 8 < 16 by omega, show 8 + (i - 8) = i by omega]

theorem hi_toNat (w : Word) : (hi w).toNat = w.toNat / 256 := by
  simp [hi, Nat.shiftRight_eq_div_pow]
  omega

theorem lo_toNat (w : Word) : (lo w).toNat = w.toNat % 256 := by
  simp [lo]

theorem word_toNat (h l : Byte) : (word h l).toNat = 256 * h.toNat + l.toNat := by
  have h1 := hi_toNat (word h l)
  have h2 := lo_toNat (word h l)
  simp only [hi_word, lo_word] at h1 h2
  omega

/-- Words are equal when their bytes are. -/
theorem word_inj {a b c d : Byte} : word a b = word c d ↔ a = c ∧ b = d :=
  ⟨fun h => ⟨by simpa using congrArg hi h, by simpa using congrArg lo h⟩, fun ⟨h, h'⟩ => by rw [h, h']⟩

@[simp] theorem hi_swap16 (w : Word) : hi (swap16 w) = lo w := by simp [swap16]
@[simp] theorem lo_swap16 (w : Word) : lo (swap16 w) = hi w := by simp [swap16]

@[simp] theorem fieldsOf_wordOf (f : CmdFields) : fieldsOf (wordOf f) = f := by
  obtain ⟨c, r, f⟩ := f
  simp only [fieldsOf, wordOf, CmdFields.mk.injEq]
  refine ⟨?_, ?_, ?_⟩ <;> apply BitVec.eq_of_getLsbD_eq <;> intro i hi
  · simp [hi, show 14 + i < 16 by omega, show 14 + i - 8 = 6 + i by omega,
      BitVec.getLsbD_of_ge f (14 + i) (by omega)]
  · simp [hi, show 8 + i < 16 by omega, show 8 + i < 14 by omega]
  · simp [hi, show i < 16 by omega, show i < 14 by omega]

@[simp] theorem wordOf_fieldsOf (w : Word) : wordOf (fieldsOf w) = w := by
  apply BitVec.eq_of_getLsbD_eq
  intro i hi
  simp only [fieldsOf, wordOf, BitVec.getLsbD_or, BitVec.getLsbD_shiftLeft, BitVec.getLsbD_setWidth,
    BitVec.getLsbD_extractLsb']
  by_cases h1 : i < 8
  · simp [h1, hi, show i < 14 by omega]
  · by_cases h2 : i < 14
    · simp [h1, h2, hi, show i - 8 < 6 by omega, show i - 8 < 16 by omega, show 8 + (i - 8) = i by omega]
    · simp [h1, h2, hi, show ¬ (i - 8 < 6) by omega, show i - 14 < 2 by omega, show i - 14 < 16 by omega,
        show 14 + (i - 14) = i by omega]

theorem beWords_length (ws : List Word) : (beWords ws).length = 2 * ws.length := by
  induction ws with
  | nil => rfl
  | cons w r ih => simp [beWords, ih]; omega

theorem swapPairs_length (d : List Byte) : (swapPairs d).length = d.length := by
  induction d using swapPairs.induct with
  | case1 a b r ih => simp [swapPairs, ih]
  | case2 a => rfl
  | case3 => rfl

/-- The bytes of a swapped payload: those of a whole pair change places, an odd last byte stays (R201). -/
theorem swapPairs_getElem? (d : List Byte) (k : Nat) :
    (swapPairs d)[k]? = if k < 2 * (d.length / 2) then (if k % 2 = 0 then d[k + 1]? else d[k - 1]?) else d[k]? := by
  induction d using swapPairs.induct generalizing k with
  | case1 a b r ih =>
    match k with
    | 0 => simp [swapPairs]
    | 1 => simp [swapPairs]; omega
    | k + 2 =>
      have h1 : k + 2 < 2 * ((a :: b :: r).length / 2) ↔ k < 2 * (r.length / 2) := by simp; omega
      have h2 : (k + 2) % 2 = k % 2 := by omega
      simp only [swapPairs, List.getElem?_cons_succ, ih, h1, h2]
      split
      · split
        · rfl
        · obtain ⟨j, rfl⟩ : ∃ j, k = j + 1 := ⟨k - 1, by omega⟩
          simp
      · rfl
  | case2 a => simp [swapPairs]
  | case3 => simp [swapPairs]

/-- The register codec changes no payload's length (R201). -/
@[simp] theorem regCodecRead_length (fc : Byte) (swap : BitVec 1) (d : List Byte) :
    (regCodecRead fc swap d).length = d.length := by
  unfold regCodecRead
  split
  · exact swapPairs_length d
  · rfl

/-- Swapping the pairs of a list of words' bytes swaps the words (R200, R201). -/
theorem swapPairs_beWords (ws : List Word) : swapPairs (beWords ws) = beWords (ws.map swap16) := by
  induction ws with
  | nil => rfl
  | cons w r ih => simp [beWords, swapPairs, ih]

end Sys2Proof.Machine
end

