-- ==== Sys2Proof/Laws/Crc.lean ====
section
/-! SUPPORT. The laws of the CRC register: it is a left fold, and a register with a zero low byte shifts it out untouched. -/

namespace Sys2Proof.Machine

@[simp] theorem crcFold_nil (r : Word) : crcFold r [] = r := rfl

theorem crcFold_append (r : Word) (a b : List Byte) : crcFold r (a ++ b) = crcFold (crcFold r a) b :=
  List.foldl_append

@[simp] theorem crc16_nil (sh sl : Byte) : crc16 [] sh sl = word sh sl := rfl

/-- A CRC from the two bytes of a register value goes on from that value (R101). -/
theorem crc16_bytes (s : List Byte) (r : Word) : crc16 s (hi r) (lo r) = crcFold r s := by
  simp [crc16]

end Sys2Proof.Machine
end

