-- ==== Sys2Proof/Laws/Codec.lean ====
section
/-! SUPPORT. One lemma per small function of the two codecs that says what it computes in numbers or bytes, so that no proof unfolds
it. -/

namespace Sys2Proof.Machine

/-- Bit 7 set is a value of 128 or more (R85). -/
theorem decodeAnswer_eq (fc f : Byte) :
    decodeAnswer fc f = if f = fc then .normal else if 128 ≤ f.toNat then .serverException else .mismatch := by
  have h : f.getLsbD 7 = decide (128 ≤ f.toNat) := by revert f; decide
  simp only [decodeAnswer, h, decide_eq_true_eq]

/-- The trailer check compares the two bytes, low byte first, with the CRC (R52, R104). -/
theorem trailerOk_eq (c : Word) (t0 t1 : Byte) : trailerOk c t0 t1 = decide (256 * t1.toNat + t0.toNat = c.toNat) := by
  rw [Bool.eq_iff_iff, decide_eq_true_iff, ← word_toNat, ← BitVec.toNat_eq]
  simp only [trailerOk, Bool.and_eq_true, beq_iff_eq]
  constructor
  · rintro ⟨rfl, rfl⟩; simp
  · rintro rfl; simp

/-- A chained frame CRC is the frame CRC of the concatenation (R103). -/
theorem chainedCrc_eq (a b : List Byte) : chainedCrc a b = frameCrc (a ++ b) := by
  rw [chainedCrc, crc16_bytes]
  simp [frameCrc, crc16, crcFold_append]

/-- The id of a header is its first two bytes, high byte first (R82). -/
theorem headerTid_eq_iff (e1 e0 : Byte) (r : List Byte) (t : Word) :
    headerTid (e1 :: e0 :: r) = t ↔ 256 * e1.toNat + e0.toNat = t.toNat := by
  rw [← word_toNat, ← BitVec.toNat_eq]
  rfl

@[simp] theorem headerTid_tcpFrame (tid : Word) (unit fc : Byte) (a b : Word) : headerTid (tcpFrame tid unit fc a b) = tid := by
  simp [headerTid, tcpFrame, be16, byteAt]

/-- A request is 12 bytes (R81). -/
@[simp] theorem tcpFrame_length (tid : Word) (unit fc : Byte) (a b : Word) : (tcpFrame tid unit fc a b).length = 12 := by
  simp [tcpFrame, be16]

/-- The distance that staleness looks at, in numbers (R166). -/
theorem sub_toNat (e t : Word) : (t - e).toNat = (t.toNat + 65536 - e.toNat) % 65536 := by
  rw [BitVec.toNat_sub]
  congr 1
  have := e.isLt
  omega

/-- The two bytes of a written word (R77, R202). -/
theorem be16_encWord (swap : BitVec 1) (w : Word) :
    be16 (encWord swap w) = if swap = 1 then [lo w, hi w] else [hi w, lo w] := by
  by_cases h : swap = 1 <;> simp only [encWord, h, if_true, if_false, be16, hi_swap16, lo_swap16]

/-- The payload of a write-multiple request, word by word (R77, R202). -/
theorem rtuMultiPayload_eq (swap : BitVec 1) (ws : List Word) :
    rtuMultiPayload swap ws = ws.flatMap fun w => if swap = 1 then [lo w, hi w] else [hi w, lo w] := by
  induction ws with
  | nil => rfl
  | cons w r ih =>
    simp only [rtuMultiPayload, List.map_cons, beWords, List.flatMap_cons] at ih ⊢
    rw [ih, ← be16_encWord]
    rfl

/-- The bytes of swapped words (R200, R205). -/
theorem beWords_swap (ws : List Word) : beWords (ws.map swap16) = ws.flatMap fun w => [lo w, hi w] := by
  induction ws with
  | nil => rfl
  | cons w r ih => simp [beWords, ih]

theorem regCodecRead_nil (fc : Byte) (swap : BitVec 1) : regCodecRead fc swap [] = [] :=
  List.length_eq_zero_iff.1 (by simp)

/-- An end of the pre-read other than success leads to the write (R270). -/
theorem tcpPreReadEnd_absorbs {e : TxnEnd} {s : State} (h : ∀ d, e ≠ .ok d) :
    tcpPreReadEnd e s = tcpCoilWrite { s with work := { s.work with skip := 0 } } := by
  cases e with
  | ok d => exact absurd rfl (h d)
  | fail c => rfl
  | serverExc k => rfl

/-- A pre-read that succeeds ends the command if the coil is already as wanted, and leads to the write otherwise (R233). -/
theorem tcpPreReadEnd_ok (d : List Byte) (s : State) :
    tcpPreReadEnd (.ok d) s =
      if coilAlready s.latched.qty d = true then
        .next (complete .success [] 0 { s with work := { s.work with skip := 1 } })
      else tcpCoilWrite { s with work := { s.work with skip := 0 } } := by
  unfold tcpPreReadEnd
  cases h : coilAlready s.latched.qty d <;> simp [h]

end Sys2Proof.Machine
end

