-- ==== Sys2Proof/Laws/Memory.lean ====
section
/-! SUPPORT. The laws of the buffers: a read after a write, and that every operation keeps the canonical form. -/

namespace Sys2Proof.Machine

variable {w : Nat}

@[simp] theorem Memory.read_nil (a : Nat) : Memory.read ([] : Memory w) a = none := rfl

/-- A read of the index just written gives the value written, and a read of any other index gives what it gave. -/
theorem Memory.read_write (m : Memory w) (a b : Nat) (x : BitVec w) :
    (m.write a x).read b = if b = a then some x else m.read b := by
  induction m with
  | nil => simp [Memory.write, Memory.read, eq_comm]
  | cons e r ih =>
    obtain ⟨k, v⟩ := e
    by_cases h1 : a < k
    · by_cases h : b = a
      · simp [Memory.write, Memory.read, h1, h]
      · simp [Memory.write, Memory.read, h1, h, Ne.symm h]
    · by_cases h2 : a = k
      · subst h2
        by_cases h : b = a
        · simp [Memory.write, Memory.read, h]
        · simp [Memory.write, Memory.read, h, Ne.symm h]
      · by_cases h3 : k = b
        · subst h3
          simp [Memory.write, Memory.read, h1, h2, Ne.symm h2]
        · simp [Memory.write, Memory.read, h1, h2, h3, ih]

/-- Reading after writing a list from index `a` up. -/
theorem Memory.read_writeList (m : Memory w) (a : Nat) (xs : List (BitVec w)) (b : Nat) :
    (m.writeList a xs).read b = if a ≤ b ∧ b < a + xs.length then xs[b - a]? else m.read b := by
  induction xs generalizing m a with
  | nil => simp [Memory.writeList]
  | cons x r ih =>
    rw [Memory.writeList, ih, Memory.read_write]
    by_cases h1 : a + 1 ≤ b ∧ b < a + 1 + r.length
    · have h2 : a ≤ b ∧ b < a + (x :: r).length := by simp; omega
      have h3 : b - a = (b - (a + 1)) + 1 := by omega
      rw [if_pos h1, if_pos h2, h3, List.getElem?_cons_succ]
    · rw [if_neg h1]
      by_cases h4 : b = a
      · subst h4; simp
      · have h2 : ¬ (a ≤ b ∧ b < a + (x :: r).length) := by simp; omega
        rw [if_neg h4, if_neg h2]

/-- The elements a list write stores, from index 0 up. -/
theorem Memory.read_writeList_zero (m : Memory w) (xs : List (BitVec w)) (b : Nat) :
    (m.writeList 0 xs).read b = if b < xs.length then xs[b]? else m.read b := by
  simpa using Memory.read_writeList m 0 xs b

theorem Memory.wfFrom_mono {b c cap : Nat} {m : Memory w} (h : Memory.wfFrom c cap m = true) (hbc : b ≤ c) :
    Memory.wfFrom b cap m = true := by
  cases m with
  | nil => rfl
  | cons e r =>
    obtain ⟨k, v⟩ := e
    simp [Memory.wfFrom] at h ⊢
    exact ⟨⟨by omega, h.1.2⟩, h.2⟩

theorem Memory.wfFrom_write {b cap a : Nat} {m : Memory w} {x : BitVec w} (h : Memory.wfFrom b cap m = true)
    (hb : b ≤ a) (ha : a < cap) : Memory.wfFrom b cap (m.write a x) = true := by
  induction m generalizing b with
  | nil => simp [Memory.write, Memory.wfFrom, hb, ha]
  | cons e r ih =>
    obtain ⟨k, v⟩ := e
    simp [Memory.wfFrom] at h
    by_cases h1 : a < k
    · simp [Memory.write, Memory.wfFrom, h1, hb, ha, h.2, h.1.2]
    · by_cases h2 : a = k
      · simp [Memory.write, Memory.wfFrom, h2, h.2, h.1.2, h.1.1]
      · simp [Memory.write, Memory.wfFrom, h1, h2, h.1.1, h.1.2]
        exact ih h.2 (by omega)

/-- Writing inside the buffer keeps the canonical form. -/
theorem Memory.wf_write {cap a : Nat} {m : Memory w} {x : BitVec w} (h : m.wf cap = true) (ha : a < cap) :
    (m.write a x).wf cap = true := Memory.wfFrom_write h (Nat.zero_le _) ha

/-- Writing a list inside the buffer keeps the canonical form. -/
theorem Memory.wf_writeList {cap a : Nat} {m : Memory w} {xs : List (BitVec w)} (h : m.wf cap = true)
    (ha : a + xs.length ≤ cap) : (m.writeList a xs).wf cap = true := by
  induction xs generalizing m a with
  | nil => exact h
  | cons x r ih =>
    simp at ha
    exact ih (Memory.wf_write h (by omega)) (by omega)

/-- The buffers right after reset are canonical. -/
theorem reset_wf : State.reset.wdata.wf Config.wdataWords = true ∧ State.reset.ibuf.wf Config.ibufBytes = true ∧
    State.reset.out.wf Config.outBytes = true := ⟨rfl, rfl, rfl⟩

theorem Memory.read_none_of_lt {b cap a : Nat} {m : Memory w} (h : m.wfFrom b cap = true) (ha : a < b) :
    m.read a = none := by
  induction m generalizing b with
  | nil => rfl
  | cons e r ih =>
    obtain ⟨k, v⟩ := e
    simp [Memory.wfFrom] at h
    simp [Memory.read, show k ≠ a by omega, ih h.2 (by omega)]

/-- The canonical form is canonical: buffers that read the same are the same list. -/
theorem Memory.eq_of_read_eq {b cap : Nat} {m n : Memory w} (hm : m.wfFrom b cap = true) (hn : n.wfFrom b cap = true)
    (h : ∀ a, m.read a = n.read a) : m = n := by
  induction m generalizing b n with
  | nil =>
    cases n with
    | nil => rfl
    | cons e r => have := h e.1; simp [Memory.read] at this
  | cons e r ih =>
    obtain ⟨k, v⟩ := e
    cases n with
    | nil => have := h k; simp [Memory.read] at this
    | cons e' r' =>
      obtain ⟨k', v'⟩ := e'
      simp [Memory.wfFrom] at hm hn
      have hk : k = k' := by
        by_contra hne
        rcases Nat.lt_or_gt_of_ne hne with hlt | hlt
        · have := h k
          simp [Memory.read, Ne.symm hne, Memory.read_none_of_lt hn.2 (show k < k' + 1 by omega)] at this
        · have := h k'
          simp [Memory.read, hne, Memory.read_none_of_lt hm.2 (show k' < k + 1 by omega)] at this
      subst hk
      have hv : v = v' := by simpa [Memory.read] using h k
      subst hv
      congr 1
      refine ih hm.2 hn.2 fun a => ?_
      by_cases ha : k = a
      · subst ha
        rw [Memory.read_none_of_lt hm.2 (by omega), Memory.read_none_of_lt hn.2 (by omega)]
      · simpa [Memory.read, ha] using h a

/-- `readList` answers a list exactly when every element is written, and then it is those elements. -/
theorem Memory.readList_ok {m : Memory w} {a n : Nat} {xs : List (BitVec w)} :
    m.readList a n = .ok xs ↔ xs.length = n ∧ ∀ j, j < n → m.read (a + j) = xs[j]? := by
  induction n generalizing a xs with
  | zero => cases xs <;> simp [Memory.readList]
  | succ n ih =>
    constructor
    · intro h
      rw [Memory.readList] at h
      cases hr : m.read a with
      | none => simp [hr] at h
      | some x =>
        cases hl : m.readList (a + 1) n with
        | error j => simp [hr, hl] at h
        | ok ys =>
          simp [hr, hl] at h
          subst h
          obtain ⟨hlen, hys⟩ := ih.1 hl
          refine ⟨by simp [hlen], fun j hj => ?_⟩
          cases j with
          | zero => simpa using hr
          | succ j => have := hys j (by omega); simpa [Nat.add_assoc, Nat.add_comm 1 j] using this
    · rintro ⟨hlen, hys⟩
      cases xs with
      | nil => simp at hlen
      | cons x ys =>
        have hx : m.read a = some x := by simpa using hys 0 (by omega)
        have hl : m.readList (a + 1) n = .ok ys := by
          refine ih.2 ⟨by simpa using hlen, fun j hj => ?_⟩
          have := hys (j + 1) (by omega)
          simpa [Nat.add_assoc, Nat.add_comm 1 j] using this
        simp [Memory.readList, hx, hl]

/-- `readList` answers the first unwritten index, where there is one. -/
theorem Memory.readList_error {m : Memory w} {a n j : Nat} :
    m.readList a n = .error j ↔ a ≤ j ∧ j < a + n ∧ m.read j = none ∧ ∀ k, a ≤ k → k < j → m.read k ≠ none := by
  induction n generalizing a with
  | zero => simp [Memory.readList]; omega
  | succ n ih =>
    cases hr : m.read a with
    | none =>
      simp only [Memory.readList, hr]
      constructor
      · intro h
        cases h
        exact ⟨le_rfl, by omega, hr, fun k h1 h2 => by omega⟩
      · rintro ⟨h1, h2, h3, h4⟩
        rcases Nat.eq_or_lt_of_le h1 with h | h
        · rw [h]
        · exact absurd hr (h4 a le_rfl h)
    | some x =>
      have hstep : m.readList a (n + 1) = .error j ↔ m.readList (a + 1) n = .error j := by
        rw [Memory.readList, hr]
        cases m.readList (a + 1) n <;> simp
      rw [hstep, ih]
      constructor
      · rintro ⟨h1, h2, h3, h4⟩
        refine ⟨by omega, by omega, h3, fun k hk1 hk2 => ?_⟩
        rcases Nat.eq_or_lt_of_le hk1 with h | h
        · rw [← h, hr]; simp
        · exact h4 k (by omega) hk2
      · rintro ⟨h1, h2, h3, h4⟩
        have : a ≠ j := fun h => by rw [h, h3] at hr; cases hr
        exact ⟨by omega, by omega, h3, fun k hk1 hk2 => h4 k (by omega) hk2⟩

end Sys2Proof.Machine
end

