-- ==== Sys2Proof/Laws/State.lean ====
section
/-! SUPPORT. What each named update of the state does to each field, one lemma per field per update, so that no proof unfolds an
update. -/

namespace Sys2Proof.Machine

@[simp] theorem goto_params (i : Instr) (pt : Point) (s : State) : (goto i pt s).params = s.params := rfl
@[simp] theorem goto_cmd (i : Instr) (pt : Point) (s : State) : (goto i pt s).cmd = s.cmd := rfl
@[simp] theorem goto_status (i : Instr) (pt : Point) (s : State) : (goto i pt s).status = s.status := rfl
@[simp] theorem goto_res (i : Instr) (pt : Point) (s : State) : (goto i pt s).res = s.res := rfl
@[simp] theorem goto_tid (i : Instr) (pt : Point) (s : State) : (goto i pt s).tid = s.tid := rfl
@[simp] theorem goto_args (i : Instr) (pt : Point) (s : State) : (goto i pt s).args = s.args := rfl
@[simp] theorem goto_wdata (i : Instr) (pt : Point) (s : State) : (goto i pt s).wdata = s.wdata := rfl
@[simp] theorem goto_ibuf (i : Instr) (pt : Point) (s : State) : (goto i pt s).ibuf = s.ibuf := rfl
@[simp] theorem goto_out (i : Instr) (pt : Point) (s : State) : (goto i pt s).out = s.out := rfl
@[simp] theorem goto_fsm (i : Instr) (pt : Point) (s : State) : (goto i pt s).fsm = .run i pt := rfl
@[simp] theorem goto_latched (i : Instr) (pt : Point) (s : State) : (goto i pt s).latched = s.latched := rfl
@[simp] theorem goto_work (i : Instr) (pt : Point) (s : State) : (goto i pt s).work = s.work := rfl
@[simp] theorem goto_transport (i : Instr) (pt : Point) (s : State) : (goto i pt s).transport = s.transport := rfl
@[simp] theorem goto_host (i : Instr) (pt : Point) (s : State) : (goto i pt s).host = s.host := rfl
@[simp] theorem goto_env (i : Instr) (pt : Point) (s : State) : (goto i pt s).env = s.env := rfl

@[simp] theorem latchRegs_params (w : Word) (s : State) : (latchRegs w s).params = s.params := rfl
@[simp] theorem latchRegs_cmd (w : Word) (s : State) : (latchRegs w s).cmd = w := rfl
@[simp] theorem latchRegs_status (w : Word) (s : State) : (latchRegs w s).status = Status.running := rfl
@[simp] theorem latchRegs_res (w : Word) (s : State) : (latchRegs w s).res = s.res := rfl
@[simp] theorem latchRegs_tid (w : Word) (s : State) : (latchRegs w s).tid = s.tid := rfl
@[simp] theorem latchRegs_args (w : Word) (s : State) : (latchRegs w s).args = s.args := rfl
@[simp] theorem latchRegs_wdata (w : Word) (s : State) : (latchRegs w s).wdata = s.wdata := rfl
@[simp] theorem latchRegs_ibuf (w : Word) (s : State) : (latchRegs w s).ibuf = s.ibuf := rfl
@[simp] theorem latchRegs_out (w : Word) (s : State) : (latchRegs w s).out = s.out := rfl
@[simp] theorem latchRegs_fsm (w : Word) (s : State) : (latchRegs w s).fsm = s.fsm := rfl
@[simp] theorem latchRegs_latched (w : Word) (s : State) : (latchRegs w s).latched = s.args := rfl
@[simp] theorem latchRegs_work (w : Word) (s : State) : (latchRegs w s).work = s.work := rfl
@[simp] theorem latchRegs_transport (w : Word) (s : State) : (latchRegs w s).transport = s.transport := rfl
@[simp] theorem latchRegs_host (w : Word) (s : State) : (latchRegs w s).host = s.host := rfl
@[simp] theorem latchRegs_env (w : Word) (s : State) : (latchRegs w s).env = s.env := rfl

@[simp] theorem complete_params (e : Ending) (bs : List Byte) (nd : Byte) (s : State) :
    (complete e bs nd s).params = s.params := rfl
@[simp] theorem complete_cmd (e : Ending) (bs : List Byte) (nd : Byte) (s : State) :
    (complete e bs nd s).cmd = s.cmd := rfl
@[simp] theorem complete_status (e : Ending) (bs : List Byte) (nd : Byte) (s : State) :
    (complete e bs nd s).status = Status.ended := rfl
@[simp] theorem complete_res (e : Ending) (bs : List Byte) (nd : Byte) (s : State) :
    (complete e bs nd s).res = { s.res with rc := endingRc e, cause := endingCause e, bc := BitVec.ofNat 8 bs.length, ndone := nd } := rfl
@[simp] theorem complete_tid (e : Ending) (bs : List Byte) (nd : Byte) (s : State) :
    (complete e bs nd s).tid = s.tid := rfl
@[simp] theorem complete_args (e : Ending) (bs : List Byte) (nd : Byte) (s : State) :
    (complete e bs nd s).args = s.args := rfl
@[simp] theorem complete_wdata (e : Ending) (bs : List Byte) (nd : Byte) (s : State) :
    (complete e bs nd s).wdata = s.wdata := rfl
@[simp] theorem complete_ibuf (e : Ending) (bs : List Byte) (nd : Byte) (s : State) :
    (complete e bs nd s).ibuf = s.ibuf := rfl
@[simp] theorem complete_out (e : Ending) (bs : List Byte) (nd : Byte) (s : State) :
    (complete e bs nd s).out = Memory.writeList s.out 0 bs := rfl
@[simp] theorem complete_fsm (e : Ending) (bs : List Byte) (nd : Byte) (s : State) :
    (complete e bs nd s).fsm = .idle := rfl
@[simp] theorem complete_latched (e : Ending) (bs : List Byte) (nd : Byte) (s : State) :
    (complete e bs nd s).latched = s.latched := rfl
@[simp] theorem complete_work (e : Ending) (bs : List Byte) (nd : Byte) (s : State) :
    (complete e bs nd s).work = s.work := rfl
@[simp] theorem complete_transport (e : Ending) (bs : List Byte) (nd : Byte) (s : State) :
    (complete e bs nd s).transport = s.transport := rfl
@[simp] theorem complete_host (e : Ending) (bs : List Byte) (nd : Byte) (s : State) :
    (complete e bs nd s).host = s.host := rfl
@[simp] theorem complete_env (e : Ending) (bs : List Byte) (nd : Byte) (s : State) :
    (complete e bs nd s).env = s.env := rfl

@[simp] theorem illegalCommand_params (w : Word) (s : State) : (illegalCommand w s).params = s.params := rfl
@[simp] theorem illegalCommand_cmd (w : Word) (s : State) : (illegalCommand w s).cmd = w := rfl
@[simp] theorem illegalCommand_status (w : Word) (s : State) : (illegalCommand w s).status = Status.ended := rfl
@[simp] theorem illegalCommand_res (w : Word) (s : State) :
    (illegalCommand w s).res = { s.res with rc := 0xFFFF, cause := 1, bc := 0, ndone := 0 } := rfl
@[simp] theorem illegalCommand_tid (w : Word) (s : State) : (illegalCommand w s).tid = s.tid := rfl
@[simp] theorem illegalCommand_args (w : Word) (s : State) : (illegalCommand w s).args = s.args := rfl
@[simp] theorem illegalCommand_wdata (w : Word) (s : State) : (illegalCommand w s).wdata = s.wdata := rfl
@[simp] theorem illegalCommand_ibuf (w : Word) (s : State) : (illegalCommand w s).ibuf = s.ibuf := rfl
@[simp] theorem illegalCommand_out (w : Word) (s : State) : (illegalCommand w s).out = s.out := rfl
@[simp] theorem illegalCommand_fsm (w : Word) (s : State) : (illegalCommand w s).fsm = .idle := rfl
@[simp] theorem illegalCommand_latched (w : Word) (s : State) : (illegalCommand w s).latched = s.args := rfl
@[simp] theorem illegalCommand_work (w : Word) (s : State) : (illegalCommand w s).work = s.work := rfl
@[simp] theorem illegalCommand_transport (w : Word) (s : State) : (illegalCommand w s).transport = s.transport := rfl
@[simp] theorem illegalCommand_host (w : Word) (s : State) : (illegalCommand w s).host = s.host := rfl
@[simp] theorem illegalCommand_env (w : Word) (s : State) : (illegalCommand w s).env = s.env := rfl

@[simp] theorem answered_params (s : State) (r : List EnvInput) (q : List Byte) (e : Event) :
    (s.answered r q e).params = s.params := rfl
@[simp] theorem answered_cmd (s : State) (r : List EnvInput) (q : List Byte) (e : Event) :
    (s.answered r q e).cmd = s.cmd := rfl
@[simp] theorem answered_status (s : State) (r : List EnvInput) (q : List Byte) (e : Event) :
    (s.answered r q e).status = s.status := rfl
@[simp] theorem answered_res (s : State) (r : List EnvInput) (q : List Byte) (e : Event) :
    (s.answered r q e).res = s.res := rfl
@[simp] theorem answered_tid (s : State) (r : List EnvInput) (q : List Byte) (e : Event) :
    (s.answered r q e).tid = s.tid := rfl
@[simp] theorem answered_args (s : State) (r : List EnvInput) (q : List Byte) (e : Event) :
    (s.answered r q e).args = s.args := rfl
@[simp] theorem answered_wdata (s : State) (r : List EnvInput) (q : List Byte) (e : Event) :
    (s.answered r q e).wdata = s.wdata := rfl
@[simp] theorem answered_ibuf (s : State) (r : List EnvInput) (q : List Byte) (e : Event) :
    (s.answered r q e).ibuf = s.ibuf := rfl
@[simp] theorem answered_out (s : State) (r : List EnvInput) (q : List Byte) (e : Event) :
    (s.answered r q e).out = s.out := rfl
@[simp] theorem answered_fsm (s : State) (r : List EnvInput) (q : List Byte) (e : Event) :
    (s.answered r q e).fsm = s.fsm := rfl
@[simp] theorem answered_latched (s : State) (r : List EnvInput) (q : List Byte) (e : Event) :
    (s.answered r q e).latched = s.latched := rfl
@[simp] theorem answered_work (s : State) (r : List EnvInput) (q : List Byte) (e : Event) :
    (s.answered r q e).work = s.work := rfl
@[simp] theorem answered_transport (s : State) (r : List EnvInput) (q : List Byte) (e : Event) :
    (s.answered r q e).transport = { inQ := q, trace := s.transport.trace ++ [e] } := rfl
@[simp] theorem answered_host (s : State) (r : List EnvInput) (q : List Byte) (e : Event) :
    (s.answered r q e).host = s.host := rfl
@[simp] theorem answered_env (s : State) (r : List EnvInput) (q : List Byte) (e : Event) :
    (s.answered r q e).env = r := rfl

@[simp] theorem resetEngine_params (s : State) : (resetEngine s).params = s.params := rfl
@[simp] theorem resetEngine_cmd (s : State) : (resetEngine s).cmd = State.reset.cmd := rfl
@[simp] theorem resetEngine_status (s : State) : (resetEngine s).status = State.reset.status := rfl
@[simp] theorem resetEngine_res (s : State) : (resetEngine s).res = State.reset.res := rfl
@[simp] theorem resetEngine_tid (s : State) : (resetEngine s).tid = State.reset.tid := rfl
@[simp] theorem resetEngine_args (s : State) : (resetEngine s).args = State.reset.args := rfl
@[simp] theorem resetEngine_wdata (s : State) : (resetEngine s).wdata = State.reset.wdata := rfl
@[simp] theorem resetEngine_ibuf (s : State) : (resetEngine s).ibuf = State.reset.ibuf := rfl
@[simp] theorem resetEngine_out (s : State) : (resetEngine s).out = State.reset.out := rfl
@[simp] theorem resetEngine_fsm (s : State) : (resetEngine s).fsm = State.reset.fsm := rfl
@[simp] theorem resetEngine_latched (s : State) : (resetEngine s).latched = State.reset.latched := rfl
@[simp] theorem resetEngine_work (s : State) : (resetEngine s).work = State.reset.work := rfl
@[simp] theorem resetEngine_transport (s : State) : (resetEngine s).transport = s.transport := rfl
@[simp] theorem resetEngine_host (s : State) : (resetEngine s).host = s.host := rfl
@[simp] theorem resetEngine_env (s : State) : (resetEngine s).env = s.env := rfl

end Sys2Proof.Machine
end

