-- ==== Sys2Proof/Laws/Ops.lean ====
section
/-! SUPPORT. One lemma per shared operation that says once everything it can do: the calls of the transport and the clock, the
latching, the completion step, and what exec is for a command that is idle or running. -/

namespace Sys2Proof.Machine

/-! ### Calls -/

theorem awaitTx_returned {bs : List Byte} {tmo : Option Nat} {k : Nat → State → Result} {s : State} {n : Nat}
    {rest : List EnvInput} (he : s.env = .txDone n :: rest) (hn : n ≤ bs.length) :
    awaitTx bs tmo k s = k n (s.answered rest s.transport.inQ (.txWrite bs tmo n)) := by
  simp [awaitTx, he, hn]

theorem awaitRx_returned {asked : Nat} {tmo : Option Nat} {k : List Byte → State → Result} {s : State}
    {bs left : List Byte} {rest : List EnvInput} (he : s.env = .rxDone bs.length :: rest)
    (hq : s.transport.inQ = bs ++ left) (hn : bs.length ≤ asked) :
    awaitRx asked tmo k s = k bs (s.answered rest left (.rxRead asked tmo bs)) := by
  simp [awaitRx, he, hq, Nat.not_lt.2 hn]

theorem awaitClock_returned {k : Clock → State → Result} {s : State} {v : Clock} {rest : List EnvInput}
    (he : s.env = .clock v :: rest) :
    awaitClock k s = k v (s.answered rest s.transport.inQ (.now v)) := by
  simp [awaitClock, he]

/-- If a write call goes on, it has not returned and nothing happened, or it returned `n` of its bytes. -/
theorem awaitTx_next {bs : List Byte} {tmo : Option Nat} {k : Nat → State → Result} {s t : State}
    (h : awaitTx bs tmo k s = .next t) :
    t = s ∨ ∃ n rest, s.env = .txDone n :: rest ∧ n ≤ bs.length ∧
      k n (s.answered rest s.transport.inQ (.txWrite bs tmo n)) = .next t := by
  unfold awaitTx at h
  split at h
  · rename_i n rest he
    split at h
    · exact .inr ⟨n, rest, he, ‹_›, h⟩
    · cases h
  · cases h
  · cases h
  · cases h; exact .inl rfl

/-- If a read call goes on, it has not returned and nothing happened, or it returned at most what was asked from the head of the
inbound queue. -/
theorem awaitRx_next {asked : Nat} {tmo : Option Nat} {k : List Byte → State → Result} {s t : State}
    (h : awaitRx asked tmo k s = .next t) :
    t = s ∨ ∃ bs left rest, s.env = .rxDone bs.length :: rest ∧ bs.length ≤ asked ∧ s.transport.inQ = bs ++ left ∧
      k bs (s.answered rest left (.rxRead asked tmo bs)) = .next t := by
  unfold awaitRx at h
  split at h
  · rename_i n rest he
    split at h
    · cases h
    · split at h
      · cases h
      · rename_i h1 h2
        have hl : (s.transport.inQ.take n).length = n := by simp; omega
        exact .inr ⟨s.transport.inQ.take n, s.transport.inQ.drop n, rest, by rw [hl]; exact he, by omega,
          (List.take_append_drop n _).symm, h⟩
  · cases h
  · cases h
  · cases h; exact .inl rfl

/-- If a clock sample goes on, there is none yet and nothing happened, or it is `v`. -/
theorem awaitClock_next {k : Clock → State → Result} {s t : State} (h : awaitClock k s = .next t) :
    t = s ∨ ∃ v rest, s.env = .clock v :: rest ∧ k v (s.answered rest s.transport.inQ (.now v)) = .next t := by
  unfold awaitClock at h
  split at h
  · exact .inr ⟨_, _, ‹_›, h⟩
  · cases h
  · cases h
  · cases h; exact .inl rfl

/-- What the world does by itself changes only the transport's inbound queue and the world's list. -/
theorem worldAct_next {s t : State} (h : worldAct s = .next t) :
    ∃ rest inQ, t = { s with env := rest, transport := { s.transport with inQ := inQ } } := by
  unfold worldAct at h
  split at h
  · cases h; exact ⟨_, _, rfl⟩
  · split at h
    · cases h
    · cases h; exact ⟨_, _, rfl⟩
  · cases h; exact ⟨_, _, rfl⟩
  · cases h; exact ⟨s.env, s.transport.inQ, rfl⟩

/-! ### Latching and running -/

theorem command_idle {i : Instr} {start : State → Result} {event : Point → State → Result} {s : State}
    (h : s.status.busy = false) : command i start event s = latch i start s := by
  simp [command, h]

theorem command_running {i : Instr} {pt : Point} {start : State → Result} {event : Point → State → Result} {s : State}
    (hb : s.status.busy = true) (hf : s.fsm = .run i pt) : command i start event s = event pt s := by
  simp [command, hb, hf]

/-- A start of a command while another one runs is ignored (R44). -/
theorem command_other {i j : Instr} {pt : Point} {start : State → Result} {event : Point → State → Result} {s : State}
    (hb : s.status.busy = true) (hf : s.fsm = .run j pt) (hij : j ≠ i) : command i start event s = .next s := by
  simp [command, hb, hf, hij]

theorem latch_legal {i : Instr} {start : State → Result} {s : State} (h : legal s.params.kind s.args.qty i = true) :
    latch i start s = start (latchRegs (encode i) s) := by
  simp [latch, h]

theorem latch_illegal {i : Instr} {start : State → Result} {s : State} (h : legal s.params.kind s.args.qty i = false) :
    latch i start s = .next (illegalCommand (encode i) s) := by
  simp [latch, h]

/-- How each command starts (44_master_api.md, R105, R205). -/
def startOf : Instr → State → Result
  | .rtuRdCoils => rtuStartFixed .rtuRdCoils 0x01
  | .rtuRdDiscrete => rtuStartFixed .rtuRdDiscrete 0x02
  | .rtuRdHolding => rtuStartFixed .rtuRdHolding 0x03
  | .rtuRdInput => rtuStartFixed .rtuRdInput 0x04
  | .rtuWrCoil => rtuStartFixed .rtuWrCoil 0x05
  | .rtuWrReg => rtuStartFixed .rtuWrReg 0x06
  | .rtuWrMulti => rtuStartMulti .rtuWrMulti
  | .tcpRdCoils => tcpStartRead .tcpRdCoils 0x01
  | .tcpRdDiscrete => tcpStartRead .tcpRdDiscrete 0x02
  | .tcpRdHolding => tcpStartRead .tcpRdHolding 0x03
  | .tcpRdInput => tcpStartRead .tcpRdInput 0x04
  | .tcpWrCoil => tcpCoilStart
  | .tcpWrReg => fun s => tcpSend .tcpWrReg .main 0x06 s.latched.start s.latched.qty s
  | .tcpWrMulti => tcpMultiStart
  | .utilCrc16 => utilStart .utilCrc16
  | .utilSwap => utilStart .utilSwap

/-- What each running command does next at a point. -/
def eventOf : Instr → Point → State → Result
  | .rtuRdCoils => rtuEvent .rtuRdCoils 0x01 .read
  | .rtuRdDiscrete => rtuEvent .rtuRdDiscrete 0x02 .read
  | .rtuRdHolding => rtuEvent .rtuRdHolding 0x03 .read
  | .rtuRdInput => rtuEvent .rtuRdInput 0x04 .read
  | .rtuWrCoil => rtuEvent .rtuWrCoil 0x05 (.write 0)
  | .rtuWrReg => rtuEvent .rtuWrReg 0x06 (.write 0)
  | .rtuWrMulti => fun pt s => rtuEvent .rtuWrMulti 0x10 (.write (lo s.latched.qty)) pt s
  | .tcpRdCoils => tcpReadCommand .tcpRdCoils 0x01
  | .tcpRdDiscrete => tcpReadCommand .tcpRdDiscrete 0x02
  | .tcpRdHolding => tcpReadCommand .tcpRdHolding 0x03
  | .tcpRdInput => tcpReadCommand .tcpRdInput 0x04
  | .tcpWrCoil => tcpCoilEvent
  | .tcpWrReg => tcpRegEvent
  | .tcpWrMulti => tcpMultiEvent
  | .utilCrc16 => utilEvent utilCrcCompute
  | .utilSwap => utilEvent utilSwapCompute

/-- exec is one action of a command: its start and its events are all that tells the commands apart. -/
theorem exec_eq_command (i : Instr) (s : State) : exec i s = command i (startOf i) (eventOf i) s := by
  cases i <;> rfl

theorem exec_running {i : Instr} {pt : Point} {s : State} (hb : s.status.busy = true) (hf : s.fsm = .run i pt) :
    exec i s = eventOf i pt s := by
  rw [exec_eq_command, command_running hb hf]

theorem exec_idle_legal {i : Instr} {s : State} (hb : s.status.busy = false)
    (h : legal s.params.kind s.args.qty i = true) : exec i s = startOf i (latchRegs (encode i) s) := by
  rw [exec_eq_command, command_idle hb, latch_legal h]

theorem exec_idle_illegal {i : Instr} {s : State} (hb : s.status.busy = false)
    (h : legal s.params.kind s.args.qty i = false) : exec i s = .next (illegalCommand (encode i) s) := by
  rw [exec_eq_command, command_idle hb, latch_illegal h]

/-- Everything an action of command `i` can do: be ignored, end an illegal command, start, or take the event at its point. -/
theorem exec_next {i : Instr} {s t : State} (h : exec i s = .next t) :
    t = s ∨
    (s.status.busy = false ∧ legal s.params.kind s.args.qty i = false ∧ t = illegalCommand (encode i) s) ∨
    (s.status.busy = false ∧ legal s.params.kind s.args.qty i = true ∧
      startOf i (latchRegs (encode i) s) = .next t) ∨
    (∃ pt, s.status.busy = true ∧ s.fsm = .run i pt ∧ eventOf i pt s = .next t) := by
  cases hb : s.status.busy with
  | false =>
    cases hl : legal s.params.kind s.args.qty i with
    | false =>
      rw [exec_idle_illegal hb hl] at h
      cases h
      exact .inr (.inl ⟨rfl, rfl, rfl⟩)
    | true =>
      rw [exec_idle_legal hb hl] at h
      exact .inr (.inr (.inl ⟨rfl, rfl, h⟩))
  | true =>
    cases hf : s.fsm with
    | idle =>
      rw [exec_eq_command, command, if_pos hb, hf] at h
      cases h
      exact .inl rfl
    | run j pt =>
      by_cases hij : j = i
      · subst hij
        rw [exec_running hb hf] at h
        exact .inr (.inr (.inr ⟨pt, rfl, rfl, h⟩))
      · rw [exec_eq_command, command_other hb hf hij] at h
        cases h
        exact .inl rfl

/-! ### The turn -/

/-- Everything a step can do: a host operation, the host waiting no longer, or the turn of the engine and the world. -/
theorem step_cases (s : State) :
    (∃ op rest, s.host = op :: rest ∧ op ≠ .wait ∧ op ≠ .pause ∧ step s = hostAct op { s with host := rest }) ∨
    (∃ rest, s.host = .wait :: rest ∧ s.status.done = true ∧ step s = .next { s with host := rest }) ∨
    (∃ host, step s = engineTurn { s with host := host }) := by
  unfold step turn
  split
  · exact .inr (.inr ⟨s.host, rfl⟩)
  · rename_i rest hh
    split
    · exact .inr (.inl ⟨rest, hh, ‹_›, rfl⟩)
    · exact .inr (.inr ⟨s.host, rfl⟩)
  · rename_i rest hh
    exact .inr (.inr ⟨rest, rfl⟩)
  · rename_i op rest hw hp hh
    exact .inl ⟨op, rest, hh, fun h => hw (h ▸ rfl), fun h => hp (h ▸ rfl), rfl⟩

/-- Everything the turn of the engine and the world can do: the running command acts, or the world does something by itself. -/
theorem engineTurn_cases (s : State) :
    (∃ i pt, s.status.busy = true ∧ s.fsm = .run i pt ∧ engineTurn s = exec i s) ∨ engineTurn s = worldAct s := by
  unfold engineTurn
  split
  · rename_i hb
    split
    · exact .inr rfl
    · exact .inl ⟨_, _, hb, ‹_›, rfl⟩
    · split
      · exact .inr rfl
      · exact .inl ⟨_, _, hb, ‹_›, rfl⟩
  · exact .inr rfl

end Sys2Proof.Machine
end

