-- ==== Sys2Proof/Laws/Events.lean ====
section
/-! SUPPORT. Everything the latching and one event of a command can do, said once: `started` for the latching, `happened` for an
event. Frames and invariants follow from these by cases, with no command's pseudocode unfolded. -/

namespace Sys2Proof.Machine

/-! ### What an action carries along -/

/-- No event, or one event with its one answer: `t` has one more recorded event than `s`, and the world one answer less (R61). -/
def OneEvent (s t : State) : Prop := (t.transport = s.transport ∧ t.env = s.env) ∨ VisibleEvent s t

/-- `t` is `s` but for fsm, the working values and one event. -/
structure Carried (s t : State) : Prop where
  params  : t.params = s.params
  args    : t.args = s.args
  wdata   : t.wdata = s.wdata
  ibuf    : t.ibuf = s.ibuf
  host    : t.host = s.host
  cmd     : t.cmd = s.cmd
  latched : t.latched = s.latched
  tid     : t.tid = s.tid
  res     : t.res = s.res
  out     : t.out = s.out
  status  : t.status = s.status
  event   : OneEvent s t

theorem Carried.refl (s : State) : Carried s s := ⟨rfl, rfl, rfl, rfl, rfl, rfl, rfl, rfl, rfl, rfl, rfl, .inl ⟨rfl, rfl⟩⟩

theorem Carried.withWork {s t : State} (h : Carried s t) (w : Work) : Carried s { t with work := w } :=
  ⟨h.1, h.2, h.3, h.4, h.5, h.6, h.7, h.8, h.9, h.10, h.11, h.12⟩

/-- The premises under which a running command's working values stay sound. -/
structure Before (i : Instr) (pt : Point) (s : State) : Prop where
  point : PointOk i pt s
  rxbuf : s.work.rxbuf.length ≤ 260
  legal : legal s.params.kind s.latched.qty i = true

/-- The refusals that only the outside world causes. -/
abbrev inputRefusals : List Refusal :=
  [.overlongWrite, .overlongRead, .phantomBytes, .clockWentBack, .wrongAnswer, .lostRetainedBytes]

/-- An ending a running command can have: not the cause NONE, ILLEGAL_CMD or SERVER_EXCEPTION of a local failure (R260, R262). -/
structure EndingOk (e : Ending) : Prop where
  none   : e ≠ .fail .none
  illegal : e ≠ .fail .illegalCmd
  server : e ≠ .fail .serverException

/-- The OUT bytes a command may write at its end (R131, R169, R170, R205, R221). -/
structure BytesOk (i : Instr) (e : Ending) (bytes : List Byte) : Prop where
  short    : bytes.length < 256
  noCommit : i ∉ rtuReads → i ∉ tcpReads → i ≠ .utilSwap → bytes = []
  rtu      : i ∈ rtuReads → e ≠ .success → bytes = []
  tcp      : ∀ k, i ∈ tcpReads → e = .serverExc k → bytes = []

theorem BytesOk.nil (i : Instr) (e : Ending) : BytesOk i e [] :=
  ⟨by simp, fun _ _ _ => rfl, fun _ _ => rfl, fun _ _ _ => rfl⟩

/-- What one event of command `i` at `pt` can answer. -/
inductive Happened (i : Instr) (pt : Point) (s : State) : Result → Prop
  | waits : Happened i pt s (.next s)
  | refuses (r : Refusal) (h : Before i pt s → r ∈ inputRefusals) : Happened i pt s (.refused r)
  | faults (f : Fault) : Happened i pt s (.fault f)
  | moves (pt' : Point) (t : State) (hc : Carried s t)
      (hp : Before i pt s → PointOk i pt' t ∧ t.work.rxbuf.length ≤ 260) : Happened i pt s (.next (goto i pt' t))
  | sends (txn : TcpTxn) (frame : List Byte) (t : State) (hc : Carried s t) (hi : i ∈ tcpAll) (hl : frame.length = 12)
      (hf : headerTid frame = s.tid + 1)
      (hp : Before i pt s →
        (txn = .preRead → i = .tcpWrCoil) ∧ (i = .tcpWrMulti → t.work.i.toNat < s.latched.qty.toNat) ∧
        t.work.rxbuf.length ≤ 260) :
      Happened i pt s (.next (goto i (.tcp txn (.tx frame)) { t with tid := s.tid + 1 }))
  | ends (e : Ending) (bytes : List Byte) (nd : Byte) (t : State) (hc : Carried s t) (he : EndingOk e)
      (hb : (i = .utilSwap → s.latched.qty.toNat ≤ 127) → BytesOk i e bytes)
      (hp : Before i pt s → nd.toNat ≤ 127 ∧ t.work.rxbuf.length ≤ 260) : Happened i pt s (.next (complete e bytes nd t))
  | endsCrc (c : Word) (w : Work) (hi : i = .utilCrc16) (hw : w.rxbuf = s.work.rxbuf) :
      Happened i pt s (.next (complete .success [] 0 { s with res := { s.res with crcr := c }, work := w }))

/-! ### The three calls -/

theorem happened_awaitTx {i : Instr} {pt : Point} {s : State} {bs : List Byte} {tmo : Option Nat} {k : Nat → State → Result}
    (hk : ∀ n t, Carried s t → t.work = s.work → Happened i pt s (k n t)) : Happened i pt s (awaitTx bs tmo k s) := by
  unfold awaitTx
  split
  · split
    · exact hk _ _ ⟨rfl, rfl, rfl, rfl, rfl, rfl, rfl, rfl, rfl, rfl, rfl, .inr ⟨_, _, rfl, ‹_›, rfl, ‹_›, rfl⟩⟩ rfl
    · exact .refuses _ fun _ => by simp
  · exact .refuses _ fun _ => by simp
  · exact .refuses _ fun _ => by simp
  · exact .waits

theorem happened_awaitRx {i : Instr} {pt : Point} {s : State} {n : Nat} {tmo : Option Nat} {k : List Byte → State → Result}
    (hk : ∀ bs t, Carried s t → t.work = s.work → bs.length ≤ n → Happened i pt s (k bs t)) :
    Happened i pt s (awaitRx n tmo k s) := by
  unfold awaitRx
  split
  · rename_i m rest he
    split
    · exact .refuses _ fun _ => by simp
    · split
      · exact .refuses _ fun _ => by simp
      · have hl : (s.transport.inQ.take m).length = m := by simp; omega
        exact hk _ _ ⟨rfl, rfl, rfl, rfl, rfl, rfl, rfl, rfl, rfl, rfl, rfl,
          .inr ⟨_, _, rfl, he, by rw [hl], by omega, by simp⟩⟩ rfl (by omega)
  · exact .refuses _ fun _ => by simp
  · exact .refuses _ fun _ => by simp
  · exact .waits

theorem happened_awaitClock {i : Instr} {pt : Point} {s : State} {k : Clock → State → Result}
    (hk : ∀ v t, Carried s t → t.work = s.work → Happened i pt s (k v t)) : Happened i pt s (awaitClock k s) := by
  unfold awaitClock
  split
  · exact hk _ _ ⟨rfl, rfl, rfl, rfl, rfl, rfl, rfl, rfl, rfl, rfl, rfl, .inr ⟨_, _, rfl, ‹_›, rfl, rfl⟩⟩ rfl
  · exact .refuses _ fun _ => by simp
  · exact .refuses _ fun _ => by simp
  · exact .waits

/-- A point the command does not have is refused, and no sound state is at it. -/
theorem happened_stray {i : Instr} {pt : Point} {s : State} (h : ¬ PointOk i pt s) : Happened i pt s (.refused .strayPoint) :=
  .refuses _ fun hb => absurd hb.point h

/-! ### RTU events -/

theorem rtuAll_cases {i : Instr} : i ∈ rtuAll ↔ i ∈ rtuReads ∨ i ∈ rtuWrites := List.mem_append

theorem rtu_ne_multi {i : Instr} (h : i ∈ rtuAll) : i ≠ .tcpWrMulti := by rintro rfl; simp at h

theorem happened_endPlain {i : Instr} {pt : Point} {s t : State} (hc : Carried s t) {e : Ending} (he : EndingOk e)
    (hr : s.work.rxbuf.length ≤ 260 → t.work.rxbuf.length ≤ 260) : Happened i pt s (endPlain e t) :=
  .ends e [] 0 t hc he (fun _ => BytesOk.nil i e) fun h => ⟨by simp, hr h.rxbuf⟩

theorem happened_checkStart {i : Instr} {pt : Point} {s t : State} {fc : Byte} {ok : State → Result} (hc : Carried s t)
    (hr : s.work.rxbuf.length ≤ 260 → t.work.rxbuf.length ≤ 260) (hok : Happened i pt s (ok t)) :
    Happened i pt s (rtuCheckStart fc ok t) := by
  unfold rtuCheckStart
  split
  · exact happened_endPlain hc ⟨by simp, by simp, by simp⟩ hr
  · split
    · exact happened_endPlain hc ⟨by simp, by simp, by simp⟩ hr
    · exact happened_endPlain hc ⟨by simp, by simp, by simp⟩ hr
    · exact hok

theorem happened_readBegin {i : Instr} {pt : Point} {s t : State} {last : Clock} (hi : i ∈ rtuReads) (hc : Carried s t)
    (hl : t.work.rxbuf.length = 3) : Happened i pt s (rtuReadBegin i last t) := by
  have ha : i ∈ rtuAll := rtuAll_cases.2 (.inl hi)
  refine .moves _ _ (hc.withWork _) fun _ =>
    ⟨⟨fun h => absurd h (rtu_ne_multi ha), ha, ?_, ?_⟩, by show t.work.rxbuf.length ≤ 260; omega⟩
  · split <;> simpa [rtuPhaseOk] using hi
  · show t.work.rxbuf.length < _
    rw [hl]
    split
    · simp only [rtuTarget]; omega
    · rename_i h
      have : (byteAt t.work.rxbuf 2).toNat ≠ 0 := fun hz => h (BitVec.eq_of_toNat_eq hz)
      simp only [rtuTarget]; omega

theorem happened_readCheck {i : Instr} {pt : Point} {s t : State} {fc : Byte} (hi : i ∈ rtuReads) (hc : Carried s t)
    (hr : s.work.rxbuf.length ≤ 260 → t.work.rxbuf.length ≤ 260) : Happened i pt s (rtuReadCheck fc t) := by
  have hb := t.work.bcnt.isLt
  unfold rtuReadCheck
  simp only []
  split
  · refine .ends _ _ _ _ (hc.withWork _) ⟨by simp, by simp, by simp⟩
      (fun _ => ⟨?_, fun h => absurd hi h, by simp, by simp⟩) fun h => ⟨by simp, hr h.rxbuf⟩
    simp [rtuPayloadBytes]
    omega
  · exact happened_endPlain (hc.withWork _) ⟨by simp, by simp, by simp⟩ hr

theorem happened_writeCheck {i : Instr} {pt : Point} {s t : State} {a b : Word} {nd : Byte} (hc : Carried s t)
    (hr : s.work.rxbuf.length ≤ 260 → t.work.rxbuf.length ≤ 260) (hn : Before i pt s → nd.toNat ≤ 127) :
    Happened i pt s (rtuWriteCheck a b nd t) := by
  unfold rtuWriteCheck
  simp only []
  split
  · exact happened_endPlain hc ⟨by simp, by simp, by simp⟩ hr
  · split
    · exact .ends _ _ _ _ (hc.withWork _) ⟨by simp, by simp, by simp⟩ (fun _ => BytesOk.nil i _)
        fun h => ⟨hn h, hr h.rxbuf⟩
    · exact happened_endPlain (hc.withWork _) ⟨by simp, by simp, by simp⟩ hr

/-- Which of the two responses a command parses. -/
def ParseOk (i : Instr) (kind : RtuParse) : Prop :=
  match kind with
  | .read => i ∈ rtuReads
  | .write _ => i ∈ rtuWrites

theorem ParseOk.all {i : Instr} {kind : RtuParse} (h : ParseOk i kind) : i ∈ rtuAll := by
  cases kind
  · exact rtuAll_cases.2 (.inl h)
  · exact rtuAll_cases.2 (.inr h)

theorem reads_not_writes {i : Instr} (h : i ∈ rtuReads) : i ∉ rtuWrites := by
  simp at h
  rcases h with rfl | rfl | rfl | rfl <;> simp

theorem happened_partDone {i : Instr} {fc : Byte} {kind : RtuParse} {ph : RtuPhase} {last : Clock} {s t : State}
    (hk : ParseOk i kind) (hn : ∀ n, kind = .write n → Before i (.rtuRx ph last) s → n.toNat ≤ 127) (hc : Carried s t)
    (hr : s.work.rxbuf.length ≤ 260 → t.work.rxbuf.length ≤ 260)
    (hl : t.work.rxbuf.length = rtuTarget ph t.work.bcnt) :
    Happened i (.rtuRx ph last) s (rtuPartDone i fc kind ph last t) := by
  have hm := rtu_ne_multi hk.all
  cases kind with
  | read =>
    have hi : i ∈ rtuReads := hk
    cases ph with
    | start => exact happened_checkStart hc hr (happened_readBegin hi hc hl)
    | payload =>
      refine .moves _ _ hc fun h =>
        ⟨⟨fun h => absurd h hm, hk.all, by simpa [rtuPhaseOk] using hi, ?_⟩, hr h.rxbuf⟩
      rw [hl]
      simp only [rtuTarget]
      omega
    | trailer => exact happened_readCheck hi hc hr
    | echo => exact happened_stray fun h => reads_not_writes hi (by simpa [rtuPhaseOk] using h.2.2.1)
  | write n =>
    have hi : i ∈ rtuWrites := hk
    have no : ∀ {P : Prop}, i ∈ rtuReads → P := fun h => absurd hi (reads_not_writes h)
    cases ph with
    | start =>
      refine happened_checkStart (ok := fun s => .next (goto i (.rtuRx .echo last) s)) hc hr (.moves _ _ hc fun h =>
        ⟨⟨fun h => absurd h hm, hk.all, by simpa [rtuPhaseOk] using hi, ?_⟩, hr h.rxbuf⟩)
      rw [hl]
      simp only [rtuTarget]
      omega
    | payload => exact happened_stray fun h => no (by simpa [rtuPhaseOk] using h.2.2.1)
    | trailer => exact happened_stray fun h => no (by simpa [rtuPhaseOk] using h.2.2.1)
    | echo => exact happened_writeCheck hc hr (hn n rfl)

theorem rtuTarget_le (ph : RtuPhase) (b : Byte) : rtuTarget ph b ≤ 260 := by
  have := b.isLt
  cases ph <;> simp only [rtuTarget] <;> omega

theorem happened_rtuRx {i : Instr} {fc : Byte} {kind : RtuParse} {ph : RtuPhase} {last : Clock} {s : State}
    (hk : ParseOk i kind) (hn : ∀ n, kind = .write n → Before i (.rtuRx ph last) s → n.toNat ≤ 127) :
    Happened i (.rtuRx ph last) s (rtuEvent i fc kind (.rtuRx ph last) s) := by
  have hm := rtu_ne_multi hk.all
  have hle := rtuTarget_le ph s.work.bcnt
  unfold rtuEvent
  refine happened_awaitRx fun bs t hc hw hlen => ?_
  have hall : s.work.rxbuf.length ≤ 260 → (s.work.rxbuf ++ bs).length ≤ 260 := by
    intro h
    simp only [rtuMissing] at hlen
    simp
    omega
  simp only [hw]
  split
  · exact happened_partDone hk hn (hc.withWork _) hall ‹_›
  · rename_i hne
    refine .moves _ _ (hc.withWork _) fun h => ⟨⟨fun h => absurd h hm, hk.all, h.point.2.2.1, ?_⟩, hall h.rxbuf⟩
    have := h.point.2.2.2
    simp only [rtuMissing] at hlen
    simp at hne ⊢
    omega

/-- Every event of an RTU command. -/
theorem happened_rtuEvent {i : Instr} {fc : Byte} {kind : RtuParse} {pt : Point} {s : State} (hk : ParseOk i kind)
    (hn : ∀ n, kind = .write n → Before i pt s → n.toNat ≤ 127) : Happened i pt s (rtuEvent i fc kind pt s) := by
  have ha := hk.all
  have hm := rtu_ne_multi ha
  cases pt with
  | rtuTx chunk more =>
    unfold rtuEvent
    refine happened_awaitTx fun n t hc hw => ?_
    split
    · exact happened_endPlain hc ⟨by simp, by simp, by simp⟩ (by rw [hw]; exact id)
    · split
      · exact .moves _ _ hc fun h => ⟨⟨fun h => absurd h hm, ha⟩, by rw [hw]; exact h.rxbuf⟩
      · exact .moves _ _ hc fun h => ⟨⟨fun h => absurd h hm, ha⟩, by rw [hw]; exact h.rxbuf⟩
  | rtuT0 =>
    unfold rtuEvent
    exact happened_awaitClock fun v t hc _ => .moves _ _ (hc.withWork _) fun _ =>
      ⟨⟨fun h => absurd h hm, ha, rfl, by simp [rtuTarget]⟩, by simp⟩
  | rtuRx ph last => exact happened_rtuRx hk hn
  | rtuClk ph last =>
    unfold rtuEvent
    refine happened_awaitClock fun v t hc hw => ?_
    split
    · exact .refuses _ fun _ => by simp
    · split
      · exact happened_endPlain hc ⟨by simp, by simp, by simp⟩ (by rw [hw]; exact id)
      · exact .moves _ _ hc fun h =>
          ⟨⟨fun h => absurd h hm, by rw [hw]; exact h.point.2⟩, by rw [hw]; exact h.rxbuf⟩
  | tcp txn ph =>
    refine happened_stray fun h => ?_
    have := h.2.1
    cases i <;> simp at ha this
  | compute =>
    refine happened_stray fun h => ?_
    have := h.2
    cases i <;> simp at ha this

/-! ### TCP events -/

theorem tcpAll_cases {i : Instr} : i ∈ tcpAll ↔ i ∈ tcpReads ∨ i ∈ tcpWrites := List.mem_append

/-- A state in which a transaction ends. -/
structure AtEnd (s t : State) : Prop where
  carried : Carried s t
  i       : t.work.i = s.work.i
  rxbuf   : s.work.rxbuf.length ≤ 260 → t.work.rxbuf.length ≤ 260

theorem AtEnd.withWork {s t : State} (h : AtEnd s t) {w : Work} (hi : w.i = t.work.i) (hr : w.rxbuf = t.work.rxbuf) :
    AtEnd s { t with work := w } :=
  ⟨h.carried.withWork w, hi.trans h.i, fun hs => by show w.rxbuf.length ≤ 260; rw [hr]; exact h.rxbuf hs⟩

/-- The ends a transaction has: a payload of at most 255 bytes, or one of four causes (R162 to R170). -/
structure TxnEndOk (e : TxnEnd) : Prop where
  short : ∀ d, e = .ok d → d.length < 256
  cause : ∀ c, e = .fail c → c = .shortWrite ∨ c = .shortRead ∨ c = .funcMismatch ∨ c = .tidMismatch

theorem TxnEndOk.ending {e : TxnEnd} (h : TxnEndOk e) : EndingOk e.ending := by
  cases e with
  | ok d => exact ⟨by simp [TxnEnd.ending], by simp [TxnEnd.ending], by simp [TxnEnd.ending]⟩
  | fail c =>
    rcases h.cause c rfl with rfl | rfl | rfl | rfl <;>
      exact ⟨by simp [TxnEnd.ending], by simp [TxnEnd.ending], by simp [TxnEnd.ending]⟩
  | serverExc k => exact ⟨by simp [TxnEnd.ending], by simp [TxnEnd.ending], by simp [TxnEnd.ending]⟩

theorem happened_tcpSend {i : Instr} {pt : Point} {s t : State} {txn : TcpTxn} {fc : Byte} {a b : Word} (hc : Carried s t)
    (hr : s.work.rxbuf.length ≤ 260 → t.work.rxbuf.length ≤ 260) (hi : i ∈ tcpAll) (hp : txn = .preRead → i = .tcpWrCoil)
    (hm : Before i pt s → i = .tcpWrMulti → t.work.i.toNat < s.latched.qty.toNat) :
    Happened i pt s (tcpSend i txn fc a b t) := by
  unfold tcpSend
  rw [hc.tid]
  exact .sends _ _ _ hc hi (by simp) (by simp) fun h => ⟨hp, hm h, hr h.rxbuf⟩

theorem happened_tcpReadEvent {i : Instr} {txn : TcpTxn} {fc : Byte} {fin : TxnEnd → State → Result} {ph : TcpPhase}
    {s : State} (hi : i ∈ tcpAll) (hp : txn = .preRead → i = .tcpWrCoil) (hrd : i ∈ tcpReads ∨ txn = .preRead)
    (hfin : ∀ e t, AtEnd s t → TxnEndOk e → Happened i (.tcp txn ph) s (fin e t)) :
    Happened i (.tcp txn ph) s (tcpReadEvent i txn fc fin ph s) := by
  have hm : i ≠ .tcpWrMulti := by
    rintro rfl
    rcases hrd with h | h
    · simp at h
    · cases hp h
  unfold tcpReadEvent
  cases ph with
  | tx frame =>
    refine happened_awaitTx fun n t hc hw => ?_
    split
    · exact hfin _ _ ⟨hc.withWork _, by rw [hw], by rw [hw]; exact id⟩ ⟨by simp, by simp⟩
    · exact .moves _ _ hc fun h => ⟨⟨fun h => absurd h hm, hi, hp, trivial⟩, by rw [hw]; exact h.rxbuf⟩
  | header =>
    refine happened_awaitRx fun hdr t hc hw hl => ?_
    have hi' : t.work.i = s.work.i := by rw [hw]
    have h9 : s.work.rxbuf.length ≤ 260 → hdr.length ≤ 260 := fun _ => by omega
    simp only []
    split
    · exact hfin _ _ ⟨hc.withWork _, hi', h9⟩ ⟨by simp, by simp⟩
    · unfold tcpReadHeader
      split
      · split
        · exact hfin _ _ ⟨hc.withWork _, hi', h9⟩ ⟨by simp, by simp⟩
        · exact hfin _ _ ⟨hc.withWork _, hi', h9⟩ ⟨by simp, by simp⟩
        · simp only []
          split
          · exact hfin _ _ ⟨hc.withWork _, hi', h9⟩ ⟨by rintro d ⟨⟩; simp, by simp⟩
          · exact .moves _ _ (hc.withWork _) fun h => ⟨⟨fun h => absurd h hm, hi, hp, hrd, ‹_›⟩, h9 h.rxbuf⟩
      · split
        · exact .moves _ _ (hc.withWork _) fun h => ⟨⟨fun h => absurd h hm, hi, hp, trivial⟩, h9 h.rxbuf⟩
        · exact hfin _ _ ⟨hc.withWork _, hi', h9⟩ ⟨by simp, by simp⟩
  | payload =>
    refine happened_awaitRx fun d t hc hw hl => ?_
    have hi' : t.work.i = s.work.i := by rw [hw]
    have hb := s.work.bcnt.isLt
    have hd : s.work.rxbuf.length ≤ 260 → d.length ≤ 260 := fun _ => by omega
    simp only []
    split
    · exact hfin _ _ ⟨hc.withWork _, hi', hd⟩ ⟨by simp, by simp⟩
    · exact hfin _ _ ⟨hc.withWork _, hi', hd⟩ ⟨by rintro d ⟨⟩; omega, by simp⟩
  | rest =>
    refine happened_stray fun h => ?_
    have hh := h.2.2.2
    rcases hrd with hr | hr
    · cases i <;> simp at hr hh
    · simp [hr] at hh

theorem happened_tcpWriteEvent {i : Instr} {fc : Byte} {fin : TxnEnd → State → Result} {ph : TcpPhase} {s : State}
    (hi : i ∈ tcpWrites) (hfin : ∀ e t, AtEnd s t → TxnEndOk e → Happened i (.tcp .main ph) s (fin e t)) :
    Happened i (.tcp .main ph) s (tcpWriteEvent i .main fc fin ph s) := by
  have ha : i ∈ tcpAll := tcpAll_cases.2 (.inr hi)
  unfold tcpWriteEvent
  cases ph with
  | tx frame =>
    refine happened_awaitTx fun n t hc hw => ?_
    split
    · exact hfin _ _ ⟨hc, by rw [hw], by rw [hw]; exact id⟩ ⟨by simp, by simp⟩
    · exact .moves _ _ hc fun h =>
        ⟨⟨by rw [hw, hc.latched]; exact h.point.1, ha, by simp, trivial⟩, by rw [hw]; exact h.rxbuf⟩
  | header =>
    refine happened_awaitRx fun hdr t hc hw hl => ?_
    have hi' : t.work.i = s.work.i := by rw [hw]
    have h9 : s.work.rxbuf.length ≤ 260 → hdr.length ≤ 260 := fun _ => by omega
    simp only []
    split
    · exact hfin _ _ ⟨hc.withWork _, hi', h9⟩ ⟨by simp, by simp⟩
    · unfold tcpWriteHeader
      split
      · exact hfin _ _ ⟨hc.withWork _, hi', h9⟩ ⟨by simp, by simp⟩
      · split
        · exact hfin _ _ ⟨hc.withWork _, hi', h9⟩ ⟨by simp, by simp⟩
        · exact hfin _ _ ⟨hc.withWork _, hi', h9⟩ ⟨by simp, by simp⟩
        · refine .moves _ _ (hc.withWork _) fun h => ⟨⟨?_, ha, by simp, hi, rfl⟩, h9 h.rxbuf⟩
          show i = .tcpWrMulti → t.work.i.toNat < t.latched.qty.toNat
          rw [hi', hc.latched]
          exact h.point.1
  | rest =>
    refine happened_awaitRx fun d t hc hw hl => ?_
    have hi' : t.work.i = s.work.i := by rw [hw]
    have hd : s.work.rxbuf.length ≤ 260 → d.length ≤ 260 := fun _ => by omega
    simp only []
    split
    · exact hfin _ _ ⟨hc.withWork _, hi', hd⟩ ⟨by simp, by simp⟩
    · exact hfin _ _ ⟨hc.withWork _, hi', hd⟩ ⟨by rintro d ⟨⟩; simp, by simp⟩
  | payload =>
    refine happened_stray fun h => ?_
    have hh := h.2.2.2.1
    cases i <;> simp at hi hh

theorem happened_tcpReadEnd {i : Instr} {pt : Point} {s t : State} {fc : Byte} {e : TxnEnd} (hi : i ∈ tcpReads)
    (ht : AtEnd s t) (he : TxnEndOk e) : Happened i pt s (tcpReadEnd fc e t) := by
  have hz := t.work.zf.isLt
  have hnr : i ∉ rtuReads := by cases i <;> simp at hi ⊢
  cases e with
  | ok d =>
    exact .ends _ _ _ _ ht.carried he.ending
      (fun _ => ⟨by simpa using he.short d rfl, fun _ h => absurd hi h, fun h => absurd h hnr, by simp⟩)
      fun h => ⟨by simp, ht.rxbuf h.rxbuf⟩
  | fail c =>
    exact .ends _ _ _ _ ht.carried he.ending
      (fun _ => ⟨by simp; omega, fun _ h => absurd hi h, fun h => absurd h hnr, by simp⟩)
      fun h => ⟨by simp, ht.rxbuf h.rxbuf⟩
  | serverExc k =>
    exact .ends _ _ _ _ ht.carried he.ending (fun _ => BytesOk.nil i _) fun h => ⟨by simp, ht.rxbuf h.rxbuf⟩

theorem happened_tcpWriteEnd {i : Instr} {pt : Point} {s t : State} {e : TxnEnd} (ht : AtEnd s t) (he : TxnEndOk e) :
    Happened i pt s (tcpWriteEnd e t) :=
  .ends _ _ _ _ ht.carried he.ending (fun _ => BytesOk.nil i _) fun h => ⟨by simp, ht.rxbuf h.rxbuf⟩

theorem happened_tcpPreReadEnd {pt : Point} {s t : State} {e : TxnEnd} (ht : AtEnd s t) :
    Happened .tcpWrCoil pt s (tcpPreReadEnd e t) := by
  have hw : ∀ u : State, AtEnd s u → Happened .tcpWrCoil pt s (tcpCoilWrite u) := fun u hu =>
    happened_tcpSend hu.carried hu.rxbuf (by simp) (by simp) (by simp)
  cases e with
  | ok d =>
    rw [tcpPreReadEnd_ok]
    split
    · exact .ends _ _ _ _ (ht.carried.withWork _) ⟨by simp, by simp, by simp⟩ (fun _ => BytesOk.nil _ _)
        fun h => ⟨by simp, ht.rxbuf h.rxbuf⟩
    · exact hw _ (ht.withWork rfl rfl)
  | fail c => rw [tcpPreReadEnd_absorbs (by simp)]; exact hw _ (ht.withWork rfl rfl)
  | serverExc k => rw [tcpPreReadEnd_absorbs (by simp)]; exact hw _ (ht.withWork rfl rfl)

theorem qty_le_of_multi {pt : Point} {s : State} (h : Before .tcpWrMulti pt s) : s.latched.qty.toNat ≤ 127 := by
  have := h.legal
  simp [legal, argsOk, Config.wdataWords] at this
  exact this.2.2

theorem happened_tcpMultiSend {pt : Point} {s t : State} (hc : Carried s t)
    (hr : s.work.rxbuf.length ≤ 260 → t.work.rxbuf.length ≤ 260)
    (hi : Before .tcpWrMulti pt s → t.work.i.toNat < s.latched.qty.toNat) :
    Happened .tcpWrMulti pt s (tcpMultiSend t) := by
  unfold tcpMultiSend
  split
  · exact .faults _
  · exact happened_tcpSend hc hr (by simp) (by simp) fun h _ => hi h

theorem happened_tcpMultiEnd {pt : Point} {s t : State} {e : TxnEnd} (ht : AtEnd s t) (he : TxnEndOk e) :
    Happened .tcpWrMulti pt s (tcpMultiEnd e t) := by
  have hi : Before .tcpWrMulti pt s → t.work.i.toNat ≤ 127 := fun h => by
    have h1 := h.point.1 rfl
    have h2 := qty_le_of_multi h
    rw [ht.i]
    omega
  unfold tcpMultiEnd
  cases e with
  | ok d =>
    simp only []
    split
    · rename_i hlt
      exact happened_tcpMultiSend (ht.carried.withWork _) ht.rxbuf fun _ => by rw [← ht.carried.latched]; exact hlt
    · refine .ends _ _ _ _ (ht.carried.withWork _) ⟨by simp, by simp, by simp⟩ (fun _ => BytesOk.nil _ _) fun h =>
        ⟨?_, ht.rxbuf h.rxbuf⟩
      have := qty_le_of_multi h
      show (lo t.latched.qty).toNat ≤ 127
      rw [ht.carried.latched, lo_toNat]
      omega
  | fail c => exact .ends _ _ _ _ ht.carried he.ending (fun _ => BytesOk.nil _ _) fun h => ⟨hi h, ht.rxbuf h.rxbuf⟩
  | serverExc k =>
    exact .ends _ _ _ _ ht.carried he.ending (fun _ => BytesOk.nil _ _) fun h => ⟨hi h, ht.rxbuf h.rxbuf⟩

/-- At a point that is no TCP point a TCP command refuses, and no sound state is there. -/
theorem tcp_stray {i : Instr} (hi : i ∈ tcpAll) {pt : Point} (hpt : ∀ txn ph, pt ≠ .tcp txn ph) (s : State) :
    ¬ PointOk i pt s := by
  intro h
  cases pt with
  | tcp txn ph => exact hpt txn ph rfl
  | rtuTx c m => have := h.2; cases i <;> simp at hi this
  | rtuT0 => have := h.2; cases i <;> simp at hi this
  | rtuRx p l => have := h.2.1; cases i <;> simp at hi this
  | rtuClk p l => have := h.2.1; cases i <;> simp at hi this
  | compute => have := h.2; cases i <;> simp at hi this

theorem happened_tcpReadCommand {i : Instr} {fc : Byte} {pt : Point} {s : State} (hi : i ∈ tcpReads) :
    Happened i pt s (tcpReadCommand i fc pt s) := by
  have ha : i ∈ tcpAll := tcpAll_cases.2 (.inl hi)
  cases pt with
  | tcp txn ph =>
    cases txn with
    | main => exact happened_tcpReadEvent ha (by simp) (.inl hi) fun e t ht he => happened_tcpReadEnd hi ht he
    | preRead =>
      refine happened_stray fun h => ?_
      have := h.2.2.1 rfl
      subst this
      simp at hi
  | rtuTx c m => exact happened_stray (tcp_stray ha (by simp) s)
  | rtuT0 => exact happened_stray (tcp_stray ha (by simp) s)
  | rtuRx p l => exact happened_stray (tcp_stray ha (by simp) s)
  | rtuClk p l => exact happened_stray (tcp_stray ha (by simp) s)
  | compute => exact happened_stray (tcp_stray ha (by simp) s)

theorem happened_tcpRegEvent {pt : Point} {s : State} : Happened .tcpWrReg pt s (tcpRegEvent pt s) := by
  have ha : Instr.tcpWrReg ∈ tcpAll := by simp
  cases pt with
  | tcp txn ph =>
    cases txn with
    | main => exact happened_tcpWriteEvent (by simp) fun e t ht he => happened_tcpWriteEnd ht he
    | preRead => exact happened_stray fun h => by have := h.2.2.1 rfl; cases this
  | rtuTx c m => exact happened_stray (tcp_stray ha (by simp) s)
  | rtuT0 => exact happened_stray (tcp_stray ha (by simp) s)
  | rtuRx p l => exact happened_stray (tcp_stray ha (by simp) s)
  | rtuClk p l => exact happened_stray (tcp_stray ha (by simp) s)
  | compute => exact happened_stray (tcp_stray ha (by simp) s)

theorem happened_tcpCoilEvent {pt : Point} {s : State} : Happened .tcpWrCoil pt s (tcpCoilEvent pt s) := by
  have ha : Instr.tcpWrCoil ∈ tcpAll := by simp
  cases pt with
  | tcp txn ph =>
    cases txn with
    | main => exact happened_tcpWriteEvent (by simp) fun e t ht he => happened_tcpWriteEnd ht he
    | preRead => exact happened_tcpReadEvent ha (by simp) (.inr rfl) fun e t ht _ => happened_tcpPreReadEnd ht
  | rtuTx c m => exact happened_stray (tcp_stray ha (by simp) s)
  | rtuT0 => exact happened_stray (tcp_stray ha (by simp) s)
  | rtuRx p l => exact happened_stray (tcp_stray ha (by simp) s)
  | rtuClk p l => exact happened_stray (tcp_stray ha (by simp) s)
  | compute => exact happened_stray (tcp_stray ha (by simp) s)

theorem happened_tcpMultiEvent {pt : Point} {s : State} : Happened .tcpWrMulti pt s (tcpMultiEvent pt s) := by
  have ha : Instr.tcpWrMulti ∈ tcpAll := by simp
  cases pt with
  | tcp txn ph =>
    cases txn with
    | main => exact happened_tcpWriteEvent (by simp) fun e t ht he => happened_tcpMultiEnd ht he
    | preRead => exact happened_stray fun h => by have := h.2.2.1 rfl; cases this
  | rtuTx c m => exact happened_stray (tcp_stray ha (by simp) s)
  | rtuT0 => exact happened_stray (tcp_stray ha (by simp) s)
  | rtuRx p l => exact happened_stray (tcp_stray ha (by simp) s)
  | rtuClk p l => exact happened_stray (tcp_stray ha (by simp) s)
  | compute => exact happened_stray (tcp_stray ha (by simp) s)

/-! ### The utility commands, and all events -/

theorem happened_utilEvent {i : Instr} (hi : i ∈ utils) {compute : State → Result} {pt : Point} {s : State}
    (h : Happened i .compute s (compute s)) : Happened i pt s (utilEvent compute pt s) := by
  cases pt with
  | compute => exact h
  | tcp txn ph => exact happened_stray fun h => by have := h.2.1; cases i <;> simp at hi this
  | rtuTx c m => exact happened_stray fun h => by have := h.2; cases i <;> simp at hi this
  | rtuT0 => exact happened_stray fun h => by have := h.2; cases i <;> simp at hi this
  | rtuRx p l => exact happened_stray fun h => by have := h.2.1; cases i <;> simp at hi this
  | rtuClk p l => exact happened_stray fun h => by have := h.2.1; cases i <;> simp at hi this

theorem happened_utilCrc (s : State) : Happened .utilCrc16 .compute s (utilCrcCompute s) := by
  unfold utilCrcCompute
  split
  · exact .faults _
  · exact .endsCrc _ _ rfl rfl

theorem happened_utilSwap (s : State) : Happened .utilSwap .compute s (utilSwapCompute s) := by
  unfold utilSwapCompute
  split
  · exact .faults _
  · rename_i ws h
    refine .ends _ _ _ _ (.refl s) ⟨by simp, by simp, by simp⟩
      (fun hq => ⟨?_, by simp, by simp, by simp⟩) fun h => ⟨by simp, h.rxbuf⟩
    have h1 := (Memory.readList_ok.1 h).1
    have h2 := hq rfl
    rw [beWords_length]
    simp
    omega

/-- Everything one event of a command can do. -/
theorem happened (i : Instr) (pt : Point) (s : State) : Happened i pt s (eventOf i pt s) := by
  cases i with
  | rtuRdCoils => exact happened_rtuEvent (kind := .read) (by simp [ParseOk]) (by simp)
  | rtuRdDiscrete => exact happened_rtuEvent (kind := .read) (by simp [ParseOk]) (by simp)
  | rtuRdHolding => exact happened_rtuEvent (kind := .read) (by simp [ParseOk]) (by simp)
  | rtuRdInput => exact happened_rtuEvent (kind := .read) (by simp [ParseOk]) (by simp)
  | rtuWrCoil => exact happened_rtuEvent (kind := .write 0) (by simp [ParseOk]) (by rintro n ⟨⟩; simp)
  | rtuWrReg => exact happened_rtuEvent (kind := .write 0) (by simp [ParseOk]) (by rintro n ⟨⟩; simp)
  | rtuWrMulti =>
    refine happened_rtuEvent (kind := .write (lo s.latched.qty)) (by simp [ParseOk]) ?_
    rintro n ⟨⟩ h
    have := h.legal
    simp [legal, argsOk, Config.wdataWords] at this
    rw [lo_toNat]
    omega
  | tcpRdCoils => exact happened_tcpReadCommand (by simp)
  | tcpRdDiscrete => exact happened_tcpReadCommand (by simp)
  | tcpRdHolding => exact happened_tcpReadCommand (by simp)
  | tcpRdInput => exact happened_tcpReadCommand (by simp)
  | tcpWrCoil => exact happened_tcpCoilEvent
  | tcpWrReg => exact happened_tcpRegEvent
  | tcpWrMulti => exact happened_tcpMultiEvent
  | utilCrc16 => exact happened_utilEvent (by simp) (happened_utilCrc s)
  | utilSwap => exact happened_utilEvent (by simp) (happened_utilSwap s)

/-! ### Latching -/

/-- What the start of a latched command can answer: the host's buffers lack an element, or fsm goes to the first point, or a
transaction's request is built. No call is made (R220). -/
inductive Started (i : Instr) (s : State) : Result → Prop
  | faults (f : Fault) : Started i s (.fault f)
  | moves (pt : Point) (w : Work) (hp : PointOk i pt { s with work := w }) (hr : w.rxbuf = s.work.rxbuf) :
      Started i s (.next (goto i pt { s with work := w }))
  | sends (txn : TcpTxn) (frame : List Byte) (w : Work) (hi : i ∈ tcpAll) (hl : frame.length = 12)
      (hf : headerTid frame = s.tid + 1) (hp : txn = .preRead → i = .tcpWrCoil)
      (hm : i = .tcpWrMulti → w.i.toNat < s.latched.qty.toNat) (hr : w.rxbuf = s.work.rxbuf) :
      Started i s (.next (goto i (.tcp txn (.tx frame)) { s with work := w, tid := s.tid + 1 }))

theorem started_fixed {i : Instr} (hi : i ∈ rtuAll) (fc : Byte) (s : State) : Started i s (rtuStartFixed i fc s) :=
  .moves _ _ ⟨fun h => absurd h (rtu_ne_multi hi), hi⟩ rfl

theorem started_tcpSend {i : Instr} (hi : i ∈ tcpAll) (hm : i ≠ .tcpWrMulti) (fc : Byte) (a b : Word) (s : State) :
    Started i s (tcpSend i .main fc a b s) :=
  .sends .main _ s.work hi (by simp) (by simp) (by simp) (fun h => absurd h hm) rfl

/-- Everything the start of a legal command can do. -/
theorem started {i : Instr} {s : State} (hl : legal s.params.kind s.latched.qty i = true) : Started i s (startOf i s) := by
  cases i with
  | rtuRdCoils => exact started_fixed (by simp) _ s
  | rtuRdDiscrete => exact started_fixed (by simp) _ s
  | rtuRdHolding => exact started_fixed (by simp) _ s
  | rtuRdInput => exact started_fixed (by simp) _ s
  | rtuWrCoil => exact started_fixed (by simp) _ s
  | rtuWrReg => exact started_fixed (by simp) _ s
  | rtuWrMulti =>
    show Started _ _ (rtuStartMulti _ s)
    unfold rtuStartMulti
    split
    · exact .faults _
    · exact .moves _ _ ⟨by simp, by simp⟩ rfl
  | tcpRdCoils => exact started_tcpSend (by simp) (by simp) _ _ _ s
  | tcpRdDiscrete => exact started_tcpSend (by simp) (by simp) _ _ _ s
  | tcpRdHolding => exact started_tcpSend (by simp) (by simp) _ _ _ s
  | tcpRdInput => exact started_tcpSend (by simp) (by simp) _ _ _ s
  | tcpWrReg => exact started_tcpSend (by simp) (by simp) _ _ _ s
  | tcpWrCoil =>
    show Started _ _ (tcpCoilStart s)
    unfold tcpCoilStart
    simp only []
    split
    · exact .sends .preRead _ _ (by simp) (by simp) (by simp) (by simp) (by simp) rfl
    · exact .sends .main _ _ (by simp) (by simp) (by simp) (by simp) (by simp) rfl
  | tcpWrMulti =>
    show Started _ _ (tcpMultiStart s)
    unfold tcpMultiStart tcpMultiSend
    split
    · exact .faults _
    · refine .sends .main _ _ (by simp) (by simp) (by simp) (by simp) (fun _ => ?_) rfl
      simp [legal, argsOk] at hl
      show 0 < _
      omega
  | utilCrc16 => exact .moves .compute s.work ⟨by simp, by simp⟩ rfl
  | utilSwap => exact .moves .compute s.work ⟨by simp, by simp⟩ rfl

/-! ### The turns that make no visible event -/

/-- The latching makes no call, and no action of an idle engine does (R220, R264). -/
theorem exec_idle_makes_no_call {i : Instr} {s t : State} (hb : s.status.busy = false) (h : exec i s = .next t) :
    t.transport = s.transport ∧ t.env = s.env := by
  rcases exec_next h with rfl | ⟨-, -, rfl⟩ | ⟨-, hl, hs⟩ | ⟨pt, hb', -⟩
  · exact ⟨rfl, rfl⟩
  · exact ⟨rfl, rfl⟩
  · have ho := started (i := i) (s := latchRegs (encode i) s) hl
    rw [hs] at ho
    cases ho <;> exact ⟨rfl, rfl⟩
  · simp [hb] at hb'

theorem hostSetReg_makes_no_call {index : Nat} {v : Word} {s t : State} (h : hostSetReg index v s = .next t) :
    t.transport = s.transport ∧ t.env = s.env := by
  unfold hostSetReg at h
  split at h
  · cases h
  · rename_i r _
    split at h
    · cases h; exact ⟨rfl, rfl⟩
    · split at h
      · unfold startCommand at h
        split at h
        · exact exec_idle_makes_no_call (by simpa using ‹¬ s.status.busy = true›) h
        · cases h; exact ⟨rfl, rfl⟩
      · cases h; cases r <;> exact ⟨rfl, rfl⟩

theorem hostSetElement_next {cap i : Nat} {written s t : State} (h : hostSetElement cap i written s = .next t) :
    t = s ∨ t = written := by
  unfold hostSetElement at h
  (repeat' split at h) <;> cases h
  · exact .inl rfl
  · exact .inr rfl

theorem hostGetElement_next {w : Nat} {m : Memory w} {cap i : Nat} {f : Nat → Fault} {s t : State}
    (h : hostGetElement m cap i f s = .next t) : t = s := by
  unfold hostGetElement at h
  split at h
  · split at h <;> cases h; rfl
  · cases h

theorem hostGetOutw_next {i : Nat} {s t : State} (h : hostGetOutw i s = .next t) : t = s := by
  unfold hostGetOutw at h
  split at h
  · split at h <;> cases h; rfl
  · cases h

/-- A host operation makes no call and leaves the outside world alone (R57, R220, R290). -/
theorem hostAct_makes_no_call {op : HostOp} {s t : State} (h : hostAct op s = .next t) :
    t.transport = s.transport ∧ t.env = s.env := by
  cases op with
  | setReg index v => exact hostSetReg_makes_no_call h
  | setWdata i v => obtain rfl | rfl := hostSetElement_next h <;> exact ⟨rfl, rfl⟩
  | setIbuf i b => obtain rfl | rfl := hostSetElement_next h <;> exact ⟨rfl, rfl⟩
  | setOut i b => obtain rfl | rfl := hostSetElement_next h <;> exact ⟨rfl, rfl⟩
  | getReg index => simp only [hostAct] at h; split at h <;> cases h; exact ⟨rfl, rfl⟩
  | getWdata i => rw [hostGetElement_next h]; exact ⟨rfl, rfl⟩
  | getIbuf i => rw [hostGetElement_next h]; exact ⟨rfl, rfl⟩
  | getOut i => rw [hostGetElement_next h]; exact ⟨rfl, rfl⟩
  | getOutw i => rw [hostGetOutw_next h]; exact ⟨rfl, rfl⟩
  | wait => cases h; exact ⟨rfl, rfl⟩
  | pause => cases h; exact ⟨rfl, rfl⟩
  | reset => cases h; exact ⟨rfl, rfl⟩

/-- What the outside world does by itself: nothing, or one of the acts of `WorldMoved`. -/
theorem worldAct_moved {s t : State} (h : worldAct s = .next t) : t = s ∨ WorldMoved s t := by
  unfold worldAct at h
  split at h
  · rename_i bs rest he
    cases h; exact .inr ⟨rfl, .inl ⟨bs, he, rfl⟩⟩
  · rename_i k rest he
    split at h
    · cases h
    · cases h; exact .inr ⟨rfl, .inr (.inl ⟨k, he, by simpa using ‹¬ s.params.retainsUnread = true›, rfl⟩)⟩
  · rename_i rest he
    cases h; exact .inr ⟨rfl, .inr (.inr ⟨he, rfl⟩)⟩
  · cases h; exact .inl rfl

end Sys2Proof.Machine
end

