-- ==== Sys2Proof/Laws/PerInstr.lean ====
section
/-! SUPPORT. The one statement made per command as syntax: its row of R72's table is a well-formed command word of the class its
name says, and the table's word decodes to it. -/

namespace Sys2Proof.Laws.Encodes

/-- The command's fields pass every check, its RSV bits are zero, and its word decodes to it (R70, R72). -/
def Statement (i : Instr) : Prop :=
  i.fields.wellFormed = true ∧ i.fields.rsv = 0 ∧ decodeTableWord 16 (encode i).toNat = some i

theorem rtuRdCoils : Statement .rtuRdCoils := by unfold Statement; decide
theorem rtuRdDiscrete : Statement .rtuRdDiscrete := by unfold Statement; decide
theorem rtuRdHolding : Statement .rtuRdHolding := by unfold Statement; decide
theorem rtuRdInput : Statement .rtuRdInput := by unfold Statement; decide
theorem rtuWrCoil : Statement .rtuWrCoil := by unfold Statement; decide
theorem rtuWrReg : Statement .rtuWrReg := by unfold Statement; decide
theorem rtuWrMulti : Statement .rtuWrMulti := by unfold Statement; decide
theorem tcpRdCoils : Statement .tcpRdCoils := by unfold Statement; decide
theorem tcpRdDiscrete : Statement .tcpRdDiscrete := by unfold Statement; decide
theorem tcpRdHolding : Statement .tcpRdHolding := by unfold Statement; decide
theorem tcpRdInput : Statement .tcpRdInput := by unfold Statement; decide
theorem tcpWrCoil : Statement .tcpWrCoil := by unfold Statement; decide
theorem tcpWrReg : Statement .tcpWrReg := by unfold Statement; decide
theorem tcpWrMulti : Statement .tcpWrMulti := by unfold Statement; decide
theorem utilCrc16 : Statement .utilCrc16 := by unfold Statement; decide
theorem utilSwap : Statement .utilSwap := by unfold Statement; decide

end Sys2Proof.Laws.Encodes
end

