-- ==== Sys2Proof/Laws/Runs.lean ====
section
/-! SUPPORT. Runs of several steps: they are the host's own runs, and they compose. -/

namespace Sys2Proof.Machine

@[simp] theorem runSteps_zero (s : State) : runSteps 0 s = .next s := rfl

/-- A run that begins with a step to `t` is the rest of the run from `t`. -/
theorem runSteps_succ {k : Nat} {s t : State} (h : step s = .next t) : runSteps (k + 1) s = runSteps k t := by
  simp only [runSteps, h]

theorem runSteps_one (s : State) : runSteps 1 s = step s := by
  simp only [runSteps]
  cases step s <;> rfl

/-- A run that reaches `t` after `m` steps goes on from `t`. -/
theorem runSteps_add {m n : Nat} {s t : State} (h : runSteps m s = .next t) : runSteps (m + n) s = runSteps n t := by
  induction m generalizing s with
  | zero =>
    cases h
    rw [Nat.zero_add]
  | succ m ih =>
    rw [Nat.succ_add]
    simp only [runSteps] at h ⊢
    revert h
    cases step s with
    | next u => exact ih
    | fault r => exact fun h => by cases h
    | refused r => exact fun h => by cases h

/-- `runSteps` is the host's run of this machine. -/
theorem runSteps_eq_run (k : Nat) (s : State) : runSteps k s = Sys2Proof.core.run k s := by
  induction k generalizing s with
  | zero => rfl
  | succ k ih =>
    rw [runSteps]
    cases h : step s with
    | next t =>
      have hc : Sys2Proof.core.step s = .next t := h
      simp only [Host.Core.run, hc]
      exact ih t
    | fault r =>
      have hc : Sys2Proof.core.step s = .fault r := h
      simp only [Host.Core.run, hc]
      rfl
    | refused r =>
      have hc : Sys2Proof.core.step s = .refused r := h
      simp only [Host.Core.run, hc]
      rfl

/-- While the host has nothing to do, a running command acts unless the world moves by itself. -/
theorem step_eq_exec {i : Instr} {pt : Point} {s : State} (hh : s.host = []) (hs : Runs i pt s)
    (hw : worldMoves s.env = false) : step s = exec i s := by
  simp only [step, turn, hh, engineTurn, hs.1, if_true, hs.2]
  cases pt <;> simp [hw]

/-- While the host has nothing to do, the world moves by itself if its next input is no answer, unless a computation comes first. -/
theorem step_eq_worldAct {s : State} (hh : s.host = []) (hc : ∀ i, s.fsm ≠ .run i .compute) (hw : worldMoves s.env = true) :
    step s = worldAct s := by
  simp only [step, turn, hh, engineTurn]
  split
  · split
    · rfl
    · exact absurd ‹_› (hc _)
    · rfl
  · rfl

end Sys2Proof.Machine
end

