-- ==== Sys2Proof/Tests/Slice0.lean ====
section
/-! SUPPORT. Tests and witnesses. Expected values are those of spec/95_test_vectors.md (V and P numbers), or of the rule a comment
names. The witnesses show, for each statement with hypotheses, concrete states and operands that meet them, one for each clause at a
boundary of its range. -/

namespace Sys2Proof.Machine.Tests

/-! ### Small states -/

/-- The operands of V32: unit 0x11, start 0x006B, three registers. -/
def argsV32 : Args := { unit := 0x11, start := 0x006B, qty := 3, swap := 0 }

/-- The kind of engine a command runs on (R71). -/
def kindFor (i : Instr) : TransportKind := if i.fields.cls = 1 then .tcp else .rtu

/-- An idle engine after reset, of the kind that runs `i`, with these arguments. -/
def idleFor (i : Instr) (a : Args) : State :=
  { State.reset with params := { Params.reset with kind := kindFor i }, args := a }

/-- Command `i` running at `pt`, with its operands, gathered bytes, inbound queue and pending answers. -/
def runningAt (i : Instr) (pt : Point) (a : Args) (rx inQ : List Byte) (env : List EnvInput) : State :=
  { idleFor i a with
    cmd := encode i, latched := a, status := Status.running, fsm := .run i pt
    work := { Work.reset with rxbuf := rx }, transport := { inQ := inQ, trace := [] }, env := env }

/-- The state a result goes on with, or nothing. -/
def next? (r : Result) : Option State :=
  match r with
  | .next t => some t
  | .fault _ => none
  | .refused _ => none

/-- The fault a result stops with, or nothing. -/
def fault? (r : Result) : Option Fault :=
  match r with
  | .next _ => none
  | .fault f => some f
  | .refused _ => none

/-- The refusal a result stops with, or nothing. -/
def refusal? (r : Result) : Option Refusal :=
  match r with
  | .next _ => none
  | .fault _ => none
  | .refused x => some x

/-- RC, CAUSE, BC and NDONE of a command that has just ended, or nothing. -/
def ending? (r : Result) : Option (Word × Byte × Byte × Byte) :=
  match next? r with
  | some t => if t.status = Status.ended ∧ t.fsm = .idle then some (t.res.rc, t.res.cause, t.res.bc, t.res.ndone) else none
  | none => none

/-- Where a result's command stands, or nothing. -/
def point? (r : Result) : Option Point :=
  match next? r with
  | some t =>
    match t.fsm with
    | .run _ pt => some pt
    | .idle => none
  | none => none

/-- The OUT buffer of a result. -/
def out? (r : Result) : Option (Memory 8) := (next? r).map State.out

/-- The same state with a declared byte count. -/
def withCount (b : Byte) (s : State) : State := { s with work := { s.work with bcnt := b } }

/-- The same state with a transaction id. -/
def withTid (t : Word) (s : State) : State := { s with tid := t }

/-- The same state with host operations. -/
def withHost (ops : List HostOp) (s : State) : State := { s with host := ops }

/-! ### WellFormed: one ill-formed term for each check -/

theorem test_reserved_class_is_refused : CmdFields.classOk { cls := 3, rsv := 0, fc := 0x03 } = false := by decide
theorem test_rsv_bits_are_refused : CmdFields.rsvOk { cls := 0, rsv := 1, fc := 0x03 } = false := by decide
theorem test_unknown_function_is_refused :
    CmdFields.fcOk { cls := 0, rsv := 0, fc := 0x07 } = false ∧ CmdFields.fcOk { cls := 1, rsv := 0, fc := 0x0F } = false := by
  decide
theorem test_unknown_selector_is_refused : CmdFields.fcOk { cls := 2, rsv := 0, fc := 0x02 } = false := by decide
theorem test_ill_formed_fields_are_refused :
    CmdFields.wellFormed { cls := 3, rsv := 0, fc := 0x03 } = false ∧
    CmdFields.wellFormed { cls := 0, rsv := 32, fc := 0x03 } = false ∧
    CmdFields.wellFormed { cls := 0, rsv := 0, fc := 0x00 } = false ∧
    CmdFields.wellFormed { cls := 2, rsv := 0, fc := 0x02 } = false := by decide

/-! ### Decode: every command's word, CLASS RSV FC bit by bit (R70, R72) -/

theorem test_rtu_words_decode :
    decodeWord 0b00_000000_00000001 = .ok .rtuRdCoils ∧ decodeWord 0b00_000000_00000010 = .ok .rtuRdDiscrete ∧
    decodeWord 0b00_000000_00000011 = .ok .rtuRdHolding ∧ decodeWord 0b00_000000_00000100 = .ok .rtuRdInput ∧
    decodeWord 0b00_000000_00000101 = .ok .rtuWrCoil ∧ decodeWord 0b00_000000_00000110 = .ok .rtuWrReg ∧
    decodeWord 0b00_000000_00010000 = .ok .rtuWrMulti := by decide

theorem test_tcp_words_decode :
    decodeWord 0b01_000000_00000001 = .ok .tcpRdCoils ∧ decodeWord 0b01_000000_00000010 = .ok .tcpRdDiscrete ∧
    decodeWord 0b01_000000_00000011 = .ok .tcpRdHolding ∧ decodeWord 0b01_000000_00000100 = .ok .tcpRdInput ∧
    decodeWord 0b01_000000_00000101 = .ok .tcpWrCoil ∧ decodeWord 0b01_000000_00000110 = .ok .tcpWrReg ∧
    decodeWord 0b01_000000_00010000 = .ok .tcpWrMulti := by decide

theorem test_util_words_decode :
    decodeWord 0b10_000000_00000000 = .ok .utilCrc16 ∧ decodeWord 0b10_000000_00000001 = .ok .utilSwap := by decide

/-- V80, V81, V84, V85, V86. -/
theorem test_illegal_words_are_named :
    decodeWord 0x0007 = .bad .unknownFunction ∧ decodeWord 0x000F = .bad .unknownFunction ∧
    decodeWord 0xC003 = .bad .reservedClass ∧ decodeWord 0x0103 = .bad .nonzeroRsv ∧
    decodeWord 0x8002 = .bad .unknownUtility := by decide

theorem test_table_words : decodeTableWord 16 0x4010 = some .tcpWrMulti ∧ decodeTableWord 16 0x0000 = none := by decide

/-- A placed word runs at the very next step from reset: V55's transaction id is in the request. -/
theorem test_placed_word_runs :
    point? (step (State.reset.withFetchWord 16 0x4003)) =
      some (.tcp .main (.tx [0x00, 0x01, 0x00, 0x00, 0x00, 0x06, 0x00, 0x03, 0x00, 0x00, 0x00, 0x00])) := by decide

theorem test_placed_utility_word_runs : point? (step (State.reset.withFetchWord 16 0x8001)) = some .compute := by decide

/-! ### The CRC and the register codec -/

/-- V1, V5, V14, V15. -/
theorem test_crc_vectors :
    crc16 [0x31, 0x32, 0x33, 0x34, 0x35, 0x36, 0x37, 0x38, 0x39] 0xFF 0xFF = 0x4B37 ∧
    frameCrc [0x01, 0x03, 0x00, 0x00, 0x00, 0x0A] = 0xCDC5 ∧
    crc16 [0x31, 0x32, 0x33, 0x34, 0x35, 0x36, 0x37, 0x38, 0x39] 0x00 0x00 = 0xBB3D ∧
    crc16 [0x01] 0x12 0x34 = 0x17D2 := by decide +kernel

/-- V9 from V10 and V11. -/
theorem test_crc_chains :
    chainedCrc [0x11, 0x10, 0x00, 0x01, 0x00, 0x02, 0x04] [0x00, 0x0A, 0x01, 0x02] = 0xF0C6 := by decide +kernel

/-- V21, V22, V26, V28. -/
theorem test_codec_vectors :
    swap16 0x1234 = 0x3412 ∧ swap16 0x00FF = 0xFF00 ∧ regCodecRead 0x03 1 [0x12, 0x34, 0x56] = [0x34, 0x12, 0x56] ∧
    be16 (encWord 1 0x0A00) = [0x00, 0x0A] := by decide

/-! ### One step of each command -/

/-- V38: the trailer's read ends RTU.RD_COILS; SWAP does not swap coils. -/
theorem test_rtuRdCoils_completes :
    let s := withCount 5 (runningAt .rtuRdCoils (.rtuRx .trailer 0) { argsV32 with start := 0x13, qty := 0x25, swap := 1 }
      [0x11, 0x01, 0x05, 0xCD, 0x6B, 0xB2, 0x0E, 0x1B] [0x45, 0xE6] [.rxDone 2])
    ending? (step s) = some (0, 0, 5, 0) ∧
    out? (step s) = some [(0, 0xCD), (1, 0x6B), (2, 0xB2), (3, 0x0E), (4, 0x1B)] := by decide +kernel

/-- V39. -/
theorem test_rtuRdDiscrete_completes :
    let s := withCount 3 (runningAt .rtuRdDiscrete (.rtuRx .trailer 0) { argsV32 with start := 0xC4, qty := 0x16 }
      [0x11, 0x02, 0x03, 0xAC, 0xDB, 0x35] [0x20, 0x18] [.rxDone 2])
    ending? (step s) = some (0, 0, 3, 0) ∧ out? (step s) = some [(0, 0xAC), (1, 0xDB), (2, 0x35)] := by decide +kernel

/-- V37: with SWAP each register's bytes are exchanged. -/
theorem test_rtuRdHolding_completes :
    let s := withCount 6 (runningAt .rtuRdHolding (.rtuRx .trailer 0) { argsV32 with swap := 1 }
      [0x11, 0x03, 0x06, 0x02, 0x2B, 0x00, 0x00, 0x00, 0x64] [0xC8, 0xBA] [.rxDone 2])
    ending? (step s) = some (0, 0, 6, 0) ∧
    out? (step s) = some [(0, 0x2B), (1, 0x02), (2, 0x00), (3, 0x00), (4, 0x64), (5, 0x00)] := by decide +kernel

/-- V41: the first sample beyond the budget ends the command, and what was not read stays. -/
theorem test_rtuRdHolding_times_out :
    let s := runningAt .rtuRdHolding (.rtuClk .start 0) argsV32 [0x11, 0x03] [0x06, 0x02] [.clock 351]
    ending? (step s) = some (0xFFFF, 5, 0, 0) ∧ (next? (step s)).map (fun t => t.transport.inQ) = some [0x06, 0x02] := by
  decide

/-- V33: the request of RTU.RD_INPUT. -/
theorem test_rtuRdInput_request :
    point? (exec .rtuRdInput (idleFor .rtuRdInput { unit := 0x11, start := 0x0008, qty := 0x0001, swap := 0 })) =
      some (.rtuTx [0x11, 0x04, 0x00, 0x08, 0x00, 0x01, 0xB2, 0x98] []) := by decide +kernel

/-- The response `11 04 02 00 0A F8 F4` that V45 lists, read by the command it answers (R225). -/
theorem test_rtuRdInput_completes :
    let s := withCount 2 (runningAt .rtuRdInput (.rtuRx .trailer 0) { argsV32 with start := 8, qty := 1 }
      [0x11, 0x04, 0x02, 0x00, 0x0A] [0xF8, 0xF4] [.rxDone 2])
    ending? (step s) = some (0, 0, 2, 0) ∧ out? (step s) = some [(0, 0x00), (1, 0x0A)] := by decide +kernel

/-- V34: the request of RTU.WR_COIL, with no pre-read. -/
theorem test_rtuWrCoil_request :
    point? (exec .rtuWrCoil (idleFor .rtuWrCoil { unit := 0x11, start := 0x00AC, qty := 0xFF00, swap := 0 })) =
      some (.rtuTx [0x11, 0x05, 0x00, 0xAC, 0xFF, 0x00, 0x4E, 0x8B] []) := by decide +kernel

/-- V50. -/
theorem test_rtuWrCoil_completes :
    ending? (step (runningAt .rtuWrCoil (.rtuRx .echo 0) { unit := 0x11, start := 0x00AC, qty := 0xFF00, swap := 0 }
      [0x11, 0x05, 0x00] [0xAC, 0xFF, 0x00, 0x4E, 0x8B] [.rxDone 5])) = some (0, 0, 0, 0) := by decide +kernel

/-- V47: one flipped bit of the trailer. -/
theorem test_rtuWrReg_checks_the_crc :
    ending? (step (runningAt .rtuWrReg (.rtuRx .echo 0) { unit := 0x11, start := 1, qty := 3, swap := 0 }
      [0x11, 0x06, 0x00] [0x01, 0x00, 0x03, 0x9A, 0x1B] [.rxDone 5])) = some (0xFFFF, 6, 0, 0) := by decide +kernel

/-- V48: the echo check comes before the CRC check. -/
theorem test_rtuWrReg_checks_the_echo_first :
    ending? (step (runningAt .rtuWrReg (.rtuRx .echo 0) { unit := 0x11, start := 1, qty := 3, swap := 0 }
      [0x11, 0x06, 0x00] [0x01, 0x00, 0x04, 0x9A, 0x9B] [.rxDone 5])) = some (0xFFFF, 7, 0, 0) := by decide

/-- V52: the three chunks of RTU.WR_MULTI, its words swapped. -/
theorem test_rtuWrMulti_request :
    let s := { idleFor .rtuWrMulti { unit := 0x11, start := 1, qty := 2, swap := 1 } with wdata := [(0, 0x0A00), (1, 0x0201)] }
    point? (exec .rtuWrMulti s) =
      some (.rtuTx [0x11, 0x10, 0x00, 0x01, 0x00, 0x02, 0x04] [[0x00, 0x0A, 0x01, 0x02], [0xC6, 0xF0]]) := by decide +kernel

/-- V51: NDONE is the count. -/
theorem test_rtuWrMulti_completes :
    ending? (step (runningAt .rtuWrMulti (.rtuRx .echo 0) { unit := 0x11, start := 1, qty := 2, swap := 0 }
      [0x11, 0x10, 0x00] [0x01, 0x00, 0x02, 0x12, 0x98] [.rxDone 5])) = some (0, 0, 0, 2) := by decide +kernel

/-- V70. -/
theorem test_tcpRdCoils_completes :
    let s := withCount 1 (runningAt .tcpRdCoils (.tcp .main .payload) { unit := 1, start := 0, qty := 8, swap := 0 }
      [] [0xA5] [.rxDone 1])
    ending? (step s) = some (0, 0, 1, 0) ∧ out? (step s) = some [(0, 0xA5)] := by decide

/-- V71: the request of TCP.RD_DISCRETE. -/
theorem test_tcpRdDiscrete_request :
    point? (exec .tcpRdDiscrete (idleFor .tcpRdDiscrete { unit := 1, start := 0x10, qty := 3, swap := 0 })) =
      some (.tcp .main (.tx [0x00, 0x01, 0x00, 0x00, 0x00, 0x06, 0x01, 0x02, 0x00, 0x10, 0x00, 0x03])) := by decide

/-- V62: the header of an older id, at distance 1 across the wrap, is discarded. -/
theorem test_tcpRdHolding_discards_older_id :
    point? (step (withTid 0x0000 (runningAt .tcpRdHolding (.tcp .main .header) { unit := 1, start := 0, qty := 1, swap := 0 }
      [] [0xFF, 0xFF, 0x00, 0x00, 0x00, 0x03, 0x01, 0x83, 0x0B] [.rxDone 9]))) = some (.tcp .main .header) := by decide

/-- V59: a short payload zero-fills OUT over the declared count. -/
theorem test_tcpRdHolding_short_payload :
    let s := withCount 4 (runningAt .tcpRdHolding (.tcp .main .payload) { unit := 1, start := 0, qty := 2, swap := 0 }
      [] [0x12, 0x34] [.rxDone 2])
    ending? (step s) = some (0xFFFF, 8, 4, 0) ∧ out? (step s) = some [(0, 0), (1, 0), (2, 0), (3, 0)] := by decide

/-- V72. -/
theorem test_tcpRdInput_completes :
    let s := withCount 2 (runningAt .tcpRdInput (.tcp .main .payload) { unit := 1, start := 8, qty := 1, swap := 0 }
      [] [0x00, 0x0A] [.rxDone 2])
    ending? (step s) = some (0, 0, 2, 0) ∧ out? (step s) = some [(0, 0x00), (1, 0x0A)] := by decide

/-- V73: the coil is already on, so no write follows. -/
theorem test_tcpWrCoil_skips :
    ending? (step (withCount 1 (runningAt .tcpWrCoil (.tcp .preRead .payload) { unit := 1, start := 0xAC, qty := 0xFF00, swap := 0 }
      [] [0x01] [.rxDone 1]))) = some (0, 0, 0, 0) := by decide

/-- V75: the pre-read's server exception is absorbed, and the write follows with the next id. -/
theorem test_tcpWrCoil_absorbs_the_pre_read :
    point? (step (withTid 1 (runningAt .tcpWrCoil (.tcp .preRead .header) { unit := 1, start := 0xAC, qty := 0x0000, swap := 0 }
      [] [0x00, 0x01, 0x00, 0x00, 0x00, 0x03, 0x01, 0x81, 0x02] [.rxDone 9]))) =
      some (.tcp .main (.tx [0x00, 0x02, 0x00, 0x00, 0x00, 0x06, 0x01, 0x05, 0x00, 0xAC, 0x00, 0x00])) := by decide

/-- V69: any three last bytes succeed. -/
theorem test_tcpWrReg_completes :
    ending? (step (runningAt .tcpWrReg (.tcp .main .rest) { unit := 0x11, start := 1, qty := 3, swap := 0 }
      [] [0x01, 0x99, 0x99] [.rxDone 3])) = some (0, 0, 0, 0) := by decide

/-- V68: a write discards no older id. -/
theorem test_tcpWrReg_refuses_older_id :
    ending? (step (withTid 2 (runningAt .tcpWrReg (.tcp .main .header) { unit := 0x11, start := 1, qty := 3, swap := 0 }
      [] [0x00, 0x01, 0x00, 0x00, 0x00, 0x06, 0x11, 0x06, 0x00] [.rxDone 9]))) = some (0xFFFF, 9, 0, 0) := by decide

/-- P4: the server exception of the third register, with two confirmed. -/
theorem test_tcpWrMulti_stops :
    let s := withTid 3 (runningAt .tcpWrMulti (.tcp .main .header) { unit := 1, start := 0x0010, qty := 5, swap := 0 }
      [] [0x00, 0x03, 0x00, 0x00, 0x00, 0x03, 0x01, 0x86, 0x02] [.rxDone 9])
    ending? (step { s with work := { s.work with i := 2 } }) = some (2, 10, 0, 2) := by decide

/-- V79: the second address wraps to 0x0000. -/
theorem test_tcpWrMulti_next_register :
    let s := withTid 1 (runningAt .tcpWrMulti (.tcp .main .rest) { unit := 1, start := 0xFFFF, qty := 2, swap := 0 }
      [] [0xFF, 0x00, 0x01] [.rxDone 3])
    point? (step { s with wdata := [(0, 1), (1, 2)] }) =
      some (.tcp .main (.tx [0x00, 0x02, 0x00, 0x00, 0x00, 0x06, 0x01, 0x06, 0x00, 0x00, 0x00, 0x02])) := by decide

/-- V20's second command: the seed is the first one's CRC. -/
theorem test_utilCrc16_completes :
    let s := { runningAt .utilCrc16 .compute { unit := 0, start := 0x30BA, qty := 5, swap := 0 } [] [] [] with
      ibuf := [(0, 0x35), (1, 0x36), (2, 0x37), (3, 0x38), (4, 0x39)] }
    ending? (step s) = some (0, 0, 0, 0) ∧ (next? (step s)).map (fun t => t.res.crcr) = some 0x4B37 := by decide +kernel

/-- V19. -/
theorem test_utilCrc16_length_limit :
    ending? (exec .utilCrc16 (idleFor .utilCrc16 { unit := 0, start := 0, qty := 257, swap := 0 })) =
      some (0xFFFF, 1, 0, 0) := by decide

/-- V23. -/
theorem test_utilSwap_completes :
    let s := { runningAt .utilSwap .compute { unit := 0, start := 0, qty := 3, swap := 0 } [] [] [] with
      wdata := [(0, 0x1234), (1, 0xABCD), (2, 0x00FF)] }
    ending? (step s) = some (0, 0, 6, 0) ∧
    out? (step s) = some [(0, 0x34), (1, 0x12), (2, 0xCD), (3, 0xAB), (4, 0xFF), (5, 0x00)] := by decide

/-- V25. -/
theorem test_utilSwap_count_limit :
    ending? (exec .utilSwap (idleFor .utilSwap { unit := 0, start := 0, qty := 128, swap := 0 })) =
      some (0xFFFF, 1, 0, 0) := by decide

/-! ### Witnesses: states and operands that meet the hypotheses of each statement -/

/-- RTU.RD_HOLDING running at a point, clock started at 0. -/
def rtuAt (pt : Point) (rx inQ : List Byte) (env : List EnvInput) : State := runningAt .rtuRdHolding pt argsV32 rx inQ env

/-- RTU.WR_REG running at a point. -/
def rtuWriteAt (pt : Point) (rx inQ : List Byte) (env : List EnvInput) : State :=
  runningAt .rtuWrReg pt { argsV32 with start := 1, qty := 3 } rx inQ env

/-- TCP.RD_HOLDING running at a phase with id 1. -/
def tcpAt (ph : TcpPhase) (inQ : List Byte) (env : List EnvInput) : State :=
  withTid 1 (runningAt .tcpRdHolding (.tcp .main ph) argsV32 [] inQ env)

/-- A TCP write command running at a phase with id 1. -/
def tcpWriteAt (i : Instr) (ph : TcpPhase) (inQ : List Byte) (env : List EnvInput) : State :=
  withTid 1 (runningAt i (.tcp .main ph) argsV32 [] inQ env)

/-- The pre-read of TCP.WR_COIL, for the coil on, at a phase with id 1. -/
def preReadAt (ph : TcpPhase) (inQ : List Byte) (env : List EnvInput) : State :=
  withTid 1 (runningAt .tcpWrCoil (.tcp .preRead ph) { argsV32 with qty := 0xFF00 } [] inQ env)

/-- `ResetEventAbandonsCommand`, in the middle of a command. -/
theorem test_witness_reset_event : (withHost [.reset, .getReg 1] (rtuAt .rtuT0 [] [] [])).host = .reset :: [.getReg 1] := by decide

/-- `FirstTransactionIdIsOne`: a read, and TCP.WR_MULTI at its counts 1 and 127. -/
theorem test_witness_first_id :
    Instr.tcpRdCoils ∈ tcpAll ∧ Instr.tcpWrMulti ∈ tcpAll ∧ (idleFor .tcpWrMulti argsV32).params.kind = .tcp ∧
    (1 ≤ (1 : Word).toNat ∧ (127 : Word).toNat ≤ 127) ∧ (Memory.read [(0, (0x3412 : Word))] 0).isSome = true := by decide

/-- `StepRunsDecodedCommand`: a CMD write; a running command with an idle host; one at its computation with a waiting host. -/
theorem test_witness_step :
    ((withHost [.setReg 0x00 0x4010] (idleFor .tcpWrMulti argsV32)).status.busy = false ∧ decodeWord 0x4010 = .ok .tcpWrMulti) ∧
    (Runs .rtuRdHolding (.rtuRx .start 0) (rtuAt (.rtuRx .start 0) [] [] [.rxDone 0]) ∧ worldMoves [.rxDone 0] = false) ∧
    (Runs .utilSwap .compute (withHost [.wait] (runningAt .utilSwap .compute argsV32 [] [] [.drain])) ∧
      (runningAt .utilSwap .compute argsV32 [] [] [.drain]).status.done = false) := by decide

/-- `IllegalCommandsEndAtLatching`: a word that is no command, the wrong engine, the counts 0 and 128, the length 257; and
`LatchingOnlyStartsTheCommand`: the counts 1 and 127, the length 256. -/
theorem test_witness_illegal_command :
    legal .rtu 1 .tcpRdHolding = false ∧ legal .tcp 1 .rtuRdHolding = false ∧ legal .rtu 0 .rtuWrMulti = false ∧
    legal .tcp 128 .tcpWrMulti = false ∧ legal .rtu 257 .utilCrc16 = false ∧ legal .tcp 128 .utilSwap = false ∧
    legal .rtu 1 .rtuWrMulti = true ∧ legal .tcp 127 .tcpWrMulti = true ∧ legal .rtu 256 .utilCrc16 = true ∧
    (idleFor .utilSwap argsV32).status.busy = false ∧ decode? 0xC003 = none ∧ decode? 0x0010 = some .rtuWrMulti ∧
    (withHost [.setReg 0x00 0xC003] State.reset).host = [.setReg 0x00 0xC003] := by decide

/-- `LatchingOnlyStartsTheCommand`: a legal command that latches. -/
theorem test_witness_latching : (next? (exec .tcpWrReg (idleFor .tcpWrReg argsV32))).map (fun t => t.cmd) = some 0x4006 := by decide

/-- `HostWritesIgnoredWhileBusy`: the last register, the last WDATA word, the last IBUF byte, the last OUT byte. -/
theorem test_witness_writes_while_busy :
    (rtuAt .rtuT0 [] [] []).status.busy = true ∧ 0x0B ≤ 0x0B ∧ 126 < 127 ∧ 255 < 256 ∧
    (withHost [.setIbuf 255 0] (rtuAt .rtuT0 [] [] [])).host = [.setIbuf 255 0] ∧ 254 < 255 ∧
    (withHost [.setOut 254 0] (rtuAt .rtuT0 [] [] [])).host = [.setOut 254 0] := by decide

/-- `HostWritesWhileIdle`: each operation, at the ends of its range. -/
theorem test_witness_writes_while_idle :
    State.reset.status.busy = false ∧ (withHost [.setReg 0x08 1] State.reset).host = [.setReg 0x08 1] ∧
    (withHost [.setReg 1 1] State.reset).host = [.setReg 1 1] ∧ (1 ≤ 1 ∧ 7 ≤ 7) ∧
    (withHost [.setWdata 126 1] State.reset).host = [.setWdata 126 1] ∧
    (withHost [.setIbuf 255 1] State.reset).host = [.setIbuf 255 1] ∧
    (withHost [.setOut 254 1] State.reset).host = [.setOut 254 1] := by decide

/-- A host write of OUT is ignored (R35: access RO), and there are 255 bytes of it. -/
theorem test_host_write_of_out :
    let s : State := { State.reset with out := [(254, 7)] }
    next? (step (withHost [.setOut 254 9] s)) = some s ∧ next? (step (withHost [.setOut 0 9] s)) = some s ∧
    fault? (step (withHost [.setOut 255 9] s)) = some (.noSuchElement 255) := by decide

/-- `HostReadsHaveNoEffect`, `HostReadValues`: the last element of each buffer, written. -/
theorem test_witness_host_reads :
    let s : State := { State.reset with wdata := [(126, 7)], ibuf := [(255, 7)], out := [(252, 1), (253, 2), (254, 3)] }
    (s.wdata.read 126).isSome = true ∧ (s.ibuf.read 255).isSome = true ∧ (s.out.read 254).isSome = true ∧
    (s.out.read (2 * 126)).isSome = true ∧ (s.out.read (2 * 126 + 1)).isSome = true ∧
    next? (step (withHost [.getOutw 126] s)) = some s := by decide

/-- `UnwrittenElementsFault`: each clause of a command, the first missing element the last one needed. -/
theorem test_witness_unwritten :
    let a : Args := { argsV32 with qty := 2 }
    let w : State := { runningAt .utilSwap .compute a [] [] [] with wdata := [(0, 1)] }
    let b : State := { runningAt .utilCrc16 .compute a [] [] [] with ibuf := [(0, 1)] }
    let m : State := { runningAt .tcpWrMulti (.tcp .main .rest) a [] [0, 0, 1] [.rxDone 3] with wdata := [(0, 1)] }
    fault? (exec .rtuWrMulti { idleFor .rtuWrMulti a with wdata := [(0, 1)] }) = some (.unwrittenWdata 1) ∧
    fault? (exec .tcpWrMulti (idleFor .tcpWrMulti a)) = some (.unwrittenWdata 0) ∧
    fault? (exec .tcpWrMulti m) = some (.unwrittenWdata 1) ∧
    fault? (exec .utilCrc16 b) = some (.unwrittenIbuf 1) ∧ fault? (exec .utilSwap w) = some (.unwrittenWdata 1) := by decide

/-- `UnwrittenElementsFault`: each host read, of the last element. -/
theorem test_witness_unwritten_host :
    fault? (step (withHost [.getOut 254] State.reset)) = some (.unwrittenOut 254) ∧
    fault? (step (withHost [.getWdata 126] State.reset)) = some (.unwrittenWdata 126) ∧
    fault? (step (withHost [.getIbuf 255] State.reset)) = some (.unwrittenIbuf 255) ∧
    fault? (step (withHost [.getOutw 126] State.reset)) = some (.unwrittenOut 252) ∧
    fault? (step (withHost [.getOutw 126] { State.reset with out := [(252, 1)] })) = some (.unwrittenOut 253) := by decide

/-- `CodecReadsBackWhatItWrites`, its clauses on one payload: V26's whole pair and odd last byte, V27's coils, SWAP 0. -/
theorem test_witness_codec_clauses :
    let d : List Byte := [0x12, 0x34, 0x56]
    2 * 0 + 1 < d.length ∧ 2 * 1 + 1 = d.length ∧ ((0x01 : Byte) ≠ 0x03 ∧ (0x01 : Byte) ≠ 0x04) ∧
    regCodecRead 0x01 1 [0xCD, 0x6B, 0xB2, 0x0E, 0x1B] = [0xCD, 0x6B, 0xB2, 0x0E, 0x1B] ∧ regCodecRead 0x04 0 d = d := by decide

/-- `CodecReadsBackWhatItWrites`, `OlderIsSerialDistance`: the distances 1, 0x7FFF and 0x8000 (V62 to V65). -/
theorem test_witness_codec_and_distance :
    ((0x03 : Byte) = 0x03 ∨ (0x03 : Byte) = 0x04) ∧ 1 < [0x1234, (0x5678 : Word)].length ∧
    older 0xFFFF 0x0000 = true ∧ older 0x0003 0x8002 = true ∧ older 0x0002 0x8002 = false := by decide +kernel

/-- `RtuFixedRequestLatched`, `RtuMultiRequestLatched` (the largest and the smallest count). -/
theorem test_witness_rtu_latched :
    Instr.rtuWrReg ∈ rtuFixed ∧ (idleFor .rtuWrReg argsV32).params.kind = .rtu ∧ (idleFor .rtuWrReg argsV32).status.busy = false ∧
    (List.replicate 127 (0 : Word)).length = (127 : Word).toNat ∧ [(0 : Word)].length = (1 : Word).toNat := ⟨by decide, by decide, by decide, by simp, by simp⟩

theorem test_witness_rtu_multi_words :
    Holds [(0, 0x0A00), (1, 0x0201)] [(0x0A00 : Word), 0x0201] := by unfold Holds; decide

/-- `TcpRequestLatched`, `TcpCoilRequestLatched`, `TcpMultiRequestLatched`, `UtilityCommandLatched`. -/
theorem test_witness_tcp_latched :
    Instr.tcpRdInput ∈ tcpReads ++ [Instr.tcpWrReg] ∧ Instr.tcpWrReg ∈ tcpReads ++ [Instr.tcpWrReg] ∧
    (idleFor .tcpWrCoil argsV32).status.busy = false ∧ (idleFor .tcpWrCoil argsV32).params.kind = .tcp ∧
    (1 ≤ (1 : Word).toNat ∧ (127 : Word).toNat ≤ 127) ∧ Memory.read [(0, (5 : Word))] 0 = some 5 ∧
    (Instr.utilCrc16 ∈ utils ∧ (256 : Word).toNat ≤ 256) ∧ (Instr.utilSwap ∈ utils ∧ (127 : Word).toNat ≤ 127) := by decide

/-- `RtuWriteCallOutcomes`: a short write of 7 of 8 bytes, a whole one that is the last, and a whole one with a chunk after it. -/
theorem test_witness_rtu_write_call :
    let c : List Byte := [1, 2, 3, 4, 5, 6, 7, 8]
    Runs .rtuRdHolding (.rtuTx c []) (rtuAt (.rtuTx c []) [] [] [.txDone 7]) ∧
    WriteReturns 7 [] (rtuAt (.rtuTx c []) [] [] [.txDone 7]) ∧ 7 < c.length ∧
    WriteReturns 8 [] (rtuAt (.rtuTx c []) [] [] [.txDone 8]) ∧
    Runs .rtuRdHolding (.rtuTx c [[9]]) (rtuAt (.rtuTx c [[9]]) [] [] [.txDone 8]) := by decide

/-- `RtuDeadlineStarts`, `RtuIncompleteReadSamplesClock` (no byte, and all but one), `RtuDeadlineIsStrict` (350 and 351). -/
theorem test_witness_rtu_clock :
    ClockReads 1000 [] (rtuAt .rtuT0 [] [] [.clock 1000]) ∧ Runs .rtuRdHolding .rtuT0 (rtuAt .rtuT0 [] [] [.clock 1000]) ∧
    ReadReturns [] [] [] (rtuAt (.rtuRx .start 0) [] [] [.rxDone 0]) ∧ 0 + 0 < rtuTarget .start 0 ∧
    ReadReturns [0x11, 0x03] [] [0x06] (rtuAt (.rtuRx .start 0) [] [0x11, 0x03, 0x06] [.rxDone 2]) ∧
    ClockReads 350 [] (rtuAt (.rtuClk .start 0) [0x11] [] [.clock 350]) ∧
    ClockReads 351 [] (rtuAt (.rtuClk .start 350) [0x11] [] [.clock 351]) ∧
    ((350 : Clock) - 0).toNat ≤ 350 ∧ 350 < ((351 : Clock) - 0).toNat ∧ ((350 : Clock) - 0).toNat ≤ ((351 : Clock) - 0).toNat := by
  decide

/-- `RtuStartChecks`: a wrong address (V43), an exception (P5), a wrong function (V45), a read with a payload and with none (V37,
V53), a write (V46). -/
theorem test_witness_rtu_start :
    let s (bs : List Byte) := rtuAt (.rtuRx .start 0) [] bs [.rxDone 3]
    let w := rtuWriteAt (.rtuRx .start 0) [0x11] [0x06, 0x00] [.rxDone 2]
    ReadReturns [0x12, 0x03, 0x06] [] [] (s [0x12, 0x03, 0x06]) ∧ (0x12 : Byte) ≠ argsV32.unit ∧
    ReadReturns [0x11, 0x83, 0x02] [] [] (s [0x11, 0x83, 0x02]) ∧ (0x83 : Byte) ≠ Instr.rtuRdHolding.fields.fc ∧
    128 ≤ (0x83 : Byte).toNat ∧
    ReadReturns [0x11, 0x04, 0x02] [] [] (s [0x11, 0x04, 0x02]) ∧ (0x04 : Byte) ≠ Instr.rtuRdHolding.fields.fc ∧
    (0x04 : Byte).toNat < 128 ∧
    ReadReturns [0x11, 0x03, 0x06] [] [] (s [0x11, 0x03, 0x06]) ∧ ReadReturns [0x11, 0x03, 0x00] [] [] (s [0x11, 0x03, 0x00]) ∧
    (0x11 : Byte) = argsV32.unit ∧ (0x03 : Byte) = Instr.rtuRdHolding.fields.fc ∧ Instr.rtuRdHolding ∈ rtuReads ∧
    ReadReturns [0x06, 0x00] [] [] w ∧ w.work.rxbuf ++ [0x06, 0x00] = [0x11, 0x06, 0x00] ∧
    (0x06 : Byte) = Instr.rtuWrReg.fields.fc ∧ Instr.rtuWrReg ∈ rtuWrites := by decide

/-- `RtuPayloadThenTrailer`: the largest payload's last byte. -/
theorem test_witness_rtu_payload :
    let s := withCount 255 (rtuAt (.rtuRx .payload 0) (List.replicate 257 0) [9] [.rxDone 1])
    Runs .rtuRdHolding (.rtuRx .payload 0) s ∧ ReadReturns [9] [] [] s ∧
    s.work.rxbuf.length + [(9 : Byte)].length = 3 + s.work.bcnt.toNat := by decide +kernel

/-- `RtuReadCompletes`: the right trailer (V37) and a wrong one (V42). -/
theorem test_witness_rtu_read_end :
    let p : List Byte := [0x11, 0x03, 0x06]
    let d : List Byte := [0x02, 0x2B, 0x00, 0x00, 0x00, 0x64]
    let s := withCount 6 (rtuAt (.rtuRx .trailer 0) (p ++ d) [0xC8, 0xBA] [.rxDone 2])
    Runs .rtuRdHolding (.rtuRx .trailer 0) s ∧ ReadReturns [0xC8, 0xBA] [] [] s ∧
    s.work.rxbuf ++ [0xC8, 0xBA] = p ++ d ++ [0xC8, 0xBA] ∧ d.length = s.work.bcnt.toNat ∧
    256 * (0xBA : Byte).toNat + (0xC8 : Byte).toNat = (crc16 (p ++ d) 0xFF 0xFF).toNat ∧
    256 * (0xBB : Byte).toNat + (0xC8 : Byte).toNat ≠ (crc16 (p ++ d) 0xFF 0xFF).toNat := by decide +kernel

/-- `RtuWriteCompletes`: a right echo (V46), a wrong value (V48), a wrong trailer (V47). -/
theorem test_witness_rtu_write_end :
    let s := rtuWriteAt (.rtuRx .echo 0) [0x11, 0x06, 0x00] [0x01, 0x00, 0x03, 0x9A, 0x9B] [.rxDone 5]
    Runs .rtuWrReg (.rtuRx .echo 0) s ∧ ReadReturns [0x01, 0x00, 0x03, 0x9A, 0x9B] [] [] s ∧
    256 * (0x00 : Byte).toNat + (0x01 : Byte).toNat = s.latched.start.toNat ∧
    256 * (0x00 : Byte).toNat + (0x03 : Byte).toNat = s.latched.qty.toNat ∧
    256 * (0x00 : Byte).toNat + (0x04 : Byte).toNat ≠ s.latched.qty.toNat ∧
    256 * (0x9B : Byte).toNat + (0x9A : Byte).toNat = (crc16 [0x11, 0x06, 0x00, 0x01, 0x00, 0x03] 0xFF 0xFF).toNat ∧
    256 * (0x1B : Byte).toNat + (0x9A : Byte).toNat ≠ (crc16 [0x11, 0x06, 0x00, 0x01, 0x00, 0x03] 0xFF 0xFF).toNat := by
  decide +kernel

/-- `TcpWriteCallOutcomes`: 11 and 12 of the 12 bytes. -/
theorem test_witness_tcp_write_call :
    let f : List Byte := List.replicate 12 0
    Runs .tcpRdHolding (.tcp .main (.tx f)) (tcpAt (.tx f) [] [.txDone 11]) ∧ WriteReturns 11 [] (tcpAt (.tx f) [] [.txDone 11]) ∧
    11 < f.length ∧ WriteReturns 12 [] (tcpAt (.tx f) [] [.txDone 12]) ∧ 12 = f.length := by decide

/-- `TcpReadHeaderOutcomes`: 8 bytes; the id with each function answer and count; an older id at both ends of the range; an id just
outside it. -/
theorem test_witness_tcp_header :
    let h (e1 e0 f b : Byte) : List Byte := [e1, e0, 0, 0, 0, 7, 1, f, b]
    let s (bs : List Byte) := tcpAt .header bs [.rxDone bs.length]
    let behind (e : Nat) := ((1 : Word).toNat + 65536 - e) % 65536
    Runs .tcpRdHolding (.tcp .main .header) (s []) ∧ Instr.tcpRdHolding ∈ tcpReads ∧
    ReadReturns [1, 2, 3, 4, 5, 6, 7, 8] [] [] (s [1, 2, 3, 4, 5, 6, 7, 8]) ∧
    ReadReturns (h 0 1 0x03 4) [] [] (s (h 0 1 0x03 4)) ∧ 256 * (0 : Byte).toNat + (1 : Byte).toNat = (s []).tid.toNat ∧
    (0x03 : Byte) = Instr.tcpRdHolding.fields.fc ∧ (0x83 : Byte) ≠ Instr.tcpRdHolding.fields.fc ∧ 128 ≤ (0x83 : Byte).toNat ∧
    (0x04 : Byte) ≠ Instr.tcpRdHolding.fields.fc ∧ (0x04 : Byte).toNat < 128 ∧
    behind (256 * (0x00 : Byte).toNat + (0x00 : Byte).toNat) = 1 ∧ behind (256 * (0x80 : Byte).toNat + (0x02 : Byte).toNat) = 0x7FFF ∧
    behind (256 * (0x80 : Byte).toNat + (0x01 : Byte).toNat) = 0x8000 := by decide

/-- `TcpReadPayloadOutcomes`: all 255 bytes, and 254 of them. -/
theorem test_witness_tcp_payload :
    let s (n : Nat) := withCount 255 (tcpAt .payload (List.replicate n 7) [.rxDone n])
    Runs .tcpRdHolding (.tcp .main .payload) (s 255) ∧ ReadReturns (List.replicate 255 7) [] [] (s 255) ∧
    (List.replicate 255 (7 : Byte)).length = (s 255).work.bcnt.toNat ∧
    ReadReturns (List.replicate 254 7) [] [] (s 254) ∧ (List.replicate 254 (7 : Byte)).length < (s 254).work.bcnt.toNat := by
  decide +kernel

/-- `TcpWriteHeaderOutcomes`: the id, an older one (V68), and each function answer of a register of TCP.WR_MULTI, whose wire function
is 0x06. -/
theorem test_witness_tcp_write_header :
    let s (bs : List Byte) := tcpWriteAt .tcpWrMulti .header bs [.rxDone bs.length]
    Runs .tcpWrMulti (.tcp .main .header) (s []) ∧ Instr.tcpWrMulti ∈ tcpWrites ∧
    ReadReturns [0, 1, 0, 0, 0, 6, 1, 0x06, 0] [] [] (s [0, 1, 0, 0, 0, 6, 1, 0x06, 0]) ∧
    256 * (0 : Byte).toNat + (1 : Byte).toNat = (s []).tid.toNat ∧ 256 * (0 : Byte).toNat + (0 : Byte).toNat ≠ (s []).tid.toNat ∧
    (0x06 : Byte) = wireFc .tcpWrMulti ∧ (0x86 : Byte) ≠ wireFc .tcpWrMulti ∧ 128 ≤ (0x86 : Byte).toNat ∧
    (0x10 : Byte) ≠ wireFc .tcpWrMulti ∧ (0x10 : Byte).toNat < 128 := by decide

/-- `TcpSingleWriteCompletes`: three bytes and two. -/
theorem test_witness_tcp_single_write :
    Instr.tcpWrReg ∈ [Instr.tcpWrReg, Instr.tcpWrCoil] ∧
    Runs .tcpWrReg (.tcp .main .rest) (tcpWriteAt .tcpWrReg .rest [1, 2, 3] [.rxDone 3]) ∧
    ReadReturns [1, 2, 3] [] [] (tcpWriteAt .tcpWrReg .rest [1, 2, 3] [.rxDone 3]) ∧
    ReadReturns [1, 2] [] [] (tcpWriteAt .tcpWrReg .rest [1, 2] [.rxDone 2]) := by decide

/-- `TcpPreReadOutcomes`: the payload as wanted, not as wanted (V74), and short; each header clause; the request whole and short. -/
theorem test_witness_pre_read :
    let p (bs : List Byte) := withCount 1 (preReadAt .payload bs [.rxDone bs.length])
    let f : List Byte := List.replicate 12 0
    Runs .tcpWrCoil (.tcp .preRead .payload) (p [1]) ∧ ReadReturns [1] [] [] (p [1]) ∧ (byteAt [1] 0).toNat % 2 = 1 ∧
    ReadReturns [0] [] [] (p [0]) ∧ (byteAt [0] 0).toNat % 2 ≠ 1 ∧ ReadReturns [] [] [] (p []) ∧ 0 < (p []).work.bcnt.toNat ∧
    Runs .tcpWrCoil (.tcp .preRead .header) (preReadAt .header [] [.rxDone 0]) ∧
    headerTid [0, 1, 0, 0, 0, 4, 1, 0x01, 1] = (preReadAt .header [] []).tid ∧ byteAt [0, 1, 0, 0, 0, 4, 1, 0x81, 2] 7 ≠ 0x01 ∧
    byteAt [0, 1, 0, 0, 0, 4, 1, 0x01, 1] 8 ≠ 0 ∧ byteAt [0, 1, 0, 0, 0, 4, 1, 0x01, 0] 8 = 0 ∧
    older (headerTid [0, 0, 0, 0, 0, 4, 1, 0x01, 1]) 1 = true ∧ older (headerTid [0, 2, 0, 0, 0, 4, 1, 0x01, 1]) 1 = false ∧
    Runs .tcpWrCoil (.tcp .preRead (.tx f)) (preReadAt (.tx f) [] [.txDone 11]) ∧ 11 < f.length ∧
    WriteReturns 12 [] (preReadAt (.tx f) [] [.txDone 12]) := by decide

/-- `TcpMultiRegisterDone`: the last of 127 registers, the last but one, and a short read. -/
theorem test_witness_multi_register :
    let s (i : Byte) (bs : List Byte) : State :=
      { withTid 1 (runningAt .tcpWrMulti (.tcp .main .rest) { argsV32 with qty := 127 } [] bs [.rxDone bs.length]) with
        work := { Work.reset with i := i }, wdata := [(126, 5)] }
    Runs .tcpWrMulti (.tcp .main .rest) (s 126 [1, 2, 3]) ∧ ReadReturns [1, 2, 3] [] [] (s 126 [1, 2, 3]) ∧
    (s 126 []).work.i.toNat + 1 = (s 126 []).latched.qty.toNat ∧ (s 125 []).work.i.toNat + 1 < (s 125 []).latched.qty.toNat ∧
    (s 125 []).wdata.read ((s 125 []).work.i.toNat + 1) = some 5 ∧ (s 0 []).latched.qty.toNat ≤ 127 ∧
    ReadReturns [1, 2] [] [] (s 126 [1, 2]) := by decide

/-- `UtilCrc16Completes`, `UtilSwapCompletes`: no element, and three. -/
theorem test_witness_util_words :
    Holds ([] : Memory 8) ([] : List Byte) ∧
    Holds [(0, 0x1234), (1, 0xABCD), (2, 0x00FF)] [(0x1234 : Word), 0xABCD, 0x00FF] := by unfold Holds; decide

theorem test_witness_util :
    Runs .utilCrc16 .compute (runningAt .utilCrc16 .compute { argsV32 with qty := 0 } [] [] []) ∧
    ([] : List Byte).length = (runningAt .utilCrc16 .compute { argsV32 with qty := 0 } [] [] []).latched.qty.toNat ∧
    Runs .utilSwap .compute (runningAt .utilSwap .compute argsV32 [] [] []) ∧
    [(0x1234 : Word), 0xABCD, 0x00FF].length = (runningAt .utilSwap .compute argsV32 [] [] []).latched.qty.toNat := by decide

/-- `CommandsKeepTheHostSide`, `ResultsChangeOnlyAtCompletion`, `TidChangesOnlyBySending`, `OneVisibleEventPerAction` and
`EveryEndingIsOneOfThree`: an action that latches, one that moves on, one that
sends, and one that ends a running command. -/
theorem test_witness_frames :
    (next? (exec .rtuRdHolding (idleFor .rtuRdHolding argsV32))).isSome = true ∧
    point? (exec .rtuRdHolding (rtuAt (.rtuClk .start 0) [0x11] [] [.clock 350])) = some (.rtuRx .start 350) ∧
    (next? (exec .tcpRdHolding (idleFor .tcpRdHolding argsV32))).map State.tid = some 1 ∧
    ending? (exec .rtuRdHolding (rtuAt (.rtuClk .start 0) [0x11] [] [.clock 351])) = some (0xFFFF, 5, 0, 0) := by decide +kernel

/-- `OneVisibleEventPerAction`: the world's acts on an idle engine, on a running one whose host waits, and the refused loss. -/
theorem test_witness_world_acts :
    let s := rtuAt (.rtuRx .start 0) [] [1, 2] [.arrive [3]]
    let q (r : Result) := (next? r).map fun t => t.transport.inQ
    q (step (withHost [.wait] s)) = some [1, 2, 3] ∧ q (step { State.reset with env := [.arrive [3]] }) = some [3] ∧
    q (step { s with env := [.drain] }) = some [] ∧
    q (step { s with env := [.lose 1], params := { s.params with retainsUnread := false } }) = some [2] ∧
    refusal? (step { s with env := [.lose 1] }) = some .lostRetainedBytes := by decide

/-- `OutputBytesFrame`: at its limit of 127 words UTIL.SWAP writes 254 bytes; a TCP server exception leaves OUT. -/
theorem test_witness_output_frame :
    (Instr.utilSwap = .utilSwap → (runningAt .utilSwap .compute { argsV32 with qty := 127 } [] [] []).latched.qty.toNat ≤ 127) ∧
    ending? (exec .tcpRdHolding (tcpAt .header [0, 1, 0, 0, 0, 3, 1, 0x83, 2] [.rxDone 9])) = some (2, 10, 0, 0) := by decide

/-- `InvariantKeptByStep`, `RtuEngineKeepsTid`: a sound state in the middle of an RTU response, and its step. -/
theorem test_witness_invariant :
    Sound (rtuAt (.rtuRx .start 0) [0x11] [0x03] [.rxDone 1]) ∧
    point? (step (rtuAt (.rtuRx .start 0) [0x11] [0x03] [.rxDone 1])) = some (.rtuClk .start 0) ∧
    (rtuAt (.rtuRx .start 0) [0x11] [0x03] [.rxDone 1]).params.kind = .rtu := by
  refine ⟨⟨by decide, by decide, by decide, by decide, by decide, .inl (by decide), by decide, by decide, by decide, ?_⟩,
    by decide, by decide⟩
  exact ⟨by decide, by decide, by decide, by simp, by decide, by decide, by decide⟩

/-- `SoundStatesStopOnlyOnInput`: a sound state whose read returns more than was asked. -/
theorem test_witness_input_refusal :
    Sound (rtuAt (.rtuRx .start 0) [0x11] [1, 2, 3] [.rxDone 3]) ∧
    refusal? (step (rtuAt (.rtuRx .start 0) [0x11] [1, 2, 3] [.rxDone 3])) = some .overlongRead := by
  refine ⟨⟨by decide, by decide, by decide, by decide, by decide, .inl (by decide), by decide, by decide, by decide, ?_⟩,
    by decide⟩
  exact ⟨by decide, by decide, by decide, by simp, by decide, by decide, by decide⟩

/-- `FragmentedRtuReadDelivers`: V40's script, at the budget's edge, and V53's empty payload. -/
theorem test_witness_fragmented :
    accBytes [(2, 350)] 1 = 3 ∧ accBytes [(2, 350), (2, 350)] 2 = 6 ∧ accBytes [] 2 = 2 ∧
    Paced 0 0 ([(2, 350)] ++ [(2, 350), (2, 350)] ++ []) ∧ Paced 0 0 ([(0, 350)] ++ [] ++ [(1, 350)]) ∧
    accBytes [(0, 350)] 3 = 3 ∧ accBytes [(1, 350)] 1 = 2 := by
  simp [accBytes, Paced]

/-- `FragmentedRtuReadDelivers`: the state before V40's first sample. -/
theorem test_witness_fragmented_state :
    let d : List Byte := [0x02, 0x2B, 0x00, 0x00, 0x00, 0x64]
    let script := EnvInput.clock 0 :: (accScript [(2, 350)] 1 ++ accScript [(2, 350), (2, 350)] 2 ++ accScript [] 2)
    let s := rtuAt .rtuT0 [] (rtuResponse 0x11 0x03 6 d) script
    Runs .rtuRdHolding .rtuT0 s ∧ s.host = [] ∧ s.env = script ∧
    s.transport.inQ = rtuResponse s.latched.unit Instr.rtuRdHolding.fields.fc (BitVec.ofNat 8 d.length) d ++ [] := by
  decide +kernel

/-- `SilentRtuLineTimesOut`: P2's last part, an empty read at 300 and the sample 351. -/
theorem test_witness_silent_line :
    let s := withCount 6 (rtuAt (.rtuRx .payload 200) [0x11, 0x03, 0x06, 0x02, 0x2B, 0x00, 0x00] []
      ((([300] ++ [351] : List Clock)).flatMap (fun c => [EnvInput.rxDone 0, EnvInput.clock c])))
    Runs .rtuRdHolding (.rtuRx .payload 200) s ∧ s.host = [] ∧ s.work.rxbuf.length < rtuTarget .payload s.work.bcnt ∧
    350 < ((351 : Clock) - s.work.t0).toNat ∧
    ∀ c ∈ ([200, 300] : List Clock), (c - s.work.t0).toNat ≤ ((351 : Clock) - s.work.t0).toNat := by
  exact ⟨⟨rfl, rfl⟩, rfl, by decide, by decide, by simp [withCount, rtuAt, runningAt, Work.reset]⟩

theorem test_witness_silent_paced : Paced 0 ((200 : Clock) - 0).toNat (([300] : List Clock).map fun c => (0, c)) := by
  simp [Paced]

/-- `TcpMultiWritesEveryRegister`: V78's two registers. -/
theorem test_witness_multi_runs :
    let a : Args := { argsV32 with start := 0x0010, qty := 2 }
    let j : List Byte × List Byte := ([0, 0, 0, 6, 1], [0, 0x10, 0x12, 0x34])
    let s : State := { withHost [.setReg 0x00 0x4010] (idleFor .tcpWrMulti a) with
      wdata := [(0, 0x3412), (1, 0x7856)], env := echoScripts 1 [j, j] }
    s.host = [.setReg 0x00 0x4010] ∧ s.status.busy = false ∧ s.params.kind = .tcp ∧ s.transport.inQ = [] ∧
    [(0x3412 : Word), 0x7856].length = s.args.qty.toNat ∧ (∀ k ∈ [j, j], k.1.length = 5 ∧ k.2.length = 4) ∧
    s.env = echoScripts (s.tid + 1) [j, j] := by decide

theorem test_witness_multi_words : Holds [(0, 0x3412), (1, 0x7856)] [(0x3412 : Word), 0x7856] := by unfold Holds; decide

/-- An echo of P4's first and second registers, and the state P4 starts from, the outside world answering the third so. -/
def echoP4 : List Byte × List Byte := ([0, 0, 0, 6, 1], [0, 0x10, 0x11, 0x11])
def multiP4 (answers : List EnvInput) : State :=
  { withHost [.setReg 0x00 0x4010] (idleFor .tcpWrMulti { unit := 1, start := 0x0010, qty := 5, swap := 0 }) with
    wdata := [(0, 0x1111), (1, 0x2222), (2, 0x3333), (3, 0x4444), (4, 0x5555)]
    env := echoScripts 1 [echoP4, echoP4] ++ answers }

/-- `TcpMultiStopsAtFirstFailure`: P4 meets all its hypotheses together, whatever the third register's answers. -/
theorem test_witness_multi_stops (answers : List EnvInput) :
    let s := multiP4 answers
    let before : List Word := [0x1111, 0x2222]
    let after : List Word := [0x4444, 0x5555]
    s.host = [.setReg 0x00 0x4010] ∧ s.status.busy = false ∧ s.params.kind = .tcp ∧ s.transport.inQ = [] ∧
    before.length + 1 + after.length = s.args.qty.toNat ∧ s.args.qty.toNat ≤ 127 ∧
    Holds s.wdata (before ++ 0x3333 :: after) ∧ [echoP4, echoP4].length = before.length ∧
    (∀ j ∈ [echoP4, echoP4], j.1.length = 5 ∧ j.2.length = 4) ∧ s.env = echoScripts (s.tid + 1) [echoP4, echoP4] ++ answers ∧
    s.tid + 1 + BitVec.ofNat 16 before.length = 3 := by
  refine ⟨rfl, rfl, rfl, rfl, rfl, (by decide : 5 ≤ 127), ?_, rfl, by decide, rfl, rfl⟩
  show Holds [(0, 0x1111), (1, 0x2222), (2, 0x3333), (3, 0x4444), (4, 0x5555)] [(0x1111 : Word), 0x2222, 0x3333, 0x4444, 0x5555]
  unfold Holds
  decide

/-- Each failure of the third register's transaction, id 3, at the boundary of its range; the server exception is P4's. -/
theorem test_witness_txn_fails :
    TxnFails 3 [.txDone 11] 11 0xFFFF 2 ∧
    TxnFails 3 [.txDone 12, .arrive [0, 3, 0, 0, 0, 3, 1, 0x86], .rxDone 8] 12 0xFFFF 8 ∧
    TxnFails 3 [.txDone 12, .arrive [0, 2, 0, 0, 0, 6, 1, 6, 0], .rxDone 9] 12 0xFFFF 9 ∧
    TxnFails 3 [.txDone 12, .arrive [0, 3, 0, 0, 0, 3, 1, 0x86, 2], .rxDone 9] 12 2 10 ∧
    TxnFails 3 [.txDone 12, .arrive [0, 3, 0, 0, 0, 3, 1, 0x7F, 2], .rxDone 9] 12 0xFFFF 4 ∧
    TxnFails 3 [.txDone 12, .arrive [0, 3, 0, 0, 0, 6, 1, 6, 0, 0x12, 0x33], .rxDone 9, .rxDone 2] 12 0xFFFF 8 :=
  ⟨.shortWrite 11 (by decide), .shortHeader _ 8 (by decide) (by decide), .tidMismatch _ (by decide) (by decide),
    .serverException _ (by decide) (by decide) (by decide) (by decide),
    .funcMismatch _ (by decide) (by decide) (by decide) (by decide),
    .shortRest _ 2 (by decide) (by decide) (by decide) (by decide)⟩

/-- `NothingElseCarriesOver`: two different idle states, one with old results, an old OUT byte and old working values, and two running
ones that differ in a value no event reads. -/
theorem test_witness_nothing_carries :
    let s := idleFor .tcpRdHolding argsV32
    let r := rtuAt (.rtuClk .start 0) [0x11] [] [.clock 1]
    let u : State := { s with
      cmd := 0x4010, res := { Results.reset with rc := 2, cause := 10 }, out := [(0, 9)], work := { Work.reset with i := 5, zf := 3 } }
    s ≠ u ∧ forget s = forget u ∧ (next? (exec .tcpRdHolding s)).isSome = true ∧
    r ≠ withCount 9 r ∧ forget r = forget (withCount 9 r) ∧ (next? (exec .rtuRdHolding r)).isSome = true := by decide

end Sys2Proof.Machine.Tests
end

section
/-! Noninterference between commands (R42), as a simulation: two states that `forget` makes equal take alike actions. `Shares`
relates two states in which a command runs, `liveWork` their working values, and `Alike` what the two actions answer. -/

namespace Sys2Proof.Machine

/-! ### The relations -/

/-- A command runs in both states, and they differ at most in CMD, DONE, the last results, OUT, fsm and the working values. -/
inductive Shares : State → State → Prop
  | intro {s : State} {cmd : Word} {status : Status} {res : Results} {out : Memory 8} {fsm : Fsm} {work : Work}
      (hb : s.status.busy = true) (hb' : status.busy = true) :
      Shares s { s with cmd := cmd, status := status, res := res, out := out, fsm := fsm, work := work }

/-- What a host may rely on after command `i` ended: its result registers, and the OUT bytes that BC counts. -/
def SameResults (i : Instr) (t u : State) : Prop :=
  t.res.rc = u.res.rc ∧ t.res.cause = u.res.cause ∧ t.res.bc = u.res.bc ∧ t.res.ndone = u.res.ndone ∧
  (i = .utilCrc16 → t.res.cause = 0 → t.res.crcr = u.res.crcr) ∧
  ∀ j, j < t.res.bc.toNat → t.out.read j = u.out.read j

/-- If the first action of command `i` goes on, so does the second, to a state that `forget` makes equal, and with the same results
if no command runs then. -/
def Alike (i : Instr) (r q : Result) : Prop :=
  ∀ t, r = .next t → ∃ u, q = .next u ∧ forget t = forget u ∧ (t.status.busy = false → SameResults i t u)

theorem Shares.busy {s u : State} (h : Shares s u) : s.status.busy = true := by
  cases h
  assumption

theorem Shares.params {s u : State} (h : Shares s u) : s.params = u.params := by
  cases h
  rfl

theorem Shares.tid {s u : State} (h : Shares s u) : s.tid = u.tid := by
  cases h
  rfl

theorem Shares.latched {s u : State} (h : Shares s u) : s.latched = u.latched := by
  cases h
  rfl

theorem Shares.withWork {s u : State} (h : Shares s u) (w v : Work) :
    Shares { s with work := w } { u with work := v } := by
  obtain ⟨hb, hb'⟩ := h
  exact .intro hb hb'

/-! ### What `forget` keeps -/

/-- Working values are equally live at a point when those of them agree that later events read. -/
theorem liveWork_eq_iff {i : Instr} {pt : Point} {w v : Work} :
    liveWork i pt w = liveWork i pt v ↔
      (gathers pt = true → w.rxbuf = v.rxbuf ∧ w.t0 = v.t0) ∧ (usesCount pt = true → w.bcnt = v.bcnt) ∧
      (i = .tcpWrMulti → w.i = v.i) := by
  by_cases hg : gathers pt = true <;> by_cases hc : usesCount pt = true <;> by_cases hi : i = .tcpWrMulti <;>
    simp [liveWork, hg, hc, hi, and_assoc]

/-- The read and the sample of an accumulation have the same live values. -/
theorem liveWork_rtuClk (i : Instr) (ph : RtuPhase) (last last' : Clock) (w : Work) :
    liveWork i (.rtuClk ph last) w = liveWork i (.rtuRx ph last') w := by
  cases ph <;> rfl

theorem busy_eq_of_forget_eq {s u : State} (h : forget s = forget u) : s.status.busy = u.status.busy :=
  congrArg (·.status.busy) h

/-- Running states that `forget` makes equal stand at one point, with equal live values. -/
theorem running_of_forget_eq {i : Instr} {pt : Point} {s u : State} (h : forget s = forget u)
    (hb : s.status.busy = true) (hf : s.fsm = .run i pt) :
    u.fsm = .run i pt ∧ Shares s u ∧ liveWork i pt s.work = liveWork i pt u.work := by
  have hbu : u.status.busy = true := (busy_eq_of_forget_eq h).symm.trans hb
  have hfu : u.fsm = .run i pt := by simpa [forget, hb, hbu, hf] using (congrArg (·.fsm) h).symm
  refine ⟨hfu, ?_, by simpa [forget, hb, hbu, hf, hfu] using congrArg (·.work) h⟩
  have hu : u = { s with cmd := u.cmd, status := u.status, res := u.res, out := u.out, fsm := u.fsm, work := u.work } := by
    cases u
    simp_all [forget]
  rw [hu]
  exact .intro hb hbu

/-- Latching overwrites the arguments of the last command, so that states which `forget` makes equal share what events read. -/
theorem shares_latchRegs {s u : State} (h : forget s = forget u) (w : Word) :
    Shares (latchRegs w s) (latchRegs w u) := by
  have hu : latchRegs w u = { latchRegs w s with res := u.res, out := u.out, fsm := u.fsm, work := u.work } := by
    cases u
    simp_all [forget, latchRegs]
  rw [hu]
  exact .intro rfl rfl

theorem forget_goto_eq {i : Instr} {pt : Point} {s u : State} (h : Shares s u)
    (hw : liveWork i pt s.work = liveWork i pt u.work) : forget (goto i pt s) = forget (goto i pt u) := by
  obtain ⟨hb, hb'⟩ := h
  simp [forget, hb, hb', hw]

theorem forget_complete_eq {s u : State} (h : Shares s u) (e : Ending) (bytes : List Byte) (nd : Byte) :
    forget (complete e bytes nd s) = forget (complete e bytes nd u) := by
  cases h
  rfl

/-! ### Alike answers -/

theorem alike_refused (i : Instr) (x : Refusal) (q : Result) : Alike i (.refused x) q := by
  rintro t ⟨⟩

theorem alike_fault (i : Instr) (x : Fault) (q : Result) : Alike i (.fault x) q := by
  rintro t ⟨⟩

/-- A command that goes on running has no results yet. -/
theorem alike_next_running (i : Instr) {t u : State} (hb : t.status.busy = true) (h : forget t = forget u) :
    Alike i (.next t) (.next u) := by
  rintro _ ⟨⟩
  exact ⟨u, rfl, h, fun hn => absurd hb (by simp [hn])⟩

theorem alike_goto {i : Instr} {pt : Point} {s u : State} (h : Shares s u)
    (hw : liveWork i pt s.work = liveWork i pt u.work) : Alike i (.next (goto i pt s)) (.next (goto i pt u)) :=
  alike_next_running i h.busy (forget_goto_eq h hw)

/-- One ending gives the same results in both states: BC counts no more than the bytes just written (R25). -/
theorem alike_complete {i : Instr} {s u : State} (h : Shares s u) (e : Ending) (bytes : List Byte) (nd : Byte)
    (hc : i = .utilCrc16 → endingCause e = 0 → s.res.crcr = u.res.crcr) :
    Alike i (.next (complete e bytes nd s)) (.next (complete e bytes nd u)) := by
  rintro _ ⟨⟩
  refine ⟨_, rfl, forget_complete_eq h e bytes nd, fun _ => ⟨rfl, rfl, rfl, rfl, hc, fun j hj => ?_⟩⟩
  have hlt : j < bytes.length := Nat.lt_of_lt_of_le hj (by simpa using Nat.mod_le _ _)
  simp [Memory.read_writeList_zero, hlt]

/-- The endings of every command but UTIL.CRC16, which alone writes CRCR (R28). -/
theorem alike_ends {i : Instr} (hi : i ≠ .utilCrc16) {s u : State} (h : Shares s u) (e : Ending) (bytes : List Byte)
    (nd : Byte) : Alike i (.next (complete e bytes nd s)) (.next (complete e bytes nd u)) :=
  alike_complete h e bytes nd fun hc => absurd hc hi

/-! ### The three calls

While a call has not returned, nothing happens in either state: `hwait` says that `forget` makes them equal already. A call that
returns gives both continuations the same answer. -/

section Calls
variable {i : Instr} {s u : State}

theorem alike_awaitTx (h : Shares s u) (hwait : forget s = forget u) {bs : List Byte} {tmo : Option Nat}
    {k l : Nat → State → Result}
    (hk : ∀ n s' u', Shares s' u' → s'.work = s.work → u'.work = u.work → Alike i (k n s') (l n u')) :
    Alike i (awaitTx bs tmo k s) (awaitTx bs tmo l u) := by
  obtain ⟨hb, hb'⟩ := h
  simp only [awaitTx]
  split
  · split
    · exact hk _ _ _ (.intro hb hb') rfl rfl
    · exact alike_refused _ _ _
  · exact alike_refused _ _ _
  · exact alike_refused _ _ _
  · exact alike_next_running i hb hwait

theorem alike_awaitRx (h : Shares s u) (hwait : forget s = forget u) {asked : Nat} {tmo : Option Nat}
    {k l : List Byte → State → Result}
    (hk : ∀ bs s' u', Shares s' u' → s'.work = s.work → u'.work = u.work → Alike i (k bs s') (l bs u')) :
    Alike i (awaitRx asked tmo k s) (awaitRx asked tmo l u) := by
  obtain ⟨hb, hb'⟩ := h
  simp only [awaitRx]
  split
  · split
    · exact alike_refused _ _ _
    · split
      · exact alike_refused _ _ _
      · exact hk _ _ _ (.intro hb hb') rfl rfl
  · exact alike_refused _ _ _
  · exact alike_refused _ _ _
  · exact alike_next_running i hb hwait

theorem alike_awaitClock (h : Shares s u) (hwait : forget s = forget u) {k l : Clock → State → Result}
    (hk : ∀ v s' u', Shares s' u' → s'.work = s.work → u'.work = u.work → Alike i (k v s') (l v u')) :
    Alike i (awaitClock k s) (awaitClock l u) := by
  obtain ⟨hb, hb'⟩ := h
  simp only [awaitClock]
  split
  · exact hk _ _ _ (.intro hb hb') rfl rfl
  · exact alike_refused _ _ _
  · exact alike_refused _ _ _
  · exact alike_next_running i hb hwait

end Calls

/-! ### RTU commands -/

section Rtu
variable {i : Instr} {s u : State}

/-- The length that completes a part depends on the byte count only where that is live. -/
theorem rtuTarget_eq {ph : RtuPhase} {last : Clock} {b c : Byte} (h : usesCount (.rtuRx ph last) = true → b = c) :
    rtuTarget ph b = rtuTarget ph c := by
  cases ph with
  | start => rfl
  | payload => rw [h rfl]
  | trailer => rw [h rfl]
  | echo => rfl

theorem alike_rtuCheckStart (hi : i ≠ .utilCrc16) (h : Shares s u) (hr : s.work.rxbuf = u.work.rxbuf) {fc : Byte}
    {ok ok' : State → Result} (hok : Alike i (ok s) (ok' u)) :
    Alike i (rtuCheckStart fc ok s) (rtuCheckStart fc ok' u) := by
  simp only [rtuCheckStart, ← hr, ← h.latched]
  split
  · exact alike_ends hi h _ _ _
  · split
    · exact alike_ends hi h _ _ _
    · exact alike_ends hi h _ _ _
    · exact hok

theorem alike_rtuReadBegin (h : Shares s u) {ph : RtuPhase} {last : Clock}
    (hw : liveWork i (.rtuRx ph last) s.work = liveWork i (.rtuRx ph last) u.work) :
    Alike i (rtuReadBegin i last s) (rtuReadBegin i last u) := by
  obtain ⟨hg, -, hreg⟩ := liveWork_eq_iff.1 hw
  simp only [rtuReadBegin, ← (hg rfl).1]
  exact alike_goto (h.withWork _ _) (liveWork_eq_iff.2 ⟨fun _ => ⟨rfl, (hg rfl).2⟩, fun _ => rfl, hreg⟩)

/-- The CRC check of a read response and the commit, for each answer of the check (R130, R131). -/
theorem rtuReadCheck_eq (fc : Byte) (s : State) :
    rtuReadCheck fc s =
      let c := chainedCrc (rtuStartBytes s) (rtuPayloadBytes s)
      let ok := trailerOk c (byteAt (rtuTrailerBytes s) 0) (byteAt (rtuTrailerBytes s) 1)
      .next (complete (if ok then .success else .fail .crcMismatch)
        (if ok then regCodecRead fc s.latched.swap (rtuPayloadBytes s) else []) 0
        { s with work := { s.work with crcw := c } }) := by
  cases h : trailerOk (chainedCrc (rtuStartBytes s) (rtuPayloadBytes s)) (byteAt (rtuTrailerBytes s) 0)
      (byteAt (rtuTrailerBytes s) 1) with
  | true =>
    simp only [h, if_true]
    exact if_pos h
  | false =>
    simp only [h, Bool.false_eq_true, if_false]
    exact if_neg (ne_true_of_eq_false h)

theorem alike_rtuReadCheck (hi : i ≠ .utilCrc16) (h : Shares s u) (hr : s.work.rxbuf = u.work.rxbuf)
    (hc : s.work.bcnt = u.work.bcnt) (fc : Byte) : Alike i (rtuReadCheck fc s) (rtuReadCheck fc u) := by
  have hl : s.latched.swap = u.latched.swap := congrArg Args.swap h.latched
  have hstart : rtuStartBytes s = rtuStartBytes u := by simp [rtuStartBytes, hr]
  have hpay : rtuPayloadBytes s = rtuPayloadBytes u := by simp [rtuPayloadBytes, hr, hc]
  have htrail : rtuTrailerBytes s = rtuTrailerBytes u := by simp [rtuTrailerBytes, hr, hc]
  simp only [rtuReadCheck_eq, ← hl, ← hstart, ← hpay, ← htrail]
  exact alike_ends hi (h.withWork _ _) _ _ _

theorem alike_rtuWriteCheck (hi : i ≠ .utilCrc16) (h : Shares s u) (hr : s.work.rxbuf = u.work.rxbuf) (a b : Word)
    (nd : Byte) : Alike i (rtuWriteCheck a b nd s) (rtuWriteCheck a b nd u) := by
  simp only [rtuWriteCheck, ← hr]
  split
  · exact alike_ends hi h _ _ _
  · split
    · exact alike_ends hi (h.withWork _ _) _ _ _
    · exact alike_ends hi (h.withWork _ _) _ _ _

/-- A completed part is checked from RXBUF and the count, live as at the read that completed it (R126 to R134). -/
theorem alike_rtuPartDone (hi : i ≠ .utilCrc16) (h : Shares s u) {ph : RtuPhase} {last : Clock}
    (hw : liveWork i (.rtuRx ph last) s.work = liveWork i (.rtuRx ph last) u.work) (fc : Byte) (kind : RtuParse) :
    Alike i (rtuPartDone i fc kind ph last s) (rtuPartDone i fc kind ph last u) := by
  obtain ⟨hg, hc, hreg⟩ := liveWork_eq_iff.1 hw
  have hr := (hg rfl).1
  cases kind with
  | read =>
    cases ph with
    | start => exact alike_rtuCheckStart hi h hr (alike_rtuReadBegin h hw)
    | payload => exact alike_goto h hw
    | trailer => exact alike_rtuReadCheck hi h hr (hc rfl) fc
    | echo => exact alike_refused _ _ _
  | write nd =>
    cases ph with
    | start =>
      simp only [rtuPartDone]
      refine alike_rtuCheckStart hi h hr ?_
      exact alike_goto h (liveWork_eq_iff.2 ⟨hg, nofun, hreg⟩)
    | payload => exact alike_refused _ _ _
    | trailer => exact alike_refused _ _ _
    | echo =>
      simp only [rtuPartDone, ← h.latched]
      exact alike_rtuWriteCheck hi h hr _ _ nd

/-- Every event of an RTU command: each point reads the values that the event before it wrote. -/
theorem alike_rtuEvent (hi : i ≠ .utilCrc16) (h : Shares s u) (hwait : forget s = forget u) {pt : Point}
    (hw : liveWork i pt s.work = liveWork i pt u.work) (fc : Byte) (kind : RtuParse) :
    Alike i (rtuEvent i fc kind pt s) (rtuEvent i fc kind pt u) := by
  obtain ⟨hg, hc, hreg⟩ := liveWork_eq_iff.1 hw
  cases pt with
  | rtuTx chunk more =>
    simp only [rtuEvent, ← h.params]
    refine alike_awaitTx h hwait fun n s' u' h' hs hu => ?_
    rw [← hs, ← hu] at hreg
    split
    · exact alike_ends hi h' _ _ _
    · split
      · exact alike_goto h' (liveWork_eq_iff.2 ⟨nofun, nofun, hreg⟩)
      · exact alike_goto h' (liveWork_eq_iff.2 ⟨nofun, nofun, hreg⟩)
  | rtuT0 =>
    simp only [rtuEvent]
    refine alike_awaitClock h hwait fun v s' u' h' hs hu => ?_
    rw [← hs, ← hu] at hreg
    exact alike_goto (h'.withWork _ _) (liveWork_eq_iff.2 ⟨fun _ => ⟨rfl, rfl⟩, nofun, hreg⟩)
  | rtuRx ph last =>
    have ht : rtuTarget ph s.work.bcnt = rtuTarget ph u.work.bcnt := rtuTarget_eq hc
    simp only [rtuEvent, rtuMissing, ← h.params, ← (hg rfl).1, ← ht]
    refine alike_awaitRx h hwait fun bs s' u' h' hs hu => ?_
    simp only [hs, hu, ← (hg rfl).1, ← ht]
    have hw' : liveWork i (.rtuRx ph last) { s.work with rxbuf := s.work.rxbuf ++ bs } =
        liveWork i (.rtuRx ph last) { u.work with rxbuf := s.work.rxbuf ++ bs } :=
      liveWork_eq_iff.2 ⟨fun _ => ⟨rfl, (hg rfl).2⟩, hc, hreg⟩
    split
    · exact alike_rtuPartDone hi (h'.withWork _ _) hw' fc kind
    · exact alike_goto (h'.withWork _ _) (by simpa only [liveWork_rtuClk i ph last last] using hw')
  | rtuClk ph last =>
    simp only [rtuEvent]
    refine alike_awaitClock h hwait fun v s' u' h' hs hu => ?_
    simp only [hs, hu, ← (hg rfl).2]
    split
    · exact alike_refused _ _ _
    · split
      · exact alike_ends hi h' _ _ _
      · exact alike_goto h' (by simpa only [hs, hu, liveWork_rtuClk i ph last v] using hw)
  | tcp txn ph => exact alike_refused _ _ _
  | compute => exact alike_refused _ _ _

/-- The start of an RTU command with a fixed request, from arguments just latched. -/
theorem alike_rtuStartFixed {i : Instr} (hi : i ≠ .tcpWrMulti) (h : Shares s u) (fc : Byte) :
    Alike i (rtuStartFixed i fc s) (rtuStartFixed i fc u) := by
  obtain ⟨hb, hb'⟩ := h
  exact alike_goto (.intro hb hb') (liveWork_eq_iff.2 ⟨nofun, nofun, fun hm => absurd hm hi⟩)

theorem alike_rtuStartMulti (h : Shares s u) :
    Alike .rtuWrMulti (rtuStartMulti .rtuWrMulti s) (rtuStartMulti .rtuWrMulti u) := by
  obtain ⟨hb, hb'⟩ := h
  simp only [rtuStartMulti]
  split
  · exact alike_fault _ _ _
  · exact alike_goto (.intro hb hb') (liveWork_eq_iff.2 ⟨nofun, nofun, nofun⟩)

end Rtu

/-! ### TCP commands

`hreg` says that TCP.WR_MULTI is at the same register, the one working value that stays live through a transaction. -/

section Tcp
variable {i : Instr} {s u : State}

/-- The ends of a read transaction are alike where ZF is, which a failure alone looks at (R169). -/
def ReadEndsAlike (i : Instr) (fin : TxnEnd → State → Result) : Prop :=
  ∀ e s u, Shares s u → (∀ c, e = .fail c → s.work.zf = u.work.zf) → Alike i (fin e s) (fin e u)

/-- The ends of a write transaction are alike where the register of TCP.WR_MULTI is. -/
def WriteEndsAlike (i : Instr) (fin : TxnEnd → State → Result) : Prop :=
  ∀ e s u, Shares s u → (i = .tcpWrMulti → s.work.i = u.work.i) → Alike i (fin e s) (fin e u)

theorem alike_tcpSend (h : Shares s u) (hreg : i = .tcpWrMulti → s.work.i = u.work.i) (txn : TcpTxn) (fc : Byte)
    (a b : Word) : Alike i (tcpSend i txn fc a b s) (tcpSend i txn fc a b u) := by
  obtain ⟨hb, hb'⟩ := h
  exact alike_goto (.intro hb hb') (liveWork_eq_iff.2 ⟨nofun, nofun, hreg⟩)

theorem alike_tcpReadHeader (h : Shares s u) (hreg : i = .tcpWrMulti → s.work.i = u.work.i)
    {fin : TxnEnd → State → Result} (hfin : ReadEndsAlike i fin) (txn : TcpTxn) (fc : Byte) (hdr : List Byte) :
    Alike i (tcpReadHeader i txn fc fin hdr s) (tcpReadHeader i txn fc fin hdr u) := by
  obtain ⟨hb, hb'⟩ := h
  simp only [tcpReadHeader]
  split
  · split
    · exact hfin _ _ _ (.intro hb hb') nofun
    · exact hfin _ _ _ (.intro hb hb') fun _ _ => rfl
    · split
      · exact hfin _ _ _ (.intro hb hb') nofun
      · exact alike_goto (.intro hb hb') (liveWork_eq_iff.2 ⟨nofun, fun _ => rfl, hreg⟩)
  · split
    · exact alike_goto (.intro hb hb') (liveWork_eq_iff.2 ⟨nofun, nofun, hreg⟩)
    · exact hfin _ _ _ (.intro hb hb') fun _ _ => rfl

/-- Every event of a read transaction: a failure writes ZF before its end reads it. -/
theorem alike_tcpReadEvent (h : Shares s u) (hwait : forget s = forget u) {txn : TcpTxn} {ph : TcpPhase}
    (hw : liveWork i (.tcp txn ph) s.work = liveWork i (.tcp txn ph) u.work) {fin : TxnEnd → State → Result}
    (hfin : ReadEndsAlike i fin) (fc : Byte) :
    Alike i (tcpReadEvent i txn fc fin ph s) (tcpReadEvent i txn fc fin ph u) := by
  obtain ⟨-, hc, hreg⟩ := liveWork_eq_iff.1 hw
  cases ph with
  | tx frame =>
    simp only [tcpReadEvent]
    refine alike_awaitTx h hwait fun n s' u' h' hs hu => ?_
    rw [← hs, ← hu] at hreg
    split
    · exact hfin _ _ _ (h'.withWork _ _) fun _ _ => rfl
    · exact alike_goto h' (liveWork_eq_iff.2 ⟨nofun, nofun, hreg⟩)
  | header =>
    simp only [tcpReadEvent]
    refine alike_awaitRx h hwait fun hdr s' u' h' hs hu => ?_
    rw [← hs, ← hu] at hreg
    split
    · exact hfin _ _ _ (h'.withWork _ _) fun _ _ => rfl
    · exact alike_tcpReadHeader (h'.withWork _ _) (by exact hreg) hfin txn fc hdr
  | payload =>
    simp only [tcpReadEvent, ← hc rfl]
    refine alike_awaitRx h hwait fun d s' u' h' hs hu => ?_
    simp only [hs, hu, ← hc rfl]
    split
    · exact hfin _ _ _ (h'.withWork _ _) fun _ _ => rfl
    · exact hfin _ _ _ (h'.withWork _ _) nofun
  | rest => exact alike_refused _ _ _

theorem alike_tcpWriteHeader (h : Shares s u) (hreg : i = .tcpWrMulti → s.work.i = u.work.i)
    {fin : TxnEnd → State → Result} (hfin : WriteEndsAlike i fin) (txn : TcpTxn) (fc : Byte) (hdr : List Byte) :
    Alike i (tcpWriteHeader i txn fc fin hdr s) (tcpWriteHeader i txn fc fin hdr u) := by
  simp only [tcpWriteHeader, ← h.tid]
  split
  · exact hfin _ _ _ h hreg
  · split
    · exact hfin _ _ _ h hreg
    · exact hfin _ _ _ h hreg
    · exact alike_goto h (liveWork_eq_iff.2 ⟨nofun, nofun, hreg⟩)

/-- Every event of a write transaction. -/
theorem alike_tcpWriteEvent (h : Shares s u) (hwait : forget s = forget u) {txn : TcpTxn} {ph : TcpPhase}
    (hw : liveWork i (.tcp txn ph) s.work = liveWork i (.tcp txn ph) u.work) {fin : TxnEnd → State → Result}
    (hfin : WriteEndsAlike i fin) (fc : Byte) :
    Alike i (tcpWriteEvent i txn fc fin ph s) (tcpWriteEvent i txn fc fin ph u) := by
  obtain ⟨-, -, hreg⟩ := liveWork_eq_iff.1 hw
  cases ph with
  | tx frame =>
    simp only [tcpWriteEvent]
    refine alike_awaitTx h hwait fun n s' u' h' hs hu => ?_
    rw [← hs, ← hu] at hreg
    split
    · exact hfin _ _ _ h' hreg
    · exact alike_goto h' (liveWork_eq_iff.2 ⟨nofun, nofun, hreg⟩)
  | header =>
    simp only [tcpWriteEvent]
    refine alike_awaitRx h hwait fun hdr s' u' h' hs hu => ?_
    rw [← hs, ← hu] at hreg
    split
    · exact hfin _ _ _ (h'.withWork _ _) hreg
    · exact alike_tcpWriteHeader (h'.withWork _ _) (by exact hreg) hfin txn fc hdr
  | payload => exact alike_refused _ _ _
  | rest =>
    simp only [tcpWriteEvent]
    refine alike_awaitRx h hwait fun d s' u' h' hs hu => ?_
    rw [← hs, ← hu] at hreg
    split
    · exact hfin _ _ _ (h'.withWork _ _) hreg
    · exact hfin _ _ _ (h'.withWork _ _) hreg

theorem tcpReadEnd_alike (hi : i ≠ .utilCrc16) (fc : Byte) : ReadEndsAlike i (tcpReadEnd fc) := by
  intro e s u h hz
  cases e with
  | ok d =>
    obtain ⟨hb, hb'⟩ := h
    exact alike_ends hi (.intro hb hb') _ _ _
  | fail c =>
    simp only [tcpReadEnd, ← hz c rfl]
    exact alike_ends hi h _ _ _
  | serverExc k => exact alike_ends hi h _ _ _

theorem tcpWriteEnd_alike (hi : i ≠ .utilCrc16) : WriteEndsAlike i tcpWriteEnd :=
  fun e _ _ h _ => alike_ends hi h e.ending [] 0

theorem alike_tcpCoilWrite (h : Shares s u) : Alike .tcpWrCoil (tcpCoilWrite s) (tcpCoilWrite u) := by
  obtain ⟨hb, hb'⟩ := h
  exact alike_tcpSend (.intro hb hb') (by nofun) _ _ _ _

theorem tcpPreReadEnd_alike : ReadEndsAlike .tcpWrCoil tcpPreReadEnd := by
  intro e s u h _
  have hq : s.latched.qty = u.latched.qty := congrArg Args.qty h.latched
  cases e with
  | ok d =>
    simp only [tcpPreReadEnd_ok, ← hq]
    split
    · exact alike_ends (by decide) (h.withWork _ _) _ _ _
    · exact alike_tcpCoilWrite (h.withWork _ _)
  | fail c => exact alike_tcpCoilWrite (h.withWork _ _)
  | serverExc k => exact alike_tcpCoilWrite (h.withWork _ _)

theorem alike_tcpMultiSend (h : Shares s u) (hreg : s.work.i = u.work.i) :
    Alike .tcpWrMulti (tcpMultiSend s) (tcpMultiSend u) := by
  obtain ⟨hb, hb'⟩ := h
  dsimp only at hreg
  simp only [tcpMultiSend, ← hreg]
  split
  · exact alike_fault _ _ _
  · exact alike_tcpSend (.intro hb hb') (fun _ => hreg) _ _ _ _

theorem tcpMultiEnd_alike : WriteEndsAlike .tcpWrMulti tcpMultiEnd := by
  intro e s u h hreg
  have hr := hreg rfl
  obtain ⟨hb, hb'⟩ := h
  dsimp only at hr
  cases e with
  | ok d =>
    simp only [tcpMultiEnd, ← hr]
    split
    · exact alike_tcpMultiSend (.intro hb hb') rfl
    · refine alike_ends (by decide) ?_ _ _ _
      exact .intro hb hb'
  | fail c =>
    simp only [tcpMultiEnd, ← hr]
    exact alike_ends (by decide) (.intro hb hb') _ _ _
  | serverExc k =>
    simp only [tcpMultiEnd, ← hr]
    exact alike_ends (by decide) (.intro hb hb') _ _ _

/-- Every event of a TCP read command. -/
theorem alike_tcpReadCommand (hi : i ≠ .utilCrc16) (h : Shares s u) (hwait : forget s = forget u) {pt : Point}
    (hw : liveWork i pt s.work = liveWork i pt u.work) (fc : Byte) :
    Alike i (tcpReadCommand i fc pt s) (tcpReadCommand i fc pt u) := by
  cases pt with
  | tcp txn ph =>
    cases txn with
    | preRead => exact alike_refused _ _ _
    | main => exact alike_tcpReadEvent h hwait hw (tcpReadEnd_alike hi fc) fc
  | _ => exact alike_refused _ _ _

/-- Every event of TCP.WR_COIL. -/
theorem alike_tcpCoilEvent (h : Shares s u) (hwait : forget s = forget u) {pt : Point}
    (hw : liveWork .tcpWrCoil pt s.work = liveWork .tcpWrCoil pt u.work) :
    Alike .tcpWrCoil (tcpCoilEvent pt s) (tcpCoilEvent pt u) := by
  cases pt with
  | tcp txn ph =>
    cases txn with
    | preRead => exact alike_tcpReadEvent h hwait hw tcpPreReadEnd_alike 0x01
    | main => exact alike_tcpWriteEvent h hwait hw (tcpWriteEnd_alike (by decide)) 0x05
  | _ => exact alike_refused _ _ _

/-- Every event of TCP.WR_REG. -/
theorem alike_tcpRegEvent (h : Shares s u) (hwait : forget s = forget u) {pt : Point}
    (hw : liveWork .tcpWrReg pt s.work = liveWork .tcpWrReg pt u.work) :
    Alike .tcpWrReg (tcpRegEvent pt s) (tcpRegEvent pt u) := by
  cases pt with
  | tcp txn ph =>
    cases txn with
    | preRead => exact alike_refused _ _ _
    | main => exact alike_tcpWriteEvent h hwait hw (tcpWriteEnd_alike (by decide)) 0x06
  | _ => exact alike_refused _ _ _

/-- Every event of TCP.WR_MULTI. -/
theorem alike_tcpMultiEvent (h : Shares s u) (hwait : forget s = forget u) {pt : Point}
    (hw : liveWork .tcpWrMulti pt s.work = liveWork .tcpWrMulti pt u.work) :
    Alike .tcpWrMulti (tcpMultiEvent pt s) (tcpMultiEvent pt u) := by
  cases pt with
  | tcp txn ph =>
    cases txn with
    | preRead => exact alike_refused _ _ _
    | main => exact alike_tcpWriteEvent h hwait hw tcpMultiEnd_alike 0x06
  | _ => exact alike_refused _ _ _

/-- The start of a TCP command that sends its latched arguments. -/
theorem alike_tcpStart {i : Instr} (hi : i ≠ .tcpWrMulti) (h : Shares s u) (fc : Byte) :
    Alike i (tcpSend i .main fc s.latched.start s.latched.qty s) (tcpSend i .main fc u.latched.start u.latched.qty u) := by
  obtain ⟨hb, hb'⟩ := h
  exact alike_tcpSend (.intro hb hb') (fun hm => absurd hm hi) _ _ _ _

theorem alike_tcpCoilStart (h : Shares s u) : Alike .tcpWrCoil (tcpCoilStart s) (tcpCoilStart u) := by
  obtain ⟨hb, hb'⟩ := h
  simp only [tcpCoilStart]
  split
  · refine alike_tcpSend ?_ (by nofun) _ _ _ _
    exact .intro hb hb'
  · exact alike_tcpCoilWrite (.intro hb hb')

end Tcp

/-! ### Utility commands -/

section Util
variable {s u : State}

theorem alike_utilCrcCompute (h : Shares s u) : Alike .utilCrc16 (utilCrcCompute s) (utilCrcCompute u) := by
  obtain ⟨hb, hb'⟩ := h
  simp only [utilCrcCompute]
  split
  · exact alike_fault _ _ _
  · refine alike_complete ?_ _ _ _ fun _ _ => rfl
    exact .intro hb hb'

theorem alike_utilSwapCompute (h : Shares s u) : Alike .utilSwap (utilSwapCompute s) (utilSwapCompute u) := by
  obtain ⟨hb, hb'⟩ := h
  simp only [utilSwapCompute]
  split
  · exact alike_fault _ _ _
  · exact alike_ends (by decide) (.intro hb hb') _ _ _

theorem alike_utilEvent {i : Instr} {compute : State → Result} (h : Alike i (compute s) (compute u)) (pt : Point) :
    Alike i (utilEvent compute pt s) (utilEvent compute pt u) := by
  cases pt with
  | compute => exact h
  | _ => exact alike_refused _ _ _

theorem alike_utilStart {i : Instr} (hi : i ≠ .tcpWrMulti) (h : Shares s u) :
    Alike i (utilStart i s) (utilStart i u) :=
  alike_goto h (liveWork_eq_iff.2 ⟨nofun, nofun, fun hm => absurd hm hi⟩)

end Util

/-! ### Every command: its start, its events, and exec -/

section Commands
variable {s u : State}

/-- A command starts alike whatever the working values hold: it writes those it reads. -/
theorem alike_startOf (i : Instr) (h : Shares s u) : Alike i (startOf i s) (startOf i u) := by
  cases i with
  | rtuRdCoils => exact alike_rtuStartFixed (by decide) h _
  | rtuRdDiscrete => exact alike_rtuStartFixed (by decide) h _
  | rtuRdHolding => exact alike_rtuStartFixed (by decide) h _
  | rtuRdInput => exact alike_rtuStartFixed (by decide) h _
  | rtuWrCoil => exact alike_rtuStartFixed (by decide) h _
  | rtuWrReg => exact alike_rtuStartFixed (by decide) h _
  | rtuWrMulti => exact alike_rtuStartMulti h
  | tcpRdCoils => exact alike_tcpStart (by decide) h _
  | tcpRdDiscrete => exact alike_tcpStart (by decide) h _
  | tcpRdHolding => exact alike_tcpStart (by decide) h _
  | tcpRdInput => exact alike_tcpStart (by decide) h _
  | tcpWrCoil => exact alike_tcpCoilStart h
  | tcpWrReg => exact alike_tcpStart (by decide) h _
  | tcpWrMulti => exact alike_tcpMultiSend (h.withWork _ _) rfl
  | utilCrc16 => exact alike_utilStart (by decide) h
  | utilSwap => exact alike_utilStart (by decide) h

/-- An event reads no working value but the live ones. -/
theorem alike_eventOf {i : Instr} {pt : Point} (h : Shares s u) (hwait : forget s = forget u)
    (hw : liveWork i pt s.work = liveWork i pt u.work) : Alike i (eventOf i pt s) (eventOf i pt u) := by
  cases i with
  | rtuRdCoils => exact alike_rtuEvent (by decide) h hwait hw _ _
  | rtuRdDiscrete => exact alike_rtuEvent (by decide) h hwait hw _ _
  | rtuRdHolding => exact alike_rtuEvent (by decide) h hwait hw _ _
  | rtuRdInput => exact alike_rtuEvent (by decide) h hwait hw _ _
  | rtuWrCoil => exact alike_rtuEvent (by decide) h hwait hw _ _
  | rtuWrReg => exact alike_rtuEvent (by decide) h hwait hw _ _
  | rtuWrMulti =>
    simp only [eventOf, ← h.latched]
    exact alike_rtuEvent (by decide) h hwait hw _ _
  | tcpRdCoils => exact alike_tcpReadCommand (by decide) h hwait hw _
  | tcpRdDiscrete => exact alike_tcpReadCommand (by decide) h hwait hw _
  | tcpRdHolding => exact alike_tcpReadCommand (by decide) h hwait hw _
  | tcpRdInput => exact alike_tcpReadCommand (by decide) h hwait hw _
  | tcpWrCoil => exact alike_tcpCoilEvent h hwait hw
  | tcpWrReg => exact alike_tcpRegEvent h hwait hw
  | tcpWrMulti => exact alike_tcpMultiEvent h hwait hw
  | utilCrc16 => exact alike_utilEvent (alike_utilCrcCompute h) pt
  | utilSwap => exact alike_utilEvent (alike_utilSwapCompute h) pt

/-- Latching: both states run the same command from the same arguments, or end it as illegal (R73, R220). -/
theorem alike_exec_idle (i : Instr) (h : forget s = forget u) (hb : s.status.busy = false) :
    Alike i (exec i s) (exec i u) := by
  have hbu : u.status.busy = false := (busy_eq_of_forget_eq h).symm.trans hb
  have hp : s.params = u.params := congrArg (·.params) h
  have ha : s.args = u.args := congrArg (·.args) h
  have hs := shares_latchRegs h (encode i)
  cases hl : legal s.params.kind s.args.qty i with
  | true =>
    rw [exec_idle_legal hb hl, exec_idle_legal hbu (by rw [← hp, ← ha]; exact hl)]
    exact alike_startOf i hs
  | false =>
    rw [exec_idle_illegal hb hl, exec_idle_illegal hbu (by rw [← hp, ← ha]; exact hl)]
    exact alike_complete hs (.fail .illegalCmd) [] 0 fun _ => nofun

/-- The next event of a running command, or a start that is ignored (R44). -/
theorem alike_exec_busy (i : Instr) (h : forget s = forget u) (hb : s.status.busy = true) :
    Alike i (exec i s) (exec i u) := by
  have hbu : u.status.busy = true := (busy_eq_of_forget_eq h).symm.trans hb
  cases hf : s.fsm with
  | idle =>
    have hfu : u.fsm = .idle := by simpa [forget, hb, hbu, hf] using (congrArg (·.fsm) h).symm
    simp only [exec_eq_command, command, hb, hbu, hf, hfu, if_true]
    exact alike_next_running i hb h
  | run j pt =>
    obtain ⟨hfu, hs, hw⟩ := running_of_forget_eq h hb hf
    by_cases hij : j = i
    · subst hij
      rw [exec_running hb hf, exec_running hbu hfu]
      exact alike_eventOf hs h hw
    · rw [exec_eq_command, exec_eq_command, command_other hb hf hij, command_other hbu hfu hij]
      exact alike_next_running i hb h

end Commands

/-- Settles O60: after latching, and at every point, an action reads nothing that `forget` drops. -/
theorem nothingElseCarriesOver : Obligations.NothingElseCarriesOver := by
  intro i s1 s2 t1 h ht
  cases hb : s1.status.busy with
  | false => exact alike_exec_idle i h hb t1 ht
  | true => exact alike_exec_busy i h hb t1 ht

end Sys2Proof.Machine
end

section
/-! Encoding and latching (R70 to R77): which words are a command's and which commands are legal, what an illegal command's CMD
write does, and the requests the RTU commands build at their latching. -/

namespace Sys2Proof.Machine

/-! ### Legality (R71, R74) -/

theorem mem_rtuAll_iff_cls {i : Instr} : i ∈ rtuAll ↔ i.fields.cls = 0 := by
  cases i <;> decide

theorem mem_tcpAll_iff_cls {i : Instr} : i ∈ tcpAll ↔ i.fields.cls = 1 := by
  cases i <;> decide

theorem kindOk_iff {k : TransportKind} {i : Instr} :
    kindOk k i = true ↔ (i ∈ rtuAll → k = .rtu) ∧ (i ∈ tcpAll → k = .tcp) := by
  rw [mem_rtuAll_iff_cls, mem_tcpAll_iff_cls, kindOk]
  by_cases h0 : i.fields.cls = 0
  · simp [h0]
  · by_cases h1 : i.fields.cls = 1
    · simp [h1]
    · rw [if_neg h0, if_neg h1]
      exact iff_of_true rfl ⟨fun h => absurd h h0, fun h => absurd h h1⟩

/-- Only the two write-multiples and the two utility commands have an argument check. -/
theorem argsOk_iff {q : Word} {i : Instr} :
    argsOk q i = true ↔
      (i = .rtuWrMulti ∨ i = .tcpWrMulti → 1 ≤ q.toNat ∧ q.toNat ≤ 127) ∧
      (i = .utilCrc16 → q.toNat ≤ 256) ∧ (i = .utilSwap → q.toNat ≤ 127) := by
  cases i <;> simp [argsOk]

theorem legal_iff {k : TransportKind} {q : Word} {i : Instr} :
    legal k q i = true ↔ kindOk k i = true ∧ argsOk q i = true := by
  rw [legal, Bool.and_eq_true]

/-- Settles O9: the kind check says R71's part, the argument check R74's. -/
theorem legalityOfCommands : Obligations.LegalityOfCommands := by
  intro k q i
  rw [legal_iff, kindOk_iff, argsOk_iff, and_assoc]

/-! ### A decoded word is its command's word (R70, R72) -/

theorem decodeRtu_ok {fc : Byte} {i : Instr} (h : decodeRtu fc = .ok i) : i.fields = { cls := 0, rsv := 0, fc := fc } := by
  unfold decodeRtu at h
  split_ifs at h <;> cases h <;> subst fc <;> rfl

theorem decodeTcp_ok {fc : Byte} {i : Instr} (h : decodeTcp fc = .ok i) : i.fields = { cls := 1, rsv := 0, fc := fc } := by
  unfold decodeTcp at h
  split_ifs at h <;> cases h <;> subst fc <;> rfl

theorem decodeUtil_ok {sel : Byte} {i : Instr} (h : decodeUtil sel = .ok i) :
    i.fields = { cls := 2, rsv := 0, fc := sel } := by
  unfold decodeUtil at h
  split_ifs at h <;> cases h <;> subst sel <;> rfl

theorem decodeFields_ok {f : CmdFields} {i : Instr} (h : decodeFields f = .ok i) : i.fields = f := by
  obtain ⟨cls, rsv, fc⟩ := f
  simp only [decodeFields] at h
  split_ifs at h with h3 hr h0 h1
  · obtain rfl : rsv = 0 := not_not.1 hr
    subst h0
    exact decodeRtu_ok h
  · obtain rfl : rsv = 0 := not_not.1 hr
    subst h1
    exact decodeTcp_ok h
  · obtain rfl : rsv = 0 := not_not.1 hr
    obtain rfl : cls = 2 := by
      revert cls
      decide
    exact decodeUtil_ok h

theorem encode_of_decodeWord {w : Word} {i : Instr} (h : decodeWord w = .ok i) : encode i = w := by
  rw [encode, decodeFields_ok h, wordOf_fieldsOf]

theorem decode?_eq_some_iff {w : Word} {i : Instr} : decode? w = some i ↔ decodeWord w = .ok i := by
  unfold decode?
  cases decodeWord w <;> simp

theorem encode_of_decode? {w : Word} {i : Instr} (h : decode? w = some i) : encode i = w :=
  encode_of_decodeWord (decode?_eq_some_iff.1 h)

/-! ### A CMD write and an illegal command (R73, R220) -/

theorem step_writeCmd {s : State} {w : Word} {rest : List HostOp} (hh : s.host = .setReg 0x00 w :: rest)
    (hb : s.status.busy = false) : step s = startCommand w { s with host := rest } := by
  simp [step, turn, hh, hostAct, hostSetReg, hostRegOf, hb]

theorem startCommand_none {w : Word} {s : State} (h : decode? w = none) :
    startCommand w s = .next (illegalCommand w s) := by
  simp only [startCommand, h]

theorem startCommand_some {w : Word} {i : Instr} {s : State} (h : decode? w = some i) : startCommand w s = exec i s := by
  simp only [startCommand, h]

/-- A word illegal for either reason has the same effect: the word latched, and ILLEGAL_CMD. -/
theorem startCommand_illegal {w : Word} {s : State} (hb : s.status.busy = false)
    (h : decode? w = none ∨ ∃ i, decode? w = some i ∧ legal s.params.kind s.args.qty i = false) :
    startCommand w s = .next (illegalCommand w s) := by
  obtain hn | ⟨i, hi, hl⟩ := h
  · exact startCommand_none hn
  · rw [startCommand_some hi, exec_idle_illegal hb hl, encode_of_decode? hi]

/-- The completion step ends the command with its bytes in OUT, which fit BC (R221). -/
theorem ended_complete {s u : State} {bytes : List Byte} (e : Ending) (nd : Byte) (ho : u.out = s.out)
    (hl : bytes.length < 256) : Ended s (complete e bytes nd u) (endingRc e) (endingCause e) bytes nd := by
  refine ⟨rfl, rfl, ?_, rfl, rfl, rfl, fun j => ?_⟩
  · rw [complete_res, BitVec.toNat_ofNat, Nat.mod_eq_of_lt hl]
  · rw [complete_out, Memory.read_writeList_zero, ho]

/-- Settles O10: the step is `illegalCommand`, whose every field is known. -/
theorem illegalCommandsEndAtLatching : Obligations.IllegalCommandsEndAtLatching := by
  intro s w rest hh hb hill
  have hstep : step s = .next (illegalCommand w { s with host := rest }) :=
    (step_writeCmd hh hb).trans (startCommand_illegal hb hill)
  have hend : Ended s (illegalCommand w { s with host := rest }) 0xFFFF 1 [] 0 :=
    ended_complete (.fail .illegalCmd) 0 rfl (by simp)
  exact ⟨_, hstep, hend, rfl, rfl, ⟨rfl, rfl, rfl, rfl, rfl⟩, rfl, rfl, rfl, rfl, rfl⟩

/-! ### RTU requests (R76, R77, R120, R121) -/

theorem rtuFixed_cases {i : Instr} (hi : i ∈ rtuFixed) :
    i = .rtuRdCoils ∨ i = .rtuRdDiscrete ∨ i = .rtuRdHolding ∨ i = .rtuRdInput ∨ i = .rtuWrCoil ∨ i = .rtuWrReg := by
  simpa using hi

/-- The commands with a fixed request start alike, each with its own function code (R76). -/
theorem startOf_rtuFixed {i : Instr} (hi : i ∈ rtuFixed) : startOf i = rtuStartFixed i i.fields.fc := by
  obtain rfl | rfl | rfl | rfl | rfl | rfl := rtuFixed_cases hi <;> rfl

/-- A command with a fixed request is legal on every RTU engine, whatever its quantity (R74). -/
theorem legal_rtuFixed {i : Instr} (hi : i ∈ rtuFixed) (q : Word) : legal .rtu q i = true := by
  obtain rfl | rfl | rfl | rfl | rfl | rfl := rtuFixed_cases hi <;> rfl

theorem legal_rtuWrMulti {q : Word} (h1 : 1 ≤ q.toNat) (h2 : q.toNat ≤ 127) : legal .rtu q .rtuWrMulti = true :=
  legal_iff.2 ⟨rfl, argsOk_iff.2 ⟨fun _ => ⟨h1, h2⟩, nofun, nofun⟩⟩

/-- Settles O23: the command is legal, and its start is the one all six share. -/
theorem rtuFixedRequestLatched : Obligations.RtuFixedRequestLatched := by
  intro i s hi hb hk body
  have hl : legal s.params.kind s.args.qty i = true := hk ▸ legal_rtuFixed hi _
  refine ⟨frameCrc body, ?_⟩
  rw [exec_idle_legal hb hl, startOf_rtuFixed hi]
  rfl

theorem readList_of_holds {w : Nat} {m : Memory w} {xs : List (BitVec w)} (h : Holds m xs) :
    m.readList 0 xs.length = .ok xs :=
  Memory.readList_ok.2 ⟨rfl, fun j hj => by rw [Nat.zero_add]; exact h j hj⟩

/-- The byte count of a header is twice the register count, in one byte (R77). -/
theorem lo_two_mul (n : Word) : lo (2 * n) = BitVec.ofNat 8 (2 * n.toNat) := by
  apply BitVec.eq_of_toNat_eq
  rw [lo_toNat, BitVec.toNat_mul, BitVec.toNat_ofNat]
  show 2 * n.toNat % 65536 % 256 = 2 * n.toNat % 256
  omega

theorem rtuMultiHeader_eq (unit : Byte) (start n : Word) :
    rtuMultiHeader unit start n =
      [unit, 0x10, hi start, lo start, hi n, lo n, BitVec.ofNat 8 (2 * n.toNat)] := by
  rw [← lo_two_mul]
  rfl

/-- With its words written, RTU.WR_MULTI stands at the write of its header, payload and trailer to follow (R121, R122). -/
theorem rtuStartMulti_ok {i : Instr} {s : State} {ws : List Word}
    (h : s.wdata.readList 0 s.latched.qty.toNat = .ok ws) :
    let hdr := rtuMultiHeader s.latched.unit s.latched.start s.latched.qty
    let pay := rtuMultiPayload s.latched.swap ws
    let c := frameCrc (hdr ++ pay)
    rtuStartMulti i s = .next (goto i (.rtuTx hdr [pay, le16 c]) { s with work := { s.work with crcw := c } }) := by
  simp only [rtuStartMulti, h, chainedCrc_eq]

/-- Settles O24: the words are read from WDATA, and header, payload and trailer are those of R77. -/
theorem rtuMultiRequestLatched : Obligations.RtuMultiRequestLatched := by
  intro s ws hb hk hlen h1 h127 hw hdr pay c
  have hl : legal s.params.kind s.args.qty .rtuWrMulti = true := by
    rw [hk]
    exact legal_rtuWrMulti (hlen ▸ h1) (hlen ▸ h127)
  have hread : (latchRegs 0x0010 s).wdata.readList 0 (latchRegs 0x0010 s).latched.qty.toNat = .ok ws :=
    hlen ▸ readList_of_holds hw
  have hhdr : rtuMultiHeader s.args.unit s.args.start s.args.qty = hdr := by
    rw [rtuMultiHeader_eq, ← hlen]
  have hpay : rtuMultiPayload s.args.swap ws = pay := rtuMultiPayload_eq _ _
  have hstart := rtuStartMulti_ok (i := .rtuWrMulti) hread
  rw [latchRegs_latched, hhdr, hpay] at hstart
  exact ⟨c, (exec_idle_legal hb hl).trans hstart⟩

end Sys2Proof.Machine
end

section
/-! RTU responses (R126 to R134): what the read call that completes a part of a response leads to. `withRead` is the state after that
call, and each check of a completed part has one lemma that says, on the bytes gathered, how it answers. -/

namespace Sys2Proof.Machine

/-! ### The read call that completes a part (R123) -/

/-- `s` after its pending read returned `bs`: the event recorded, the bytes behind those gathered before. -/
def withRead (s : State) (bs left : List Byte) (env' : List EnvInput) : State :=
  { s with
    transport := afterRead s bs.length (some s.params.rtuReadTimeout) bs left
    env := env'
    work := { s.work with rxbuf := s.work.rxbuf ++ bs } }

@[simp] theorem withRead_latched (s : State) (bs left : List Byte) (env' : List EnvInput) :
    (withRead s bs left env').latched = s.latched := rfl

/-- The whole read asks for exactly the bytes still missing, and the completed part is checked at once. -/
theorem rtuEvent_completes {s : State} {ph : RtuPhase} {bs left : List Byte} {env' : List EnvInput}
    (hr : ReadReturns bs env' left s) (hl : (s.work.rxbuf ++ bs).length = rtuTarget ph s.work.bcnt)
    (i : Instr) (fc : Byte) (kind : RtuParse) (last : Clock) :
    rtuEvent i fc kind (.rtuRx ph last) s = rtuPartDone i fc kind ph last (withRead s bs left env') := by
  obtain ⟨henv, hq⟩ := hr
  have hmiss : rtuMissing ph s = bs.length := by
    rw [rtuMissing, ← hl, List.length_append, Nat.add_sub_cancel_left]
  rw [rtuEvent, hmiss, awaitRx_returned henv hq le_rfl]
  exact if_pos hl

/-- The four reads share their events, each with its own function code (R222 to R225). -/
theorem eventOf_rtuReads {i : Instr} (hi : i ∈ rtuReads) : eventOf i = rtuEvent i i.fields.fc .read := by
  obtain rfl | rfl | rfl | rfl : i = .rtuRdCoils ∨ i = .rtuRdDiscrete ∨ i = .rtuRdHolding ∨ i = .rtuRdInput := by
    simpa using hi
  all_goals rfl

/-- The registers a successful write confirms (R26): L_QTY for RTU.WR_MULTI, none for the single writes. -/
def confirmed (i : Instr) (s : State) : Byte := if i = .rtuWrMulti then lo s.latched.qty else 0

/-- The three writes share their events, each with its own function code and NDONE (R226 to R228). -/
theorem eventOf_rtuWrites {i : Instr} (hi : i ∈ rtuWrites) (pt : Point) (s : State) :
    eventOf i pt s = rtuEvent i i.fields.fc (.write (confirmed i s)) pt s := by
  obtain rfl | rfl | rfl : i = .rtuWrCoil ∨ i = .rtuWrReg ∨ i = .rtuWrMulti := by simpa using hi
  all_goals rfl

section
variable {i : Instr} {s : State} {ph : RtuPhase} {last : Clock} {bs left : List Byte} {env' : List EnvInput}

theorem exec_rtuReads_completes (hi : i ∈ rtuReads) (hs : Runs i (.rtuRx ph last) s) (hr : ReadReturns bs env' left s)
    (hl : (s.work.rxbuf ++ bs).length = rtuTarget ph s.work.bcnt) :
    exec i s = rtuPartDone i i.fields.fc .read ph last (withRead s bs left env') := by
  rw [exec_running hs.1 hs.2, eventOf_rtuReads hi, rtuEvent_completes hr hl]

theorem exec_rtuWrites_completes (hi : i ∈ rtuWrites) (hs : Runs i (.rtuRx ph last) s) (hr : ReadReturns bs env' left s)
    (hl : (s.work.rxbuf ++ bs).length = rtuTarget ph s.work.bcnt) :
    exec i s = rtuPartDone i i.fields.fc (.write (confirmed i s)) ph last (withRead s bs left env') := by
  rw [exec_running hs.1 hs.2, eventOf_rtuWrites hi, rtuEvent_completes hr hl]

/-- The command completes after that read, whatever the check left in the working values. -/
theorem ends_of_complete {r : Result} {bytes : List Byte} {nd : Byte} {w : Work} (e : Ending)
    (h : r = .next (complete e bytes nd { withRead s bs left env' with work := w })) (hl : bytes.length < 256) :
    ∃ t, r = .next t ∧ EndsCommand s t (afterRead s bs.length (some s.params.rtuReadTimeout) bs left) env'
      (endingRc e) (endingCause e) bytes nd :=
  ⟨_, h, ended_complete e nd rfl hl, ⟨⟨rfl, rfl, rfl, rfl, rfl⟩, rfl, rfl⟩, rfl, rfl, rfl, rfl⟩

/-- A failed command, or a server exception, writes no OUT byte (R131, R132). -/
theorem ends_of_endPlain {r : Result} {w : Work} (e : Ending)
    (h : r = endPlain e { withRead s bs left env' with work := w }) :
    ∃ t, r = .next t ∧ EndsCommand s t (afterRead s bs.length (some s.params.rtuReadTimeout) bs left) env'
      (endingRc e) (endingCause e) [] 0 :=
  ends_of_complete e h (by simp)

end

/-! ### The start of a response (R126, R127, R132) -/

@[simp] theorem byteAt_cons_zero (b : Byte) (r : List Byte) : byteAt (b :: r) 0 = b := rfl
@[simp] theorem byteAt_cons_succ (b : Byte) (r : List Byte) (n : Nat) : byteAt (b :: r) (n + 1) = byteAt r n := rfl

/-- The checks on the start `a f b`, in their order. -/
theorem rtuCheckStart_eq {s : State} {a f b : Byte} (h : s.work.rxbuf = [a, f, b]) (fc : Byte) (ok : State → Result) :
    rtuCheckStart fc ok s =
      if a ≠ s.latched.unit then endPlain (.fail .addrMismatch) s
      else if f = fc then ok s
      else if 128 ≤ f.toNat then endPlain (.serverExc b) s
      else endPlain (.fail .funcMismatch) s := by
  simp only [rtuCheckStart, h, byteAt_cons_zero, byteAt_cons_succ, decodeAnswer_eq]
  split_ifs <;> rfl

/-- Reads and writes check the start alike; after a normal answer a read takes its count and a write reads its echo. -/
theorem exec_rtuStart {i : Instr} {s : State} {last : Clock} {bs left : List Byte} {env' : List EnvInput} (hi : i ∈ rtuAll)
    (hs : Runs i (.rtuRx .start last) s) (hr : ReadReturns bs env' left s) (hl : (s.work.rxbuf ++ bs).length = 3) :
    ∃ ok, exec i s = rtuCheckStart i.fields.fc ok (withRead s bs left env') ∧
      (i ∈ rtuReads → ok = rtuReadBegin i last) ∧
      (i ∈ rtuWrites → ok = fun u => .next (goto i (.rtuRx .echo last) u)) := by
  obtain h | h := rtuAll_cases.1 hi
  · exact ⟨_, exec_rtuReads_completes h hs hr hl, fun _ => rfl, fun h' => absurd h' (reads_not_writes h)⟩
  · exact ⟨fun u => .next (goto i (.rtuRx .echo last) u), exec_rtuWrites_completes h hs hr hl,
      fun h' => absurd h (reads_not_writes h'), fun _ => rfl⟩

/-- Settles O33: the clauses are the branches of `rtuCheckStart_eq`. -/
theorem rtuStartChecks : Obligations.RtuStartChecks := by
  intro i s last bs left env' a f b hi hs hr hbuf tr
  obtain ⟨ok, hexec, hread, hwrite⟩ := exec_rtuStart hi hs hr (by rw [hbuf]; rfl)
  have hu : (withRead s bs left env').work.rxbuf = [a, f, b] := hbuf
  rw [hexec, rtuCheckStart_eq hu, withRead_latched]
  refine ⟨fun ha => ends_of_endPlain (.fail .addrMismatch) (if_pos ha),
    fun ha => ?_, fun ha => ?_, fun ha => ?_, fun ha => ?_⟩
  all_goals
    rw [if_neg (not_not.2 ha)]
    intro hf h
  · rw [if_neg hf]
    exact ends_of_endPlain (.serverExc b) (if_pos h)
  · rw [if_neg hf]
    exact ends_of_endPlain (.fail .funcMismatch) (if_neg (Nat.not_le.2 h))
  · rw [if_pos hf, hread h, rtuReadBegin, hu, byteAt_cons_succ, ← hbuf]
    rfl
  · rw [if_pos hf, hwrite h, ← hbuf]
    rfl

/-! ### The end of a read command (R130, R131) -/

/-- Start, payload and trailer are where the count says (R126 to R129), and the trailer is compared with the CRC of the first two. -/
theorem rtuReadCheck_bytes {s : State} {p d : List Byte} {c0 c1 : Byte} (h : s.work.rxbuf = p ++ d ++ [c0, c1])
    (hp : p.length = 3) (hd : d.length = s.work.bcnt.toNat) (fc : Byte) :
    rtuReadCheck fc s =
      let u := { s with work := { s.work with crcw := frameCrc (p ++ d) } }
      if 256 * c1.toNat + c0.toNat = (frameCrc (p ++ d)).toNat then
        .next (complete .success (regCodecRead fc s.latched.swap d) 0 u)
      else endPlain (.fail .crcMismatch) u := by
  have hstart : rtuStartBytes s = p := by
    rw [rtuStartBytes, h, ← hp, List.append_assoc, List.take_left]
  have hpay : rtuPayloadBytes s = d := by
    rw [rtuPayloadBytes, h, ← hp, ← hd, List.append_assoc, List.drop_left, List.take_left]
  have htrail : rtuTrailerBytes s = [c0, c1] := by
    rw [rtuTrailerBytes, h, ← hp, ← hd, ← List.length_append, List.drop_left]
  simp only [rtuReadCheck_eq, hstart, hpay, htrail, chainedCrc_eq, trailerOk_eq, byteAt_cons_zero, byteAt_cons_succ,
    decide_eq_true_eq]
  split_ifs <;> rfl

/-- Settles O35: the trailer check decides between the commit and CRC_MISMATCH. -/
theorem rtuReadCompletes : Obligations.RtuReadCompletes := by
  intro i s last bs left p d env' c0 c1 hi hs hr hbuf hp hd tr
  have hl : (s.work.rxbuf ++ bs).length = rtuTarget .trailer s.work.bcnt := by
    rw [hbuf]
    simp only [List.length_append, hp, hd, rtuTarget, List.length_cons, List.length_nil]
    omega
  have hfit : (regCodecRead i.fields.fc s.latched.swap d).length < 256 := by
    rw [regCodecRead_length, hd]
    exact s.work.bcnt.isLt
  rw [exec_rtuReads_completes hi hs hr hl, rtuPartDone, rtuReadCheck_bytes (s := withRead s bs left env') hbuf hp hd]
  exact ⟨fun hc => ends_of_complete .success (if_pos hc) hfit,
    fun hc => ends_of_endPlain (.fail .crcMismatch) (if_neg hc)⟩

/-! ### The end of a write command (R133, R134) -/

theorem word_eq_iff {h l : Byte} {w : Word} : word h l = w ↔ 256 * h.toNat + l.toNat = w.toNat := by
  rw [← word_toNat, ← BitVec.toNat_eq]

/-- The echoed fields are compared with the request's, and only then the trailer with the CRC of the six bytes before it. -/
theorem rtuWriteCheck_bytes {s : State} {a f x1 x0 y1 y0 c0 c1 : Byte}
    (h : s.work.rxbuf = [a, f, x1, x0, y1, y0, c0, c1]) (x y : Word) (nd : Byte) :
    rtuWriteCheck x y nd s =
      let c := frameCrc [a, f, x1, x0, y1, y0]
      let u := { s with work := { s.work with crcw := c } }
      if 256 * x1.toNat + x0.toNat = x.toNat ∧ 256 * y1.toNat + y0.toNat = y.toNat then
        if 256 * c1.toNat + c0.toNat = c.toNat then .next (complete .success [] nd u)
        else endPlain (.fail .crcMismatch) u
      else endPlain (.fail .echoMismatch) s := by
  simp only [rtuWriteCheck, h, byteAt_cons_zero, byteAt_cons_succ, trailerOk_eq, decide_eq_true_eq, ne_eq, ← not_and_or,
    word_eq_iff, ite_not]
  rfl

/-- Settles O36: the echo check comes first, then the trailer check. -/
theorem rtuWriteCompletes : Obligations.RtuWriteCompletes := by
  intro i s last bs left env' a f x1 x0 y1 y0 c0 c1 hi hs hr hbuf tr echoed crcOk
  rw [exec_rtuWrites_completes hi hs hr (by rw [hbuf]; rfl), rtuPartDone,
    rtuWriteCheck_bytes (s := withRead s bs left env') hbuf]
  exact ⟨fun he => ends_of_endPlain (.fail .echoMismatch) (if_neg he),
    fun he hc => ends_of_endPlain (.fail .crcMismatch) ((if_pos he).trans (if_neg hc)),
    fun he hc => ends_of_complete .success ((if_pos he).trans (if_pos hc)) (by simp)⟩

end Sys2Proof.Machine
end

section
/-! TCP responses (R164 to R171): what the header of a response leads to. `withPart` is the state after the read call of one part
of a response. For each parse one lemma says how its checks answer on the nine bytes, and one how the command then ends. -/

namespace Sys2Proof.Machine

/-! ### The read call of a header (R163) -/

/-- `s` after its pending read of up to `asked` bytes returned `bs`: the event recorded, RXBUF the part just read. -/
def withPart (s : State) (asked : Nat) (bs left : List Byte) (env' : List EnvInput) : State :=
  { s with transport := afterRead s asked none bs left, env := env', work := { s.work with rxbuf := bs } }

@[simp] theorem withPart_tid (s : State) (asked : Nat) (bs left : List Byte) (env' : List EnvInput) :
    (withPart s asked bs left env').tid = s.tid := rfl

/-- The four reads share the events of their one transaction, each with its own function code (R229 to R232). -/
theorem eventOf_tcpReads {i : Instr} (hi : i ∈ tcpReads) (ph : TcpPhase) (s : State) :
    eventOf i (.tcp .main ph) s = tcpReadEvent i .main i.fields.fc (tcpReadEnd i.fields.fc) ph s := by
  obtain rfl | rfl | rfl | rfl : i = .tcpRdCoils ∨ i = .tcpRdDiscrete ∨ i = .tcpRdHolding ∨ i = .tcpRdInput := by
    simpa using hi
  all_goals rfl

/-- What follows a write transaction: the next register of TCP.WR_MULTI, or the end of a single write (R170, R235). -/
def writeEnd (i : Instr) : TxnEnd → State → Result := if i = .tcpWrMulti then tcpMultiEnd else tcpWriteEnd

/-- The three writes share the events of a write transaction, each with the function code it sends (R233 to R235). -/
theorem eventOf_tcpWrites {i : Instr} (hi : i ∈ tcpWrites) (ph : TcpPhase) (s : State) :
    eventOf i (.tcp .main ph) s = tcpWriteEvent i .main (wireFc i) (writeEnd i) ph s := by
  obtain rfl | rfl | rfl : i = .tcpWrCoil ∨ i = .tcpWrReg ∨ i = .tcpWrMulti := by simpa using hi
  all_goals rfl

section
variable {i : Instr} {s : State} {bs left : List Byte} {env' : List EnvInput}

theorem exec_tcpReads_header_short (hi : i ∈ tcpReads) (hs : Runs i (.tcp .main .header) s)
    (hr : ReadReturns bs env' left s) (hl : bs.length < 9) :
    exec i s = tcpReadEnd i.fields.fc (.fail .shortRead)
      { withPart s 9 bs left env' with work := { s.work with rxbuf := bs, zf := 0 } } := by
  rw [exec_running hs.1 hs.2, eventOf_tcpReads hi, tcpReadEvent, awaitRx_returned hr.1 hr.2 hl.le]
  exact if_pos hl.ne

theorem exec_tcpReads_header (hi : i ∈ tcpReads) (hs : Runs i (.tcp .main .header) s)
    (hr : ReadReturns bs env' left s) (hl : bs.length = 9) :
    exec i s = tcpReadHeader i .main i.fields.fc (tcpReadEnd i.fields.fc) bs (withPart s 9 bs left env') := by
  rw [exec_running hs.1 hs.2, eventOf_tcpReads hi, tcpReadEvent, awaitRx_returned hr.1 hr.2 hl.le]
  exact if_neg (not_not.2 hl)

theorem exec_tcpWrites_header_short (hi : i ∈ tcpWrites) (hs : Runs i (.tcp .main .header) s)
    (hr : ReadReturns bs env' left s) (hl : bs.length < 9) :
    exec i s = writeEnd i (.fail .shortRead) (withPart s 9 bs left env') := by
  rw [exec_running hs.1 hs.2, eventOf_tcpWrites hi, tcpWriteEvent, awaitRx_returned hr.1 hr.2 hl.le]
  exact if_pos hl.ne

theorem exec_tcpWrites_header (hi : i ∈ tcpWrites) (hs : Runs i (.tcp .main .header) s)
    (hr : ReadReturns bs env' left s) (hl : bs.length = 9) :
    exec i s = tcpWriteHeader i .main (wireFc i) (writeEnd i) bs (withPart s 9 bs left env') := by
  rw [exec_running hs.1 hs.2, eventOf_tcpWrites hi, tcpWriteEvent, awaitRx_returned hr.1 hr.2 hl.le]
  exact if_neg (not_not.2 hl)

end

/-! ### The header checks (R164 to R167, R171) -/

section
variable {hdr : List Byte} {e1 e0 h2 h3 h4 h5 h6 f b : Byte} (h : hdr = [e1, e0, h2, h3, h4, h5, h6, f, b])
  (i : Instr) (txn : TcpTxn) (fc : Byte) (fin : TxnEnd → State → Result) (s : State)
include h

/-- The checks of a read response's header in their order: the id, its staleness (R166), the function byte, the count. -/
theorem tcpReadHeader_bytes :
    let e := 256 * e1.toNat + e0.toNat
    let behind := (s.tid.toNat + 65536 - e) % 65536
    tcpReadHeader i txn fc fin hdr s =
      if e = s.tid.toNat then
        if f = fc then
          let u := { s with work := { s.work with bcnt := b } }
          if b = 0 then fin (.ok []) u else .next (goto i (.tcp txn .payload) u)
        else if 128 ≤ f.toNat then fin (.serverExc b) s
        else fin (.fail .funcMismatch) { s with work := { s.work with zf := b } }
      else if 1 ≤ behind ∧ behind ≤ 0x7FFF then .next (goto i (.tcp txn .header) s)
      else fin (.fail .tidMismatch) { s with work := { s.work with zf := b } } := by
  subst h
  have hid : (headerTid [e1, e0, h2, h3, h4, h5, h6, f, b]).toNat = 256 * e1.toNat + e0.toNat := word_toNat e1 e0
  simp only [tcpReadHeader, headerTid_eq_iff, decodeAnswer_eq, older, sub_toNat, hid, byteAt_cons_zero, byteAt_cons_succ,
    Bool.and_eq_true, decide_eq_true_eq]
  refine if_congr Iff.rfl ?_ rfl
  by_cases hf : f = fc
  · simp only [if_pos hf]
    rfl
  · simp only [if_neg hf]
    split_ifs <;> rfl

/-- The checks of a write response's header in their order: the id, with no staleness, then the function byte. -/
theorem tcpWriteHeader_bytes :
    tcpWriteHeader i txn fc fin hdr s =
      if 256 * e1.toNat + e0.toNat = s.tid.toNat then
        if f = fc then .next (goto i (.tcp txn .rest) s)
        else if 128 ≤ f.toNat then fin (.serverExc b) s
        else fin (.fail .funcMismatch) s
      else fin (.fail .tidMismatch) s := by
  subst h
  simp only [tcpWriteHeader, ne_eq, headerTid_eq_iff, decodeAnswer_eq, byteAt_cons_zero, byteAt_cons_succ]
  split_ifs <;> rfl

end

/-! ### The end of a transaction (R169, R170, R221) -/

section
variable {i : Instr} {s : State} {asked : Nat} {bs left : List Byte} {env' : List EnvInput} {r : Result} {w : Work}

/-- The command completes after that read, whatever the working values are then. -/
theorem ends_after_part {bytes : List Byte} {nd : Byte} (e : Ending)
    (h : r = .next (complete e bytes nd { withPart s asked bs left env' with work := w })) (hl : bytes.length < 256) :
    ∃ t, r = .next t ∧ EndsCommand s t (afterRead s asked none bs left) env' (endingRc e) (endingCause e) bytes nd :=
  ⟨_, h, ended_complete e nd rfl hl, ⟨⟨rfl, rfl, rfl, rfl, rfl⟩, rfl, rfl⟩, rfl, rfl, rfl, rfl⟩

/-- A failed read command zero-fills OUT over ZF (R169). -/
theorem ends_of_tcpReadEnd_fail {fc : Byte} (c : Cause)
    (h : r = tcpReadEnd fc (.fail c) { withPart s asked bs left env' with work := w }) :
    ∃ t, r = .next t ∧ EndsCommand s t (afterRead s asked none bs left) env' 0xFFFF (causeCode c)
      (List.replicate w.zf.toNat 0) 0 :=
  ends_after_part (.fail c) h (by rw [List.length_replicate]; exact w.zf.isLt)

/-- A write command whose transaction does not succeed ends so, NDONE the registers done before for TCP.WR_MULTI (R170, R235). -/
theorem writeEnd_failed {e : TxnEnd} (he : ∀ d, e ≠ .ok d) (u : State) :
    writeEnd i e u = .next (complete e.ending [] (if i = .tcpWrMulti then u.work.i else 0) u) := by
  unfold writeEnd
  cases e with
  | ok d => exact absurd rfl (he d)
  | fail c => split_ifs <;> rfl
  | serverExc k => split_ifs <;> rfl

theorem ends_of_writeEnd (e : TxnEnd) (he : ∀ d, e ≠ .ok d) (h : r = writeEnd i e (withPart s asked bs left env')) :
    ∃ t, r = .next t ∧ EndsCommand s t (afterRead s asked none bs left) env' (endingRc e.ending) (endingCause e.ending) []
      (if i = .tcpWrMulti then s.work.i else 0) :=
  ends_after_part e.ending (h.trans (writeEnd_failed he _)) (by simp)

end

/-! ### The two header statements -/

/-- Settles O38: the clauses are the branches of `tcpReadHeader_bytes`; an id at distance 1 or more is not the one just sent. -/
theorem tcpReadHeaderOutcomes : Obligations.TcpReadHeaderOutcomes := by
  intro i s bs left env' hi hs hr tr
  refine ⟨fun hl => ends_of_tcpReadEnd_fail .shortRead (exec_tcpReads_header_short hi hs hr hl), ?_⟩
  intro e1 e0 h2 h3 h4 h5 h6 f b hbs e behind
  rw [exec_tcpReads_header hi hs hr (by rw [hbs]; rfl), tcpReadHeader_bytes hbs, withPart_tid]
  have hne (h : 1 ≤ behind) : e ≠ s.tid.toNat := by omega
  refine ⟨fun he hf hb => ⟨bs, ?_⟩, fun he hf hb => ?_, fun he hf h => ?_, fun he hf h => ?_, fun hlo hhi => ⟨bs, ?_⟩,
    fun hbeyond => ?_⟩
  · rw [if_pos he, if_pos hf, if_neg hb]
    rfl
  · rw [if_pos he, if_pos hf, if_pos hb, tcpReadEnd, regCodecRead_nil]
    exact ends_after_part .success rfl (by simp)
  · rw [if_pos he, if_neg hf, if_pos h]
    exact ends_after_part (.serverExc b) rfl (by simp)
  · rw [if_pos he, if_neg hf, if_neg (Nat.not_le.2 h)]
    exact ends_of_tcpReadEnd_fail .funcMismatch rfl
  · rw [if_neg (hne hlo), if_pos ⟨hlo, hhi⟩, goto, ← hs.2]
    rfl
  · rw [if_neg (hne (by omega)), if_neg (by omega)]
    exact ends_of_tcpReadEnd_fail .tidMismatch rfl

/-- Settles O40: the clauses are the branches of `tcpWriteHeader_bytes`. -/
theorem tcpWriteHeaderOutcomes : Obligations.TcpWriteHeaderOutcomes := by
  intro i s bs left env' hi hs hr tr done
  refine ⟨fun hl => ends_of_writeEnd (.fail .shortRead) nofun (exec_tcpWrites_header_short hi hs hr hl), ?_⟩
  intro e1 e0 h2 h3 h4 h5 h6 f b hbs e
  rw [exec_tcpWrites_header hi hs hr (by rw [hbs]; rfl), tcpWriteHeader_bytes hbs, withPart_tid]
  refine ⟨fun he => ?_, fun he hf h => ?_, fun he hf h => ?_, fun he hf => ⟨bs, ?_⟩⟩
  · exact ends_of_writeEnd (.fail .tidMismatch) nofun (if_neg he)
  · rw [if_pos he, if_neg hf, if_pos h]
    exact ends_of_writeEnd (.serverExc b) nofun rfl
  · rw [if_pos he, if_neg hf, if_neg (Nat.not_le.2 h)]
    exact ends_of_writeEnd (.fail .funcMismatch) nofun rfl
  · rw [if_pos he, if_pos hf]
    rfl

end Sys2Proof.Machine
end

section
/-! How a running command ends (R260): only by the completion step, and only with an ending of a running command, whose RC and CAUSE
are those of a success, a local failure or a server exception. -/

namespace Sys2Proof.Machine

/-- Success is an ending every running command can have. -/
theorem endingOk_success : EndingOk .success := ⟨nofun, nofun, nofun⟩

/-- The local failures of a running command have the codes between ILLEGAL_CMD and SERVER_EXCEPTION (R262). -/
theorem causeCode_of_endingOk {c : Cause} (h : EndingOk (.fail c)) :
    2 ≤ (causeCode c).toNat ∧ (causeCode c).toNat ≤ 9 := by
  cases c with
  | none => exact absurd rfl h.none
  | illegalCmd => exact absurd rfl h.illegal
  | serverException => exact absurd rfl h.server
  | _ => decide

/-- RC and CAUSE of an ending of a running command (R260, R261, R262). -/
theorem endingOk_results {e : Ending} (h : EndingOk e) :
    (endingRc e = 0 ∧ endingCause e = 0) ∨
    (endingRc e = 0xFFFF ∧ 2 ≤ (endingCause e).toNat ∧ (endingCause e).toNat ≤ 9) ∨
    (∃ k : Byte, endingRc e = k.zeroExtend 16 ∧ endingCause e = 10) := by
  cases e with
  | success => exact .inl ⟨rfl, rfl⟩
  | fail c => exact .inr (.inl ⟨rfl, causeCode_of_endingOk h⟩)
  | serverExc k => exact .inr (.inr ⟨k, rfl, rfl⟩)

/-- An event clears BUSY only as the completion step of an ending the command can have (R221, R264). -/
theorem eventOf_clears_busy {i : Instr} {pt : Point} {s t : State} (hb : s.status.busy = true)
    (h : eventOf i pt s = .next t) (ht : t.status.busy = false) :
    ∃ e bytes nd u, EndingOk e ∧ t = complete e bytes nd u := by
  have stillBusy {u : State} (hu : u.status = s.status) : u.status.busy ≠ false := by simp [hu, hb]
  have hh := happened i pt s
  rw [h] at hh
  cases hh with
  | waits => exact absurd ht (stillBusy rfl)
  | moves _ u hc _ => exact absurd ht (stillBusy hc.status)
  | sends _ _ u hc => exact absurd ht (stillBusy hc.status)
  | ends e bytes nd u _ he => exact ⟨e, bytes, nd, u, he, rfl⟩
  | endsCrc => exact ⟨.success, [], 0, _, endingOk_success, rfl⟩

/-- Of all that exec can do with a running command, only an event of that command can clear BUSY. -/
theorem exec_clears_busy {i : Instr} {s t : State} (h : exec i s = .next t) (hb : s.status.busy = true)
    (ht : t.status.busy = false) : ∃ e bytes nd u, EndingOk e ∧ t = complete e bytes nd u := by
  have hnidle : s.status.busy ≠ false := by simp [hb]
  obtain rfl | ⟨hidle, -, -⟩ | ⟨hidle, -, -⟩ | ⟨pt, -, -, hev⟩ := exec_next h
  · exact absurd ht hnidle
  · exact absurd hidle hnidle
  · exact absurd hidle hnidle
  · exact eventOf_clears_busy hb hev ht

/-- Settles O51: a command that stops running has taken the completion step, whose ending sets RC and CAUSE. -/
theorem everyEndingIsOneOfThree : Obligations.EveryEndingIsOneOfThree := by
  intro i s t h hb ht
  obtain ⟨e, bytes, nd, u, he, rfl⟩ := exec_clears_busy h hb ht
  exact ⟨rfl, rfl, endingOk_results he⟩

end Sys2Proof.Machine
end

section
/-! The reset event (R290, R291): it is one operation of the host, taken in any state, so it stops a running command without the
completion step. -/

namespace Sys2Proof.Machine

/-- The host takes its reset at once, whether a command runs or not. -/
theorem step_reset {s : State} {rest : List HostOp} (hh : s.host = .reset :: rest) :
    step s = .next (resetEngine { s with host := rest }) := by
  simp only [step, turn, hh, hostAct]

/-- Every register's reset value is 0 (R290). -/
theorem readHostReg_reset (r : HostReg) : readHostReg State.reset r = 0 := by
  cases r <;> decide

/-- The event leaves nothing in the registers of what they held before: they read as in the reset state. -/
theorem readHostReg_resetEngine (s : State) (r : HostReg) : readHostReg (resetEngine s) r = readHostReg State.reset r := by
  cases r <;> rfl

/-- No buffer element is written in the reset state (R41). -/
theorem reset_unwritten (i : Nat) :
    State.reset.wdata.read i = none ∧ State.reset.ibuf.read i = none ∧ State.reset.out.read i = none :=
  ⟨Memory.read_nil i, Memory.read_nil i, Memory.read_nil i⟩

/-- Settles O6: the step is `resetEngine`, which keeps only the parameters, the transport, the host's list and the world's. -/
theorem resetEventAbandonsCommand : Obligations.ResetEventAbandonsCommand := by
  intro s rest hh
  have zero (r : HostReg) : readHostReg (resetEngine { s with host := rest }) r = 0 :=
    (readHostReg_resetEngine _ r).trans (readHostReg_reset r)
  exact ⟨_, step_reset hh, zero, reset_unwritten, rfl, rfl, rfl, rfl, rfl, rfl⟩

end Sys2Proof.Machine
end

section
/-! The command word (R70 to R73): decoding inverts encoding, the words of R72 are the only commands, and each other word is rejected
under the name of the first check it fails. -/

namespace Sys2Proof.Machine

/-! ### Decoding and encoding -/

theorem decodeFields_fields (i : Instr) : decodeFields i.fields = .ok i := by
  cases i <;> rfl

theorem decodeWord_encode (i : Instr) : decodeWord (encode i) = .ok i := by
  rw [decodeWord, encode, fieldsOf_wordOf, decodeFields_fields]

/-- Settles O1: the fields of a command's word are its row of the table, and decoding a row and encoding it are inverse. -/
theorem decodeEncodeAgree : Obligations.DecodeEncodeAgree :=
  ⟨decodeWord_encode, fun _ _ h => (encode_of_decodeWord h).symm⟩

/-! ### The sixteen words (R72) -/

/-- The commands in the order of R72's table. -/
def allInstrs : List Instr := rtuReads ++ rtuWrites ++ tcpReads ++ tcpWrites ++ utils

theorem mem_allInstrs (i : Instr) : i ∈ allInstrs := by
  cases i <;> decide

theorem decode?_eq_some_iff_encode {w : Word} {i : Instr} : decode? w = some i ↔ encode i = w := by
  rw [decode?_eq_some_iff]
  exact ⟨encode_of_decodeWord, fun h => h ▸ decodeWord_encode i⟩

/-- A pair is a row of the table that lists each command with its word exactly when its word is the command's. -/
theorem mem_map_encode_iff {w : Word} {i : Instr} : (w, i) ∈ allInstrs.map (fun j => (encode j, j)) ↔ encode i = w := by
  simp [mem_allInstrs]

/-- Settles O2: the rows are the commands with their encodings. -/
theorem onlySixteenWordsAreCommands : Obligations.OnlySixteenWordsAreCommands := fun _ _ =>
  decode?_eq_some_iff_encode.trans mem_map_encode_iff.symm

/-- Settles O4: each of these closed words decodes so. -/
theorem tableWordsDecode : Obligations.TableWordsDecode := by
  unfold Obligations.TableWordsDecode
  decide

/-! ### The names of the rejected words (R73, log entry 21) -/

theorem fieldsOf_cls_toNat (w : Word) : (fieldsOf w).cls.toNat = w.toNat / 16384 := by
  simp [fieldsOf, Nat.shiftRight_eq_div_pow]
  omega

theorem fieldsOf_rsv_toNat (w : Word) : (fieldsOf w).rsv.toNat = w.toNat / 256 % 64 := by
  simp [fieldsOf, Nat.shiftRight_eq_div_pow]

theorem fieldsOf_fc_toNat (w : Word) : (fieldsOf w).fc.toNat = w.toNat % 256 := by
  simp [fieldsOf]

theorem decodeRtu_bad_iff {fc : Byte} {e : DecodeError} :
    decodeRtu fc = .bad e ↔ .unknownFunction = e ∧ fc ∉ functionCodes := by
  simp only [decodeRtu, functionCodes, List.mem_cons, List.not_mem_nil, or_false]
  split_ifs <;> simp_all

theorem decodeTcp_bad_iff {fc : Byte} {e : DecodeError} :
    decodeTcp fc = .bad e ↔ .unknownFunction = e ∧ fc ∉ functionCodes := by
  simp only [decodeTcp, functionCodes, List.mem_cons, List.not_mem_nil, or_false]
  split_ifs <;> simp_all

theorem decodeUtil_bad_iff {sel : Byte} {e : DecodeError} :
    decodeUtil sel = .bad e ↔ .unknownUtility = e ∧ sel ∉ utilitySelectors := by
  simp only [decodeUtil, utilitySelectors, List.mem_cons, List.not_mem_nil, or_false]
  split_ifs <;> simp_all

/-- The reason a word's fields are rejected for: the first check they fail. -/
theorem decodeFields_bad_iff {f : CmdFields} {e : DecodeError} :
    decodeFields f = .bad e ↔
      if f.cls = 3 then .reservedClass = e
      else if f.rsv ≠ 0 then .nonzeroRsv = e
      else if f.cls = 2 then .unknownUtility = e ∧ f.fc ∉ utilitySelectors
      else .unknownFunction = e ∧ f.fc ∉ functionCodes := by
  obtain ⟨cls, rsv, fc⟩ := f
  simp only [decodeFields]
  split_ifs with h3 hr h0 h2 h1 h2 h2
  · exact Decoded.bad.injEq _ _ ▸ Iff.rfl
  · exact Decoded.bad.injEq _ _ ▸ Iff.rfl
  · exact absurd (h0 ▸ h2) (by decide)
  · exact decodeRtu_bad_iff
  · exact absurd (h1 ▸ h2) (by decide)
  · exact decodeTcp_bad_iff
  · exact decodeUtil_bad_iff
  · exact absurd (show cls = 2 by revert cls; decide) h2

/-- The checks of a word's fields in numbers. -/
theorem decodeWord_bad_iff {w : Word} {e : DecodeError} :
    decodeWord w = .bad e ↔
      if w.toNat / 16384 = 3 then .reservedClass = e
      else if w.toNat / 256 % 64 ≠ 0 then .nonzeroRsv = e
      else if w.toNat / 16384 = 2 then .unknownUtility = e ∧ w.toNat % 256 ∉ [0, 1]
      else .unknownFunction = e ∧ w.toNat % 256 ∉ [1, 2, 3, 4, 5, 6, 16] := by
  rw [decodeWord, decodeFields_bad_iff]
  simp only [BitVec.toNat_eq, fieldsOf_cls_toNat, fieldsOf_rsv_toNat, fieldsOf_fc_toNat, utilitySelectors, functionCodes,
    List.mem_cons, List.not_mem_nil, ne_eq]
  rfl

/-- Settles O3: each clause reads off the check that gives its name. -/
theorem rejectedWordsAreNamed : Obligations.RejectedWordsAreNamed := by
  intro w cls rsv fc
  have hw := w.isLt
  simp only [decodeWord_bad_iff, List.mem_cons, List.not_mem_nil, or_false, not_or]
  refine ⟨?_, ?_, ?_, ?_⟩
  all_goals
    split_ifs with h3 hr h2
    all_goals
      simp only [false_and, true_and, true_iff, false_iff]
      omega

end Sys2Proof.Machine
end

section
/-! The invariant `Sound`: it holds at reset and every step keeps it, one lemma per kind of action: a completion, a move of fsm, a host
operation, an act of the world. The engine's part is read off `happened` and `started`. -/

namespace Sys2Proof.Machine

/-! ### Reset, and what the invariant looks at -/

/-- The result contract holds of registers that are all 0 (R261). -/
theorem resultContract_reset : ResultContract Results.reset := .inl ⟨rfl, rfl⟩

/-- Settles O52: every field is at its reset value. -/
theorem invariantHoldsAtReset : Obligations.InvariantHoldsAtReset :=
  { wdata := reset_wf.1, ibuf := reset_wf.2.1, out := reset_wf.2.2, busy := by decide, excl := by decide,
    contract := resultContract_reset, outBytes := by decide, ndone := by decide, rxbuf := by decide, running := trivial }

/-- The transport, the host's list and the world's are free. -/
theorem Sound.withOutside {s : State} (h : Sound s) (tr : Transport) (host : List HostOp) (env : List EnvInput) :
    Sound { s with transport := tr, host := host, env := env } :=
  ⟨h.wdata, h.ibuf, h.out, h.busy, h.excl, h.contract, h.outBytes, h.ndone, h.rxbuf, h.running⟩

/-- The parameters are free while no command runs. -/
theorem sound_resetEngine (s : State) : Sound (resetEngine s) :=
  have h : Sound State.reset := invariantHoldsAtReset
  ⟨h.wdata, h.ibuf, h.out, h.busy, h.excl, h.contract, h.outBytes, h.ndone, h.rxbuf, trivial⟩

theorem Sound.fsm_idle {s : State} (h : Sound s) (hb : s.status.busy = false) : s.fsm = .idle := by
  by_contra hne
  exact absurd (h.busy.2 hne) (by simp [hb])

/-- A running command is not DONE, so STATUS is what latching made it. -/
theorem Sound.status_running {s : State} (h : Sound s) (hb : s.status.busy = true) : s.status = Status.running := by
  have hd : s.status.done = false := eq_false_of_ne_true fun hd => h.excl ⟨hb, hd⟩
  show (⟨s.status.busy, s.status.done⟩ : Status) = _
  rw [hb, hd]
  rfl

/-- A sound state in which command `i` stands at `pt` meets the premises of `happened`. -/
theorem Sound.before {s : State} {i : Instr} {pt : Point} (h : Sound s) (hf : s.fsm = .run i pt) : Before i pt s := by
  have hrun := h.running
  rw [RunningOk, hf] at hrun
  obtain ⟨-, -, hlegal, hpt⟩ := hrun
  exact ⟨hpt, h.rxbuf, hlegal⟩

/-! ### Completion and moves -/

/-- The ending of a running command keeps the result contract (R261, R262). -/
theorem resultContract_of_ending {e : Ending} (h : EndingOk e) {r : Results} (hrc : r.rc = endingRc e)
    (hc : r.cause = endingCause e) : ResultContract r := by
  rw [ResultContract, hrc, hc]
  obtain ⟨hr, hz⟩ | ⟨hr, hlo, hhi⟩ | ⟨k, hr, hten⟩ := endingOk_results h
  · exact .inl ⟨hz, hr⟩
  · exact .inr (.inl ⟨by omega, hhi, hr⟩)
  · refine .inr (.inr ⟨hten, ?_⟩)
    rw [hr, BitVec.zeroExtend, BitVec.toNat_setWidth]
    have := k.isLt
    omega

/-- The completion step leaves a sound state: its bytes are in OUT, and no command runs. -/
theorem sound_complete {e : Ending} {bytes : List Byte} {nd : Byte} {u : State}
    (hw : u.wdata.wf Config.wdataWords = true) (hi : u.ibuf.wf Config.ibufBytes = true)
    (ho : u.out.wf Config.outBytes = true) (hr : u.work.rxbuf.length ≤ 260)
    (hc : ResultContract (complete e bytes nd u).res) (hlen : bytes.length < 256) (hnd : nd.toNat ≤ 127) :
    Sound (complete e bytes nd u) where
  wdata := hw
  ibuf := hi
  out := Memory.wf_writeList ho (by simp only [Config.outBytes]; omega)
  busy := by simp [Status.ended]
  excl := by simp [Status.ended]
  contract := hc
  outBytes j hj := by
    rw [complete_res, BitVec.toNat_ofNat, Nat.mod_eq_of_lt hlen] at hj
    rw [complete_out, Memory.read_writeList_zero, if_pos hj, List.getElem?_eq_getElem hj]
    rfl
  ndone := hnd
  rxbuf := hr
  running := trivial

/-- A state that a command runs in is sound if the buffers and results are those of a sound state and the command is sound. -/
theorem Sound.running_of_kept {s t : State} (h : Sound s) {i : Instr} {pt : Point} (hwd : t.wdata = s.wdata)
    (hib : t.ibuf = s.ibuf) (ho : t.out = s.out) (hres : t.res = s.res) (hst : t.status = Status.running)
    (hf : t.fsm = .run i pt) (hcmd : t.cmd = encode i) (hl : t.latched = t.args)
    (hlegal : legal t.params.kind t.latched.qty i = true) (hpt : PointOk i pt t) (hr : t.work.rxbuf.length ≤ 260) :
    Sound t where
  wdata := hwd ▸ h.wdata
  ibuf := hib ▸ h.ibuf
  out := ho ▸ h.out
  busy := by simp [hst, hf, Status.running]
  excl := by simp [hst, Status.running]
  contract := hres ▸ h.contract
  outBytes := by rw [hres, ho]; exact h.outBytes
  ndone := hres ▸ h.ndone
  rxbuf := hr
  running := by rw [RunningOk, hf]; exact ⟨hcmd, hl, hlegal, hpt⟩

/-- What holds of the running command holds after an event that carries it along and takes it to another point, with a new id or
the old one. -/
theorem Sound.moved {s u : State} {i : Instr} {pt pt' : Point} (h : Sound s) (hb : s.status.busy = true)
    (hf : s.fsm = .run i pt) (hc : Carried s u) (id : Word) (hpt : PointOk i pt' { u with tid := id })
    (hr : u.work.rxbuf.length ≤ 260) : Sound (goto i pt' { u with tid := id }) := by
  have hrun := h.running
  rw [RunningOk, hf] at hrun
  obtain ⟨hcmd, hl, hlegal, -⟩ := hrun
  refine h.running_of_kept hc.wdata hc.ibuf hc.out hc.res (hc.status.trans (h.status_running hb)) rfl (hc.cmd.trans hcmd)
    ?_ ?_ hpt hr
  · exact hc.latched.trans (hl.trans hc.args.symm)
  · simpa only [goto_params, goto_latched, hc.params, hc.latched] using hlegal

/-- The request that carries the id just taken may be written next. -/
theorem pointOk_tx {i : Instr} {txn : TcpTxn} {frame : List Byte} {s : State} (hi : i ∈ tcpAll)
    (hpre : txn = .preRead → i = .tcpWrCoil) (hreg : i = .tcpWrMulti → s.work.i.toNat < s.latched.qty.toNat)
    (hl : frame.length = 12) (hid : headerTid frame = s.tid) : PointOk i (.tcp txn (.tx frame)) s :=
  ⟨hreg, hi, hpre, hl, hid⟩

/-! ### The engine -/

/-- An event of the running command keeps the invariant. -/
theorem sound_eventOf {s t : State} {i : Instr} {pt : Point} (h : Sound s) (hb : s.status.busy = true)
    (hf : s.fsm = .run i pt) (ht : eventOf i pt s = .next t) : Sound t := by
  have hbefore := h.before hf
  have hh := happened i pt s
  rw [ht] at hh
  cases hh with
  | waits => exact h
  | moves pt' u hc hp =>
    obtain ⟨hpt, hr⟩ := hp hbefore
    exact h.moved hb hf hc u.tid hpt hr
  | sends txn frame u hc hi hl hid hp =>
    obtain ⟨hpre, hreg, hr⟩ := hp hbefore
    exact h.moved hb hf hc (s.tid + 1) (pointOk_tx hi hpre (hc.latched ▸ hreg) hl hid) hr
  | ends e bytes nd u hc he hbytes hp =>
    obtain ⟨hnd, hr⟩ := hp hbefore
    have hq : i = .utilSwap → s.latched.qty.toNat ≤ 127 := (argsOk_iff.1 (legal_iff.1 hbefore.legal).2).2.2
    exact sound_complete (hc.wdata ▸ h.wdata) (hc.ibuf ▸ h.ibuf) (hc.out ▸ h.out) hr (resultContract_of_ending he rfl rfl)
      (hbytes hq).short hnd
  | endsCrc c w _ hw =>
    exact sound_complete h.wdata h.ibuf h.out (hw ▸ h.rxbuf) (.inl ⟨rfl, rfl⟩) (by simp) (by simp)

theorem sound_illegalCommand {s : State} (h : Sound s) (w : Word) : Sound (illegalCommand w s) :=
  sound_complete h.wdata h.ibuf h.out h.rxbuf
    (.inr (.inl ⟨(by decide : 1 ≤ (1 : Byte).toNat), (by decide : (1 : Byte).toNat ≤ 9), rfl⟩)) (by simp) (by simp)

/-- The latching of a legal command keeps the invariant. -/
theorem sound_startOf {s t : State} {i : Instr} (h : Sound s) (hl : legal s.params.kind s.args.qty i = true)
    (ht : startOf i (latchRegs (encode i) s) = .next t) : Sound t := by
  have hs := started (i := i) (s := latchRegs (encode i) s) hl
  rw [ht] at hs
  cases hs with
  | moves pt w hp hr => exact h.running_of_kept rfl rfl rfl rfl rfl rfl rfl rfl hl hp (hr ▸ h.rxbuf)
  | sends txn frame w hi hlen hid hpre hreg hr =>
    exact h.running_of_kept rfl rfl rfl rfl rfl rfl rfl rfl hl (pointOk_tx hi hpre hreg hlen hid) (hr ▸ h.rxbuf)

/-- Every action of a command keeps the invariant. -/
theorem sound_exec {s t : State} {i : Instr} (h : Sound s) (ht : exec i s = .next t) : Sound t := by
  obtain rfl | ⟨-, -, rfl⟩ | ⟨-, hl, hs⟩ | ⟨pt, hb, hf, he⟩ := exec_next ht
  · exact h
  · exact sound_illegalCommand h _
  · exact sound_startOf h hl hs
  · exact sound_eventOf h hb hf he

/-! ### The host -/

theorem sound_startCommand {s t : State} {w : Word} (h : Sound s) (ht : startCommand w s = .next t) : Sound t := by
  unfold startCommand at ht
  split at ht
  · exact sound_exec h ht
  · cases ht
    exact sound_illegalCommand h w

/-- The ARG registers are free while no command runs. -/
theorem Sound.writeHostReg {s : State} (h : Sound s) (hb : s.status.busy = false) (r : HostReg) (v : Word) :
    Sound (writeHostReg s r v) := by
  have hrun {t : State} (ht : t.fsm = s.fsm) : RunningOk t := by
    rw [RunningOk, ht, h.fsm_idle hb]
    trivial
  cases r with
  | argUnit | argStart | argQty | argFlags =>
    exact ⟨h.wdata, h.ibuf, h.out, h.busy, h.excl, h.contract, h.outBytes, h.ndone, h.rxbuf, hrun rfl⟩
  | _ => exact h

theorem sound_hostSetReg {s t : State} {k : Nat} {v : Word} (h : Sound s) (ht : hostSetReg k v s = .next t) : Sound t := by
  unfold hostSetReg at ht
  split at ht
  · cases ht
  · split_ifs at ht with hb hr
    · cases ht
      exact h
    · exact sound_startCommand h ht
    · cases ht
      exact h.writeHostReg (eq_false_of_ne_true hb) _ v

/-- A host write of an element is ignored, or stores it inside the buffer. -/
theorem hostSetElement_inside {cap k : Nat} {written s t : State} (h : hostSetElement cap k written s = .next t) :
    t = s ∨ k < cap ∧ t = written := by
  unfold hostSetElement at h
  split_ifs at h with hk hb
  · cases h
    exact .inl rfl
  · cases h
    exact .inr ⟨hk, rfl⟩

/-- Every host operation keeps the invariant. -/
theorem sound_hostAct {s t : State} {op : HostOp} (h : Sound s) (ht : hostAct op s = .next t) : Sound t := by
  cases op with
  | setReg k v => exact sound_hostSetReg h ht
  | setWdata k v =>
    obtain rfl | ⟨hk, rfl⟩ := hostSetElement_inside ht
    · exact h
    · exact ⟨Memory.wf_write h.wdata hk, h.ibuf, h.out, h.busy, h.excl, h.contract, h.outBytes, h.ndone, h.rxbuf, h.running⟩
  | setIbuf k b =>
    obtain rfl | ⟨hk, rfl⟩ := hostSetElement_inside ht
    · exact h
    · exact ⟨h.wdata, Memory.wf_write h.ibuf hk, h.out, h.busy, h.excl, h.contract, h.outBytes, h.ndone, h.rxbuf, h.running⟩
  | setOut k b => obtain rfl | ⟨-, rfl⟩ := hostSetElement_inside ht <;> exact h
  | getReg k =>
    simp only [hostAct] at ht
    split at ht
    · cases ht
    · cases ht
      exact h
  | getWdata k | getIbuf k | getOut k => exact hostGetElement_next ht ▸ h
  | getOutw k => exact hostGetOutw_next ht ▸ h
  | wait | pause =>
    cases ht
    exact h
  | reset =>
    cases ht
    exact sound_resetEngine s

/-! ### The step -/

theorem sound_worldAct {s t : State} (h : Sound s) (ht : worldAct s = .next t) : Sound t := by
  obtain ⟨rest, inQ, rfl⟩ := worldAct_next ht
  exact h.withOutside _ _ _

theorem sound_engineTurn {s t : State} (h : Sound s) (ht : engineTurn s = .next t) : Sound t := by
  obtain ⟨i, pt, -, -, he⟩ | he := engineTurn_cases s
  · exact sound_exec h (he ▸ ht)
  · exact sound_worldAct h (he ▸ ht)

/-- Settles O53: whoever has the turn keeps the invariant. -/
theorem invariantKeptByStep : Obligations.InvariantKeptByStep := by
  intro s t h ht
  have htaken (host : List HostOp) : Sound { s with host := host } := h.withOutside _ _ _
  obtain ⟨op, rest, -, -, -, he⟩ | ⟨rest, -, -, he⟩ | ⟨host, he⟩ := step_cases s
  · exact sound_hostAct (htaken rest) (he ▸ ht)
  · rw [he] at ht
    cases ht
    exact htaken rest
  · exact sound_engineTurn (htaken host) (he ▸ ht)

end Sys2Proof.Machine
end

section
/-! The host interface (R21 to R35, R44, R57): what each operation of the host does to the state, and what its reads return. -/

namespace Sys2Proof.Machine

/-! ### Reset values -/

/-- Settles O5: every register reads 0 and no element is written. -/
theorem resetStateValues : Obligations.ResetStateValues := ⟨readHostReg_reset, reset_unwritten, rfl, rfl⟩

/-! ### Whose turn it is (log entry 13) -/

/-- An operation at the head of the host's list is done at once, unless the host waits or pauses. -/
theorem step_hostOp {s : State} {op : HostOp} {rest : List HostOp} (hh : s.host = op :: rest) (hw : op ≠ .wait)
    (hp : op ≠ .pause) : step s = hostAct op { s with host := rest } := by
  cases op with
  | wait => exact absurd rfl hw
  | pause => exact absurd rfl hp
  | _ => simp only [step, turn, hh]

/-- While the host has nothing to do or waits, the engine and the world have the turn. -/
theorem step_of_hostYields {s : State} (h : HostYields s) : step s = engineTurn s := by
  obtain hh | ⟨rest, hh, hd⟩ := h
  · simp only [step, turn, hh]
  · simp only [step, turn, hh, hd, Bool.false_eq_true, if_false]

/-- A running command acts when only its computation is left, or when the world does not move by itself. -/
theorem engineTurn_running {s : State} {i : Instr} {pt : Point} (hs : Runs i pt s)
    (h : pt = .compute ∨ worldMoves s.env = false) : engineTurn s = exec i s := by
  obtain ⟨hb, hf⟩ := hs
  rw [engineTurn, if_pos hb, hf]
  obtain rfl | hw := h
  · rfl
  · cases pt <;> simp [hw]

/-- Settles O8: the host's CMD write is the start of the decoded command, and the engine's turn is the running command's. -/
theorem stepRunsDecodedCommand : Obligations.StepRunsDecodedCommand :=
  ⟨fun _ _ _ _ hh hb hd => (step_writeCmd hh hb).trans (startCommand_some (decode?_eq_some_iff.2 hd)),
    fun _ _ _ hy hs h => (step_of_hostYields hy).trans (engineTurn_running hs h)⟩

/-! ### Writes (R22 to R35, R44) -/

/-- The indexes up to 0x0B are those of the twelve registers (R50). -/
theorem hostRegOf_of_le {k : Nat} (h : k ≤ 0x0B) : ∃ r, hostRegOf k = some r := by
  interval_cases k <;> exact ⟨_, rfl⟩

theorem hostSetReg_busy {s : State} {k : Nat} (v : Word) (hk : k ≤ 0x0B) (hb : s.status.busy = true) :
    hostSetReg k v s = .next s := by
  obtain ⟨r, hr⟩ := hostRegOf_of_le hk
  simp only [hostSetReg, hr, hb, if_true]

theorem hostSetReg_idle {s : State} {k : Nat} {r : HostReg} (v : Word) (hr : hostRegOf k = some r) (hc : r ≠ .cmd)
    (hb : s.status.busy = false) : hostSetReg k v s = .next (writeHostReg s r v) := by
  simp only [hostSetReg, hr, hb, Bool.false_eq_true, if_false, hc]

theorem hostSetElement_busy {s written : State} {cap k : Nat} (hk : k < cap) (hb : s.status.busy = true) :
    hostSetElement cap k written s = .next s := by
  rw [hostSetElement, if_pos hk, if_pos hb]

theorem hostSetElement_idle {s written : State} {cap k : Nat} (hk : k < cap) (hb : s.status.busy = false) :
    hostSetElement cap k written s = .next written := by
  rw [hostSetElement, if_pos hk, if_neg (by simp [hb])]

/-- Settles O12: each write is dropped where the engine is BUSY. -/
theorem hostWritesIgnoredWhileBusy : Obligations.HostWritesIgnoredWhileBusy := by
  rintro s op rest hh hb (⟨k, v, rfl, hk⟩ | ⟨k, v, rfl, hk⟩ | ⟨k, b, rfl, hk⟩ | ⟨k, b, rfl, hk⟩)
  all_goals rw [step_hostOp hh (by simp) (by simp)]
  · exact hostSetReg_busy v hk hb
  · exact hostSetElement_busy hk hb
  · exact hostSetElement_busy hk hb
  · exact hostSetElement_busy hk hb

/-- The registers 1 to 7 are read-only (R22 to R28). -/
theorem hostRegOf_readOnly {k : Nat} (hk : 1 ≤ k ∧ k ≤ 7) :
    ∃ r, hostRegOf k = some r ∧ r ≠ .cmd ∧ ∀ s v, writeHostReg s r v = s := by
  obtain ⟨h1, h7⟩ := hk
  interval_cases k <;> exact ⟨_, rfl, by simp, fun _ _ => rfl⟩

theorem hostSetReg_readOnly {s : State} {k : Nat} (v : Word) (hk : 1 ≤ k ∧ k ≤ 7) (hb : s.status.busy = false) :
    hostSetReg k v s = .next s := by
  obtain ⟨r, hr, hc, hw⟩ := hostRegOf_readOnly hk
  rw [hostSetReg_idle v hr hc hb, hw]

theorem lo_eq_ofNat (v : Word) : lo v = BitVec.ofNat 8 v.toNat := by
  apply BitVec.eq_of_toNat_eq
  rw [lo_toNat, BitVec.toNat_ofNat]

/-- ARG_FLAGS has bit 0 only (R32). -/
theorem extractLsb'_zero_one (v : Word) : v.extractLsb' 0 1 = BitVec.ofNat 1 v.toNat := by
  apply BitVec.eq_of_toNat_eq
  rw [BitVec.extractLsb'_toNat, Nat.shiftRight_zero, BitVec.toNat_ofNat]

/-- Settles O13: the register or element written takes the value, and nothing else changes. -/
theorem hostWritesWhileIdle : Obligations.HostWritesWhileIdle := by
  intro s rest v b k hb
  refine ⟨fun hh => ?_, fun hh => ?_, fun hh => ?_, fun hh => ?_, fun hh hk => ?_, fun hh hk => ?_, fun hh hk => ?_,
    fun hh hk => ?_⟩
  all_goals rw [step_hostOp hh (by simp) (by simp)]
  · rw [← lo_eq_ofNat]
    exact hostSetReg_idle (k := 8) (r := .argUnit) v rfl (by simp) hb
  · exact hostSetReg_idle (k := 9) (r := .argStart) v rfl (by simp) hb
  · exact hostSetReg_idle (k := 10) (r := .argQty) v rfl (by simp) hb
  · rw [← extractLsb'_zero_one]
    exact hostSetReg_idle (k := 11) (r := .argFlags) v rfl (by simp) hb
  · exact hostSetReg_readOnly v hk hb
  · exact ⟨_, hostSetElement_idle hk hb, fun j => Memory.read_write s.wdata k j v⟩
  · exact ⟨_, hostSetElement_idle hk hb, fun j => Memory.read_write s.ibuf k j b⟩
  · exact hostSetElement_idle hk hb

/-! ### Reads (R41, R53, R57) -/

theorem hostGetElement_written {w : Nat} {m : Memory w} {cap k : Nat} (unwritten : Nat → Fault) (s : State) (hk : k < cap)
    (h : (m.read k).isSome = true) : hostGetElement m cap k unwritten s = .next s := by
  obtain ⟨x, hx⟩ := Option.isSome_iff_exists.1 h
  simp only [hostGetElement, if_pos hk, hx]

theorem hostGetElement_unwritten {w : Nat} {m : Memory w} {cap k : Nat} (unwritten : Nat → Fault) (s : State)
    (hk : k < cap) (h : m.read k = none) : hostGetElement m cap k unwritten s = .fault (unwritten k) := by
  simp only [hostGetElement, if_pos hk, h]

theorem hostGetOutw_ok {s : State} {k : Nat} {w : Word} (hk : k ≤ 126) (h : outWord s k = .ok w) :
    hostGetOutw k s = .next s := by
  simp only [hostGetOutw, if_pos hk, h]

theorem hostGetOutw_error {s : State} {k j : Nat} (hk : k ≤ 126) (h : outWord s k = .error j) :
    hostGetOutw k s = .fault (.unwrittenOut j) := by
  simp only [hostGetOutw, if_pos hk, h]

/-- OUTW[k] has a value when both its bytes are written (R53). -/
theorem outWord_written {s : State} {k : Nat} {h l : Byte} (hh : s.out.read (2 * k) = some h)
    (hl : s.out.read (2 * k + 1) = some l) : outWord s k = .ok (word h l) := by
  simp only [outWord, hh, hl]

/-- Settles O14: a read of what exists and is written changes nothing. -/
theorem hostReadsHaveNoEffect : Obligations.HostReadsHaveNoEffect := by
  rintro s op rest hh (⟨k, rfl, hk⟩ | ⟨k, rfl, hk, h⟩ | ⟨k, rfl, hk, h⟩ | ⟨k, rfl, hk, h⟩ | ⟨k, rfl, hk, h, h'⟩)
  all_goals rw [step_hostOp hh (by simp) (by simp)]
  · obtain ⟨r, hr⟩ := hostRegOf_of_le hk
    simp only [hostAct, hr]
  · exact hostGetElement_written _ _ hk h
  · exact hostGetElement_written _ _ hk h
  · exact hostGetElement_written _ _ hk h
  · obtain ⟨x, hx⟩ := Option.isSome_iff_exists.1 h
    obtain ⟨y, hy⟩ := Option.isSome_iff_exists.1 h'
    exact hostGetOutw_ok (w := word x y) hk (outWord_written hx hy)

/-- STATUS has BUSY in bit 0 and DONE in bit 1 (R22). -/
theorem status_word_toNat (f : Status) : f.word.toNat = (if f.busy then 1 else 0) + (if f.done then 2 else 0) := by
  obtain ⟨b, d⟩ := f
  cases b <;> cases d <;> rfl

/-- A narrow register reads zero above its width. -/
theorem zeroExtend_toNat {n : Nat} (x : BitVec n) (h : n ≤ 16) : (x.zeroExtend 16).toNat = x.toNat := by
  rw [BitVec.zeroExtend, BitVec.toNat_setWidth_of_le h]

/-- Settles O15: STATUS, the wide registers, the narrow ones, and the word view. -/
theorem hostReadValues : Obligations.HostReadValues := by
  intro s
  refine ⟨status_word_toNat s.status, rfl, rfl, rfl, rfl, rfl, rfl, zeroExtend_toNat _ (by decide),
    zeroExtend_toNat _ (by decide), zeroExtend_toNat _ (by decide), zeroExtend_toNat _ (by decide),
    zeroExtend_toNat _ (by decide), ?_⟩
  intro k h l hh hl
  exact ⟨word h l, outWord_written hh hl, word_toNat h l⟩

end Sys2Proof.Machine
end

section
/-! The CRC's algebra (R100 to R107), the byte swap and the register codec (R200 to R202), staleness (R166) and the function byte
(R85). -/

namespace Sys2Proof.Machine

/-! ### The CRC (40_crc16.md) -/

/-- Settles O17: the fold goes on from the register the first part left. -/
theorem crcChaining : Obligations.CrcChaining := by
  intro a b sh sl
  rw [crc16_bytes, crc16, crcFold_append, crc16]

/-- Shifts that meet no 1 only shift. -/
theorem crcShift_of_zeros {n : Nat} {r : Word} (h : ∀ i, i < n → r.getLsbD i = false) : crcShift n r = r >>> n := by
  induction n generalizing r with
  | zero => rfl
  | succ n ih =>
    have hbit : crcBit r = r >>> 1 := if_neg (by rw [h 0 n.succ_pos]; decide)
    have hrest : ∀ i, i < n → (r >>> 1).getLsbD i = false := fun i hi => by
      rw [BitVec.getLsbD_ushiftRight]
      exact h (1 + i) (by omega)
    rw [crcShift, hbit, ih hrest, ← BitVec.shiftRight_add, Nat.add_comm]

/-- The low byte of the register, entered, leaves the high byte. -/
theorem crcByte_lo (r : Word) : crcByte r (lo r) = (hi r).zeroExtend 16 := by
  have hx : r ^^^ (lo r).zeroExtend 16 = (hi r).zeroExtend 16 <<< 8 := by
    apply BitVec.eq_of_getLsbD_eq
    intro i hi16
    by_cases h : i < 8
    · simp [lo, h, hi16]
    · simp [lo, hi, h, hi16, show i - 8 < 8 by omega, show 8 + (i - 8) = i by omega]
  rw [crcByte, hx, crcShift_of_zeros]
  · apply BitVec.eq_of_getLsbD_eq
    intro i hi16
    have hbyte : (hi r).getLsbD i = true → 8 + i < 16 := fun h => by
      have := BitVec.lt_of_getLsbD h
      omega
    simpa [hi16] using hbyte
  · intro i h
    simp [h]

theorem crcByte_same (b : Byte) : crcByte (b.zeroExtend 16) b = 0 := by
  rw [crcByte, BitVec.xor_self, crcShift_of_zeros] <;> simp

/-- Settles O18: each trailer byte cancels the byte of the register it meets. -/
theorem crcResidueIsZero : Obligations.CrcResidueIsZero := by
  intro s
  rw [crcChaining, crc16_bytes]
  show crcByte (crcByte _ _) _ = _
  rw [crcByte_lo, crcByte_same]

/-! ### The byte swap and the codec (43_register_codec.md) -/

theorem swap16_swap16 (w : Word) : swap16 (swap16 w) = w := by
  rw [swap16, lo_swap16, hi_swap16, word_hi_lo]

/-- Settles O19: the swapped word joins the low byte and the high byte. -/
theorem swapExchangesBytes : Obligations.SwapExchangesBytes := by
  intro w
  refine ⟨?_, swap16_swap16 w⟩
  rw [swap16, word_toNat, lo_toNat, hi_toNat]

/-- Decoding with the same SWAP setting undoes the encoding of the words (R202). -/
theorem regCodecRead_rtuMultiPayload {fc : Byte} (hfc : fc = 0x03 ∨ fc = 0x04) (swap : BitVec 1) (ws : List Word) :
    regCodecRead fc swap (rtuMultiPayload swap ws) = beWords ws := by
  by_cases hs : swap = 1
  · have henc : encWord swap = swap16 := funext fun w => if_pos hs
    rw [regCodecRead, if_pos ⟨hfc, hs⟩, rtuMultiPayload, henc, swapPairs_beWords, List.map_map]
    simp [Function.comp_def, swap16_swap16]
  · have henc : encWord swap = id := funext fun w => if_neg hs
    rw [regCodecRead, if_neg fun h => hs h.2, rtuMultiPayload, henc, List.map_id]

/-- The bytes of word `k` of a list of words (R51). -/
theorem byteAt_beWords {ws : List Word} {k : Nat} (h : k < ws.length) :
    byteAt (beWords ws) (2 * k) = hi ws[k] ∧ byteAt (beWords ws) (2 * k + 1) = lo ws[k] := by
  induction ws generalizing k with
  | nil => cases h
  | cons w r ih =>
    cases k with
    | zero => exact ⟨rfl, rfl⟩
    | succ k => exact ih (Nat.lt_of_succ_lt_succ h)

/-- Settles O20: the codec by its lemmas for whole pairs, odd last bytes and other functions; then reading back. -/
theorem codecReadsBackWhatItWrites : Obligations.CodecReadsBackWhatItWrites := by
  refine ⟨fun fc swap d => ⟨regCodecRead_length fc swap d, fun k hfc hs => ?_, fun h => ?_⟩, fun fc swap ws hfc => ?_⟩
  · rw [regCodecRead, if_pos ⟨hfc, hs⟩]
    refine ⟨fun h => ⟨?_, ?_⟩, fun h => ?_⟩
    · rw [swapPairs_getElem?, if_pos (by omega), if_pos (by omega)]
    · rw [swapPairs_getElem?, if_pos (by omega), if_neg (by omega), Nat.add_sub_cancel]
    · rw [swapPairs_getElem?, if_neg (by omega)]
  · rw [regCodecRead, if_neg]
    rintro ⟨hfc, rfl⟩
    obtain ⟨h3, h4⟩ | h0 := h
    · exact hfc.elim h3 h4
    · exact absurd h0 (by decide)
  · rw [regCodecRead_rtuMultiPayload hfc, beWords_length]
    refine ⟨rfl, fun k h => ?_⟩
    rw [(byteAt_beWords h).1, (byteAt_beWords h).2, ← word_toNat, word_hi_lo]

/-! ### Staleness (R166) and the function byte (R85) -/

theorem older_eq (e t : Word) :
    older e t = decide (1 ≤ (t.toNat + 65536 - e.toNat) % 65536 ∧ (t.toNat + 65536 - e.toNat) % 65536 ≤ 0x7FFF) := by
  rw [older, sub_toNat, Bool.decide_and]

/-- Settles O21: the distances the two ways round add up to 65536. -/
theorem olderIsSerialDistance : Obligations.OlderIsSerialDistance := by
  intro e t
  have he := e.isLt
  have ht := t.isLt
  refine ⟨by rw [older_eq, decide_eq_true_iff], ?_, fun hne hfar => ?_⟩
  · rw [older_eq, decide_eq_false_iff_not]
    omega
  · have hne' : e.toNat ≠ t.toNat := fun h => hne (BitVec.eq_of_toNat_eq h)
    rw [older_eq, older_eq, ← decide_not, decide_eq_decide]
    omega

/-- Settles O22: bit 7 is the value 128. -/
theorem answerDecoding : Obligations.AnswerDecoding := by
  intro fc f
  simp only [decodeAnswer_eq, BitVec.toNat_eq]

end Sys2Proof.Machine
end

section
/-! Latching (R160, R220, R229 to R235): what every legal latching does, and the first point of each TCP and utility command. -/

namespace Sys2Proof.Machine

/-! ### Every legal latching (R220) -/

/-- Settles O11: `started` names the two ways a start goes on, and both leave fsm at a point and the rest to `latchRegs`. -/
theorem latchingOnlyStartsTheCommand : Obligations.LatchingOnlyStartsTheCommand := by
  intro i s t hb hl h
  rw [exec_idle_legal hb hl] at h
  have hs := started (i := i) (s := latchRegs (encode i) s) hl
  rw [h] at hs
  cases hs with
  | moves pt => exact ⟨rfl, rfl, rfl, ⟨pt, rfl⟩, ⟨rfl, rfl, rfl, rfl, rfl⟩, rfl, rfl, rfl, rfl⟩
  | sends txn frame => exact ⟨rfl, rfl, rfl, ⟨_, rfl⟩, ⟨rfl, rfl, rfl, rfl, rfl⟩, rfl, rfl, rfl, rfl⟩

/-! ### TCP requests (R81, R160, R161) -/

/-- A TCP command other than TCP.WR_MULTI is legal on every TCP engine, whatever its quantity (R74). -/
theorem legal_tcp {i : Instr} (hi : i ∈ tcpAll) (hm : i ≠ .tcpWrMulti) (q : Word) : legal .tcp q i = true := by
  have hr : i ∉ rtuAll := fun h => absurd ((mem_rtuAll_iff_cls.1 h).symm.trans (mem_tcpAll_iff_cls.1 hi)) (by decide)
  refine legal_iff.2 ⟨kindOk_iff.2 ⟨fun h => absurd h hr, fun _ => rfl⟩, argsOk_iff.2 ⟨?_, ?_, ?_⟩⟩
  · rintro (rfl | rfl)
    · exact absurd (by decide) hr
    · exact absurd rfl hm
  · rintro rfl
    exact absurd hi (by decide)
  · rintro rfl
    exact absurd hi (by decide)

theorem legal_tcpWrMulti {q : Word} (h1 : 1 ≤ q.toNat) (h127 : q.toNat ≤ 127) : legal .tcp q .tcpWrMulti = true :=
  legal_iff.2 ⟨rfl, argsOk_iff.2 ⟨fun _ => ⟨h1, h127⟩, nofun, nofun⟩⟩

/-- The TCP commands whose one request is made of the latched arguments (R229 to R232, R234). -/
theorem tcpFixed_cases {i : Instr} (hi : i ∈ tcpReads ++ [.tcpWrReg]) :
    i = .tcpRdCoils ∨ i = .tcpRdDiscrete ∨ i = .tcpRdHolding ∨ i = .tcpRdInput ∨ i = .tcpWrReg := by
  simpa using hi

/-- They start alike, each with its own function code. -/
theorem startOf_tcpFixed {i : Instr} (hi : i ∈ tcpReads ++ [.tcpWrReg]) (s : State) :
    startOf i s = tcpSend i .main i.fields.fc s.latched.start s.latched.qty s := by
  obtain rfl | rfl | rfl | rfl | rfl := tcpFixed_cases hi <;> rfl

theorem legal_tcpFixed {i : Instr} (hi : i ∈ tcpReads ++ [.tcpWrReg]) (q : Word) : legal .tcp q i = true := by
  obtain rfl | rfl | rfl | rfl | rfl := tcpFixed_cases hi <;> rfl

/-- Settles O25: the start is `tcpSend` of the latched arguments. -/
theorem tcpRequestLatched : Obligations.TcpRequestLatched := by
  intro i s hi hb hk id
  have hl : legal s.params.kind s.args.qty i = true := hk ▸ legal_tcpFixed hi _
  rw [exec_idle_legal hb hl, startOf_tcpFixed hi]
  rfl

/-- The pre-read comes first when the skip is on and the value is a coil value (R233). -/
theorem coilPreRead_iff (p : Bool) (q : Word) : (p && isCoilValue q) = true ↔ p = true ∧ (q = 0xFF00 ∨ q = 0x0000) := by
  simp only [isCoilValue, Bool.and_eq_true, Bool.or_eq_true, beq_iff_eq]

/-- The start of TCP.WR_COIL, for each answer of the check (R233). -/
theorem tcpCoilStart_eq (s : State) :
    tcpCoilStart s =
      let u := { s with work := { s.work with skip := 0 } }
      if s.params.coilSkip = true ∧ (s.latched.qty = 0xFF00 ∨ s.latched.qty = 0x0000) then
        tcpSend .tcpWrCoil .preRead 0x01 s.latched.start 0x0001 u
      else tcpSend .tcpWrCoil .main 0x05 s.latched.start s.latched.qty u :=
  if_congr (coilPreRead_iff _ _) rfl rfl

/-- Settles O26: both branches send, the pre-read's request or the write's. -/
theorem tcpCoilRequestLatched : Obligations.TcpCoilRequestLatched := by
  intro s hb hk id pre frame
  have hl : legal s.params.kind s.args.qty .tcpWrCoil = true := hk ▸ rfl
  rw [exec_idle_legal hb hl]
  show tcpCoilStart _ = _
  rw [tcpCoilStart_eq]
  by_cases h : pre
  · rw [if_pos h]
    exact (if_pos h).trans rfl
  · rw [if_neg h]
    exact (if_neg h).trans rfl

/-- With its word written, register I's transaction sends its request (R235). -/
theorem tcpMultiSend_eq {s : State} {w : Word} (h : s.wdata.read s.work.i.toNat = some w) :
    tcpMultiSend s =
      tcpSend .tcpWrMulti .main 0x06 (s.latched.start + s.work.i.zeroExtend 16) (encWord s.latched.swap w) s := by
  simp only [tcpMultiSend, h]

/-- The bytes of a single-register request of TCP.WR_MULTI (R81, R235). -/
theorem tcpFrame_encWord (tid : Word) (unit : Byte) (a : Word) (swap : BitVec 1) (w : Word) :
    tcpFrame tid unit 0x06 a (encWord swap w) =
      [hi tid, lo tid, 0x00, 0x00, 0x00, 0x06, unit, 0x06, hi a, lo a] ++
        if swap = 1 then [lo w, hi w] else [hi w, lo w] := by
  rw [tcpFrame, be16_encWord]
  rfl

/-- Settles O27: register 0's request, at the start address itself. -/
theorem tcpMultiRequestLatched : Obligations.TcpMultiRequestLatched := by
  intro s w hb hk h1 h127 hw id v
  have hl : legal s.params.kind s.args.qty .tcpWrMulti = true := hk ▸ legal_tcpWrMulti h1 h127
  rw [exec_idle_legal hb hl]
  show tcpMultiSend _ = _
  have ha : s.args.start + (0 : Byte).zeroExtend 16 = s.args.start := BitVec.add_zero _
  rw [tcpMultiSend_eq (w := w) hw, tcpSend, tcpFrame_encWord, latchRegs_latched, ha]
  rfl

/-- Settles O28: the start of a utility command only moves fsm. -/
theorem utilityCommandLatched : Obligations.UtilityCommandLatched := by
  intro i s hi hb hq
  obtain rfl | rfl : i = .utilCrc16 ∨ i = .utilSwap := by simpa using hi
  · have hl : legal s.params.kind s.args.qty .utilCrc16 = true :=
      legal_iff.2 ⟨rfl, argsOk_iff.2 ⟨by simp, fun _ => hq, nofun⟩⟩
    exact exec_idle_legal hb hl
  · have hl : legal s.params.kind s.args.qty .utilSwap = true :=
      legal_iff.2 ⟨rfl, argsOk_iff.2 ⟨by simp, nofun, fun _ => hq⟩⟩
    exact exec_idle_legal hb hl

/-! ### The first id (R293) -/

/-- Every TCP command starts by sending a request, TCP.WR_MULTI if its first word is written. -/
theorem startOf_tcp_sends {i : Instr} (hi : i ∈ tcpAll) (s : State)
    (hw : i = .tcpWrMulti → (s.wdata.read 0).isSome = true) :
    ∃ txn fc a b u, startOf i s = tcpSend i txn fc a b u ∧ u.tid = s.tid := by
  by_cases hm : i = .tcpWrMulti
  · obtain ⟨w, hw0⟩ := Option.isSome_iff_exists.1 (hw hm)
    subst hm
    exact ⟨_, _, _, _, _, tcpMultiSend_eq (s := { s with work := { s.work with i := 0 } }) hw0, rfl⟩
  by_cases hc : i = .tcpWrCoil
  · subst hc
    show ∃ txn fc a b u, tcpCoilStart s = _ ∧ _
    rw [tcpCoilStart_eq]
    dsimp only
    split_ifs
    · exact ⟨_, _, _, _, _, rfl, rfl⟩
    · exact ⟨_, _, _, _, _, rfl, rfl⟩
  · have hf : i ∈ tcpReads ++ [.tcpWrReg] := by
      cases i <;> simp_all
    exact ⟨_, _, _, _, _, startOf_tcpFixed hf s, rfl⟩

theorem tcpFrame_take_two (tid : Word) (unit fc : Byte) (a b : Word) : (tcpFrame tid unit fc a b).take 2 = [hi tid, lo tid] :=
  rfl

/-- Settles O7: the request carries the id after 0. -/
theorem firstTransactionIdIsOne : Obligations.FirstTransactionIdIsOne := by
  intro i p a m hi hk hm
  have hl : legal p.kind a.qty i = true := by
    rw [hk]
    by_cases h : i = .tcpWrMulti
    · subst h
      obtain ⟨h1, h127, -⟩ := hm rfl
      exact legal_tcpWrMulti h1 h127
    · exact legal_tcp hi h a.qty
  have hexec := exec_idle_legal (s := { State.reset with params := p, args := a, wdata := m }) rfl hl
  obtain ⟨txn, fc, x, y, u, hs, hid⟩ := startOf_tcp_sends hi
    (latchRegs (encode i) { State.reset with params := p, args := a, wdata := m }) fun h => (hm h).2.2
  have hone : u.tid + 1 = 0x0001 := hid ▸ rfl
  refine ⟨_, txn, _, hexec.trans hs, hone, rfl, ?_⟩
  rw [tcpFrame_take_two, hone]
  rfl

end Sys2Proof.Machine
end

section
/-! RTU events (R122 to R129): the write call of a chunk, the samples and the deadline, and the reads that gather a response. -/

namespace Sys2Proof.Machine

/-! ### One answered call -/

/-- All RTU commands share their events, but for the function code and the response they parse. -/
theorem exec_rtuAll {i : Instr} {s : State} {pt : Point} (hi : i ∈ rtuAll) (hs : Runs i pt s) :
    ∃ kind, exec i s = rtuEvent i i.fields.fc kind pt s := by
  rw [exec_running hs.1 hs.2]
  obtain h | h := rtuAll_cases.1 hi
  · exact ⟨_, congrFun (congrFun (eventOf_rtuReads h) pt) s⟩
  · exact ⟨_, eventOf_rtuWrites h pt s⟩

section
variable {s : State} {r : Result} {rest : List EnvInput} {q : List Byte} {ev : Event} {w : Work}

/-- A command that completes once its call is answered, whatever the working values are then. -/
theorem ends_answered {bytes : List Byte} {nd : Byte} (e : Ending)
    (h : r = .next (complete e bytes nd { s.answered rest q ev with work := w })) (hl : bytes.length < 256) :
    ∃ t, r = .next t ∧ EndsCommand s t { inQ := q, trace := s.transport.trace ++ [ev] } rest (endingRc e)
      (endingCause e) bytes nd :=
  ⟨_, h, ended_complete e nd rfl hl, ⟨⟨rfl, rfl, rfl, rfl, rfl⟩, rfl, rfl⟩, rfl, rfl, rfl, rfl⟩

theorem ends_answered_plain (e : Ending) (h : r = endPlain e { s.answered rest q ev with work := w }) :
    ∃ t, r = .next t ∧ EndsCommand s t { inQ := q, trace := s.transport.trace ++ [ev] } rest (endingRc e)
      (endingCause e) [] 0 :=
  ends_answered e h (by simp)

end

/-! ### The write call of a chunk (R122) -/

/-- The next event after a chunk written whole. -/
theorem rtuEvent_tx {s : State} {chunk : List Byte} {n : Nat} {env' : List EnvInput} (hw : WriteReturns n env' s)
    (hn : n ≤ chunk.length) (i : Instr) (fc : Byte) (kind : RtuParse) (more : List (List Byte)) :
    rtuEvent i fc kind (.rtuTx chunk more) s =
      let u := s.answered env' s.transport.inQ (.txWrite chunk (some s.params.rtuWriteTimeout) n)
      if n = chunk.length then .next (goto i (match more with | [] => .rtuT0 | c :: cs => .rtuTx c cs) u)
      else endPlain (.fail .shortWrite) u := by
  rw [rtuEvent, awaitTx_returned hw hn]
  cases more <;> exact ite_not ..

/-- Settles O29: the two branches of `rtuEvent_tx`. -/
theorem rtuWriteCallOutcomes : Obligations.RtuWriteCallOutcomes := by
  intro i s chunk more n env' hi hs hw tr
  obtain ⟨kind, hexec⟩ := exec_rtuAll hi hs
  rw [hexec]
  refine ⟨fun hn => ?_, fun hn => ?_⟩
  · rw [rtuEvent_tx hw hn.le]
    exact ends_answered_plain (w := s.work) (.fail .shortWrite) (if_neg hn.ne)
  · rw [rtuEvent_tx hw hn.le]
    exact if_pos hn

/-! ### The deadline (R123 to R125) -/

/-- Settles O30: the sample is T0, and the gathered bytes are emptied. -/
theorem rtuDeadlineStarts : Obligations.RtuDeadlineStarts := by
  intro i s v env' hi hs hv
  obtain ⟨kind, hexec⟩ := exec_rtuAll hi hs
  rw [hexec, rtuEvent, awaitClock_returned hv]
  rfl

/-- A sample that does not run backwards: beyond the budget it ends the command, within it the accumulation goes on. -/
theorem rtuEvent_clk {s : State} {last v : Clock} {env' : List EnvInput} (hv : ClockReads v env' s)
    (hmono : (last - s.work.t0).toNat ≤ (v - s.work.t0).toNat) (i : Instr) (fc : Byte) (kind : RtuParse) (ph : RtuPhase) :
    rtuEvent i fc kind (.rtuClk ph last) s =
      let u := s.answered env' s.transport.inQ (.now v)
      if 350 < (v - s.work.t0).toNat then endPlain (.fail .timeout) u else .next (goto i (.rtuRx ph v) u) := by
  rw [rtuEvent, awaitClock_returned hv]
  exact if_neg (Nat.not_lt.2 hmono)

/-- Settles O32: the two branches of `rtuEvent_clk`. -/
theorem rtuDeadlineIsStrict : Obligations.RtuDeadlineIsStrict := by
  intro i s ph last v env' hi hs hv hmono
  obtain ⟨kind, hexec⟩ := exec_rtuAll hi hs
  rw [hexec, rtuEvent_clk hv hmono]
  exact ⟨fun h => ends_answered_plain (w := s.work) (.fail .timeout) (if_pos h), fun h => if_neg (Nat.not_lt.2 h)⟩

/-! ### The reads of an accumulation (R123, R128, R129) -/

/-- A read that leaves the part incomplete leads to a sample (R123). -/
theorem rtuEvent_incomplete {s : State} {ph : RtuPhase} {bs left : List Byte} {env' : List EnvInput}
    (hr : ReadReturns bs env' left s) (hlt : s.work.rxbuf.length + bs.length < rtuTarget ph s.work.bcnt) (i : Instr)
    (fc : Byte) (kind : RtuParse) (last : Clock) :
    rtuEvent i fc kind (.rtuRx ph last) s = .next (goto i (.rtuClk ph last) { s with
      transport := afterRead s (rtuMissing ph s) (some s.params.rtuReadTimeout) bs left, env := env'
      work := { s.work with rxbuf := s.work.rxbuf ++ bs } }) := by
  have hasked : bs.length ≤ rtuMissing ph s := by
    rw [rtuMissing]
    omega
  have hne : (s.work.rxbuf ++ bs).length ≠ rtuTarget ph s.work.bcnt := by
    rw [List.length_append]
    exact hlt.ne
  rw [rtuEvent, awaitRx_returned hr.1 hr.2 hasked]
  exact if_neg hne

/-- Settles O31: the read asked for the missing bytes, and the sample is next. -/
theorem rtuIncompleteReadSamplesClock : Obligations.RtuIncompleteReadSamplesClock := by
  intro i s ph last bs left env' hi hs hr hlt
  obtain ⟨kind, hexec⟩ := exec_rtuAll hi hs
  rw [hexec, rtuEvent_incomplete hr hlt]
  rfl

/-- Settles O34: a completed payload needs no check. -/
theorem rtuPayloadThenTrailer : Obligations.RtuPayloadThenTrailer := by
  intro i s last bs left env' hi hs hr hl
  rw [exec_rtuReads_completes hi hs hr (by rw [List.length_append, hl]; rfl)]
  rfl

end Sys2Proof.Machine
end

section
/-! TCP events (R162 to R172, R233, R235): one lemma per call of a read and of a write transaction, then what each command makes of
the transaction's end. -/

namespace Sys2Proof.Machine

/-! ### The calls of a transaction -/

section
variable {s : State} {bs left frame : List Byte} {env' : List EnvInput} {n : Nat}
  (i : Instr) (txn : TcpTxn) (fc : Byte) (fin : TxnEnd → State → Result)

/-- The state after a write call of a request (R162). -/
abbrev withTx (s : State) (frame : List Byte) (n : Nat) (env' : List EnvInput) : State :=
  s.answered env' s.transport.inQ (.txWrite frame none n)

/-- The write call of a read's request: a short one fails with nothing to zero-fill (R162, log entry 8). -/
theorem tcpReadEvent_tx (hw : WriteReturns n env' s) (hn : n ≤ frame.length) :
    tcpReadEvent i txn fc fin (.tx frame) s =
      if n = frame.length then .next (goto i (.tcp txn .header) (withTx s frame n env'))
      else fin (.fail .shortWrite) { withTx s frame n env' with work := { s.work with zf := 0 } } := by
  rw [tcpReadEvent, awaitTx_returned hw hn]
  exact ite_not ..

theorem tcpWriteEvent_tx (hw : WriteReturns n env' s) (hn : n ≤ frame.length) :
    tcpWriteEvent i txn fc fin (.tx frame) s =
      if n = frame.length then .next (goto i (.tcp txn .header) (withTx s frame n env'))
      else fin (.fail .shortWrite) (withTx s frame n env') := by
  rw [tcpWriteEvent, awaitTx_returned hw hn]
  exact ite_not ..

/-- The read of a read response's header (R164). -/
theorem tcpReadEvent_header (hr : ReadReturns bs env' left s) (hl : bs.length ≤ 9) :
    tcpReadEvent i txn fc fin .header s =
      if bs.length = 9 then tcpReadHeader i txn fc fin bs (withPart s 9 bs left env')
      else fin (.fail .shortRead) { withPart s 9 bs left env' with work := { s.work with rxbuf := bs, zf := 0 } } := by
  rw [tcpReadEvent, awaitRx_returned hr.1 hr.2 hl]
  exact ite_not ..

/-- The read of the declared payload: a short one zero-fills over the declared count (R168). -/
theorem tcpReadEvent_payload (hr : ReadReturns bs env' left s) (hl : bs.length ≤ s.work.bcnt.toNat) :
    tcpReadEvent i txn fc fin .payload s =
      if bs.length = s.work.bcnt.toNat then fin (.ok bs) (withPart s s.work.bcnt.toNat bs left env')
      else fin (.fail .shortRead)
        { withPart s s.work.bcnt.toNat bs left env' with work := { s.work with rxbuf := bs, zf := s.work.bcnt } } := by
  rw [tcpReadEvent, awaitRx_returned hr.1 hr.2 hl]
  exact ite_not ..

/-- The read of a write echo's last three bytes, whatever they are (R170). -/
theorem tcpWriteEvent_rest (hr : ReadReturns bs env' left s) (hl : bs.length ≤ 3) :
    tcpWriteEvent i txn fc fin .rest s =
      if bs.length = 3 then fin (.ok []) (withPart s 3 bs left env')
      else fin (.fail .shortRead) (withPart s 3 bs left env') := by
  rw [tcpWriteEvent, awaitRx_returned hr.1 hr.2 hl]
  exact ite_not ..

/-- The checks of a read response's header, on any nine bytes (R165 to R167). -/
theorem tcpReadHeader_eq (hdr : List Byte) (s : State) :
    tcpReadHeader i txn fc fin hdr s =
      if headerTid hdr = s.tid then
        if byteAt hdr 7 = fc then
          let u := { s with work := { s.work with bcnt := byteAt hdr 8 } }
          if byteAt hdr 8 = 0 then fin (.ok []) u else .next (goto i (.tcp txn .payload) u)
        else if 128 ≤ (byteAt hdr 7).toNat then fin (.serverExc (byteAt hdr 8)) s
        else fin (.fail .funcMismatch) { s with work := { s.work with zf := byteAt hdr 8 } }
      else if older (headerTid hdr) s.tid = true then .next (goto i (.tcp txn .header) s)
      else fin (.fail .tidMismatch) { s with work := { s.work with zf := byteAt hdr 8 } } := by
  simp only [tcpReadHeader, decodeAnswer_eq]
  by_cases hf : byteAt hdr 7 = fc
  · simp only [if_pos hf]
  · simp only [if_neg hf]
    split_ifs <;> rfl

end

theorem exec_tcpReads {i : Instr} {s : State} {ph : TcpPhase} (hi : i ∈ tcpReads) (hs : Runs i (.tcp .main ph) s) :
    exec i s = tcpReadEvent i .main i.fields.fc (tcpReadEnd i.fields.fc) ph s := by
  rw [exec_running hs.1 hs.2, eventOf_tcpReads hi]

theorem exec_tcpWrites {i : Instr} {s : State} {ph : TcpPhase} (hi : i ∈ tcpWrites) (hs : Runs i (.tcp .main ph) s) :
    exec i s = tcpWriteEvent i .main (wireFc i) (writeEnd i) ph s := by
  rw [exec_running hs.1 hs.2, eventOf_tcpWrites hi]

theorem exec_preRead {s : State} {ph : TcpPhase} (hs : Runs .tcpWrCoil (.tcp .preRead ph) s) :
    exec .tcpWrCoil s = tcpReadEvent .tcpWrCoil .preRead 0x01 tcpPreReadEnd ph s := by
  rw [exec_running hs.1 hs.2]
  rfl

/-! ### The request (R162) -/

theorem tcpReads_ne_multi {i : Instr} (hi : i ∈ tcpReads) : i ≠ .tcpWrMulti := by
  rintro rfl
  simp at hi

/-- Settles O37: a read and a write transaction alike, but for what their command makes of the failure. -/
theorem tcpWriteCallOutcomes : Obligations.TcpWriteCallOutcomes := by
  intro i s frame n env' hi hs hw
  obtain h | h := tcpAll_cases.1 hi
  · rw [exec_tcpReads h hs, if_neg (tcpReads_ne_multi h)]
    refine ⟨fun hn => ?_, fun hn => ?_⟩
    · rw [tcpReadEvent_tx _ _ _ _ hw hn.le, if_neg hn.ne]
      exact ends_answered (.fail .shortWrite) rfl (by simp)
    · rw [tcpReadEvent_tx _ _ _ _ hw hn.le, if_pos hn]
      rfl
  · rw [exec_tcpWrites h hs]
    refine ⟨fun hn => ?_, fun hn => ?_⟩
    · rw [tcpWriteEvent_tx _ _ _ _ hw hn.le, if_neg hn.ne, writeEnd_failed (e := .fail .shortWrite) nofun]
      exact ends_answered (w := s.work) (.fail .shortWrite) rfl (by simp)
    · rw [tcpWriteEvent_tx _ _ _ _ hw hn.le, if_pos hn]
      rfl

/-! ### The end of a read and of a single write (R168 to R170) -/

/-- Settles O39: the whole payload goes through the codec, a short one is SHORT_READ. -/
theorem tcpReadPayloadOutcomes : Obligations.TcpReadPayloadOutcomes := by
  intro i s bs left env' hi hs hr tr
  rw [exec_tcpReads hi hs]
  refine ⟨fun hl => ?_, fun hl => ?_⟩
  · have hfit : (regCodecRead i.fields.fc s.latched.swap bs).length < 256 := by
      rw [regCodecRead_length, hl]
      exact s.work.bcnt.isLt
    rw [tcpReadEvent_payload _ _ _ _ hr hl.le, if_pos hl]
    exact ends_after_part .success rfl hfit
  · rw [tcpReadEvent_payload _ _ _ _ hr hl.le, if_neg hl.ne]
    exact ends_of_tcpReadEnd_fail .shortRead rfl

theorem singleWrite_cases {i : Instr} (hi : i ∈ [Instr.tcpWrReg, Instr.tcpWrCoil]) :
    i ∈ tcpWrites ∧ i ≠ .tcpWrMulti ∧ writeEnd i = tcpWriteEnd := by
  obtain rfl | rfl : i = .tcpWrReg ∨ i = .tcpWrCoil := by simpa using hi
  all_goals exact ⟨by simp, by simp, rfl⟩

/-- Settles O41: three bytes are success, fewer SHORT_READ. -/
theorem tcpSingleWriteCompletes : Obligations.TcpSingleWriteCompletes := by
  intro i s bs left env' hi hs hr tr
  obtain ⟨hwr, hm, hend⟩ := singleWrite_cases hi
  rw [exec_tcpWrites hwr hs]
  refine ⟨fun hl => ?_, fun hl => ?_⟩
  · rw [tcpWriteEvent_rest _ _ _ _ hr hl.le, if_pos hl, hend]
    exact ends_after_part .success rfl (by simp)
  · rw [tcpWriteEvent_rest _ _ _ _ hr hl.le, if_neg hl.ne]
    have h := ends_of_writeEnd (i := i) (s := s) (asked := 3) (bs := bs) (left := left) (env' := env') (.fail .shortRead)
      nofun rfl
    rwa [if_neg hm] at h

/-! ### The coil pre-read (R233, R270) -/

/-- The pre-read shows the wanted state: bit 0 of its first byte is 1 for 0xFF00 and 0 otherwise. -/
theorem coilAlready_eq {r : List Byte} (q : Word) (h : 1 ≤ r.length) :
    coilAlready q r = decide ((byteAt r 0).toNat % 2 = if q = 0xFF00 then 1 else 0) := by
  cases r with
  | nil => simp at h
  | cons b r =>
    have hb : b.getLsbD 0 = decide (b.toNat % 2 = 1) := by simp [BitVec.getLsbD]
    have hq : wantedCoil q = decide (q = 0xFF00) := rfl
    rw [coilAlready, hb, hq, byteAt_cons_zero]
    split_ifs with h1
    · simp only [decide_eq_true h1, beq_true]
    · simp only [decide_eq_false h1, beq_false, ← decide_not, Nat.mod_two_not_eq_one]

/-- The write request with the next id follows, and the event changed nothing else that a host sees (R270). -/
def WriteFollows (s : State) (tr : Transport) (env' : List EnvInput) (r : Result) : Prop :=
  ∃ t, r = .next t ∧ RunningKept s t ∧ t.res = s.res ∧ t.out = s.out ∧ t.status = s.status ∧ t.transport = tr ∧
    t.env = env' ∧ t.tid = s.tid + 1 ∧
    t.fsm = .run .tcpWrCoil (.tcp .main (.tx [hi (s.tid + 1), lo (s.tid + 1), 0x00, 0x00, 0x00, 0x06, s.latched.unit, 0x05,
      hi s.latched.start, lo s.latched.start, hi s.latched.qty, lo s.latched.qty]))

section
variable {s : State} {r : Result} {tr : Transport} {env' : List EnvInput} {w : Work}

theorem writeFollows_of_coilWrite (h : r = tcpCoilWrite { s with transport := tr, env := env', work := w }) :
    WriteFollows s tr env' r :=
  ⟨_, h, ⟨⟨rfl, rfl, rfl, rfl, rfl⟩, rfl, rfl⟩, rfl, rfl, rfl, rfl, rfl, rfl, rfl⟩

theorem writeFollows_of_failed (e : TxnEnd) (he : ∀ d, e ≠ .ok d)
    (h : r = tcpPreReadEnd e { s with transport := tr, env := env', work := w }) : WriteFollows s tr env' r :=
  writeFollows_of_coilWrite (h.trans (tcpPreReadEnd_absorbs he))

theorem writeFollows_of_unwanted {d : List Byte} (hd : coilAlready s.latched.qty d = false)
    (h : r = tcpPreReadEnd (.ok d) { s with transport := tr, env := env', work := w }) : WriteFollows s tr env' r := by
  rw [tcpPreReadEnd_ok, if_neg (by simp [hd])] at h
  exact writeFollows_of_coilWrite h

end

/-- The ends of the pre-read at its payload (R233): skip, another bit, a short read. -/
theorem preRead_payload {s : State} {bs left : List Byte} {env' : List EnvInput}
    (hs : Runs .tcpWrCoil (.tcp .preRead .payload) s) (hr : ReadReturns bs env' left s) :
    let tr := afterRead s s.work.bcnt.toNat none bs left
    let want := if s.latched.qty = 0xFF00 then 1 else 0
    (bs.length = s.work.bcnt.toNat → 1 ≤ bs.length → (byteAt bs 0).toNat % 2 = want →
      ∃ t, exec .tcpWrCoil s = .next t ∧ EndsCommand s t tr env' 0 0 [] 0) ∧
    (bs.length = s.work.bcnt.toNat → 1 ≤ bs.length → (byteAt bs 0).toNat % 2 ≠ want →
      WriteFollows s tr env' (exec .tcpWrCoil s)) ∧
    (bs.length < s.work.bcnt.toNat → WriteFollows s tr env' (exec .tcpWrCoil s)) := by
  rw [exec_preRead hs]
  refine ⟨fun hl h1 hw => ?_, fun hl h1 hw => ?_, fun hl => ?_⟩
  · rw [tcpReadEvent_payload _ _ _ _ hr hl.le, if_pos hl, tcpPreReadEnd_ok, if_pos]
    · exact ends_after_part .success rfl (by simp)
    · exact (coilAlready_eq _ h1).trans (decide_eq_true hw)
  · rw [tcpReadEvent_payload _ _ _ _ hr hl.le, if_pos hl]
    exact writeFollows_of_unwanted ((coilAlready_eq _ h1).trans (decide_eq_false hw)) rfl
  · rw [tcpReadEvent_payload _ _ _ _ hr hl.le, if_neg hl.ne]
    exact writeFollows_of_failed (.fail .shortRead) nofun rfl

/-- The pre-read goes on at another phase, and the event changed nothing else that a host sees. -/
def PreReadGoesOn (s : State) (hdr : List Byte) (tr : Transport) (env' : List EnvInput) (ph : TcpPhase) (r : Result) : Prop :=
  ∃ t, r = .next t ∧ RunningKept s t ∧ t.res = s.res ∧ t.out = s.out ∧ t.status = s.status ∧ t.transport = tr ∧
    t.env = env' ∧ t.tid = s.tid ∧ (ph = .payload → t.work.bcnt = byteAt hdr 8) ∧ t.fsm = .run .tcpWrCoil (.tcp .preRead ph)

theorem preReadGoesOn_of_goto {s : State} {hdr : List Byte} {tr : Transport} {env' : List EnvInput} {ph : TcpPhase}
    {r : Result} {w : Work}
    (h : r = .next (goto .tcpWrCoil (.tcp .preRead ph) { s with transport := tr, env := env', work := w }))
    (hb : ph = .payload → w.bcnt = byteAt hdr 8) : PreReadGoesOn s hdr tr env' ph r :=
  ⟨_, h, ⟨⟨rfl, rfl, rfl, rfl, rfl⟩, rfl, rfl⟩, rfl, rfl, rfl, rfl, rfl, rfl, hb, rfl⟩

/-- What the pre-read's header leads to: the checks of any read response, every failure absorbed (R165 to R168, R270). -/
theorem preRead_header {s : State} {bs left : List Byte} {env' : List EnvInput}
    (hs : Runs .tcpWrCoil (.tcp .preRead .header) s) (hr : ReadReturns bs env' left s) :
    let tr := afterRead s 9 none bs left
    let r := exec .tcpWrCoil s
    (bs.length < 9 → WriteFollows s tr env' r) ∧
    (bs.length = 9 → headerTid bs = s.tid → byteAt bs 7 ≠ 0x01 → WriteFollows s tr env' r) ∧
    (bs.length = 9 → headerTid bs = s.tid → byteAt bs 7 = 0x01 → byteAt bs 8 = 0 → WriteFollows s tr env' r) ∧
    (bs.length = 9 → headerTid bs = s.tid → byteAt bs 7 = 0x01 → byteAt bs 8 ≠ 0 → PreReadGoesOn s bs tr env' .payload r) ∧
    (bs.length = 9 → headerTid bs ≠ s.tid → older (headerTid bs) s.tid = true → PreReadGoesOn s bs tr env' .header r) ∧
    (bs.length = 9 → headerTid bs ≠ s.tid → older (headerTid bs) s.tid = false → WriteFollows s tr env' r) := by
  have whole (hl : bs.length = 9) : exec .tcpWrCoil s =
      tcpReadHeader .tcpWrCoil .preRead 0x01 tcpPreReadEnd bs (withPart s 9 bs left env') := by
    rw [exec_preRead hs, tcpReadEvent_header _ _ _ _ hr hl.le, if_pos hl]
  refine ⟨fun hl => ?_, fun hl hid hf => ?_, fun hl hid hf hb => ?_, fun hl hid hf hb => ?_, fun hl hid ho => ?_,
    fun hl hid ho => ?_⟩
  · rw [exec_preRead hs, tcpReadEvent_header _ _ _ _ hr hl.le, if_neg hl.ne]
    exact writeFollows_of_failed (.fail .shortRead) nofun rfl
  all_goals rw [whole hl, tcpReadHeader_eq, withPart_tid]
  · rw [if_pos hid, if_neg hf]
    split_ifs
    · exact writeFollows_of_failed (.serverExc _) nofun rfl
    · exact writeFollows_of_failed (.fail .funcMismatch) nofun rfl
  · rw [if_pos hid, if_pos hf]
    exact writeFollows_of_unwanted rfl (if_pos hb)
  · rw [if_pos hid, if_pos hf]
    exact preReadGoesOn_of_goto (if_neg hb) fun _ => rfl
  · rw [if_neg hid, if_pos ho]
    exact preReadGoesOn_of_goto rfl nofun
  · rw [if_neg hid, if_neg (by simp [ho])]
    exact writeFollows_of_failed (.fail .tidMismatch) nofun rfl

/-- The write call of the pre-read's request (R162, R270). -/
theorem preRead_tx {s : State} {hdr frame : List Byte} {n : Nat} {env' : List EnvInput}
    (hs : Runs .tcpWrCoil (.tcp .preRead (.tx frame)) s) (hw : WriteReturns n env' s) :
    let tr := afterWrite s frame none n
    (n < frame.length → WriteFollows s tr env' (exec .tcpWrCoil s)) ∧
    (n = frame.length → PreReadGoesOn s hdr tr env' .header (exec .tcpWrCoil s)) := by
  rw [exec_preRead hs]
  refine ⟨fun hn => ?_, fun hn => ?_⟩
  · rw [tcpReadEvent_tx _ _ _ _ hw hn.le, if_neg hn.ne]
    exact writeFollows_of_failed (.fail .shortWrite) nofun rfl
  · rw [tcpReadEvent_tx _ _ _ _ hw hn.le, if_pos hn]
    exact preReadGoesOn_of_goto (w := s.work) rfl nofun

/-- Settles O42, call by call. -/
theorem tcpPreReadOutcomes : Obligations.TcpPreReadOutcomes := by
  intro s bs left env' frame n id writes goesTo want
  exact ⟨preRead_payload, preRead_header, preRead_tx⟩

/-! ### The end of one register's transaction (R235, R269) -/

/-- The register number does not wrap before the last of 127 (R40). -/
theorem byte_succ_toNat {b : Byte} (h : b.toNat + 1 < 256) : (b + 1).toNat = b.toNat + 1 := by
  rw [BitVec.toNat_add]
  exact Nat.mod_eq_of_lt h

theorem tcpMultiEnd_last {s : State} (d : List Byte) (hq : s.latched.qty.toNat ≤ 127)
    (h : s.work.i.toNat + 1 = s.latched.qty.toNat) :
    tcpMultiEnd (.ok d) s =
      .next (complete .success [] (lo s.latched.qty) { s with work := { s.work with i := s.work.i + 1 } }) := by
  refine if_neg ?_
  show ¬ (s.work.i + 1).toNat < s.latched.qty.toNat
  rw [byte_succ_toNat (by omega), h]
  exact lt_irrefl _

theorem tcpMultiEnd_next {s : State} (d : List Byte) (hq : s.latched.qty.toNat ≤ 127)
    (h : s.work.i.toNat + 1 < s.latched.qty.toNat) :
    tcpMultiEnd (.ok d) s = tcpMultiSend { s with work := { s.work with i := s.work.i + 1 } } := by
  refine if_pos ?_
  show (s.work.i + 1).toNat < s.latched.qty.toNat
  rw [byte_succ_toNat (by omega)]
  exact h

/-- The address of register I + 1 (R235). -/
theorem zeroExtend_succ {b : Byte} (h : b.toNat + 1 < 256) : (b + 1).zeroExtend 16 = BitVec.ofNat 16 (b.toNat + 1) := by
  apply BitVec.eq_of_toNat_eq
  rw [zeroExtend_toNat _ (by decide), byte_succ_toNat h, BitVec.toNat_ofNat, Nat.mod_eq_of_lt (by omega)]

/-- The end of a transaction before the last register sends the next one's request (R235). -/
theorem tcpMultiEnd_sends {s : State} {w : Word} (d : List Byte) (hq : s.latched.qty.toNat ≤ 127)
    (h : s.work.i.toNat + 1 < s.latched.qty.toNat) (hw : s.wdata.read (s.work.i.toNat + 1) = some w) :
    tcpMultiEnd (.ok d) s = .next (goto .tcpWrMulti
      (.tcp .main (.tx (tcpFrame (s.tid + 1) s.latched.unit 0x06
        (s.latched.start + BitVec.ofNat 16 (s.work.i.toNat + 1)) (encWord s.latched.swap w))))
      { s with tid := s.tid + 1, work := { s.work with i := s.work.i + 1 } }) := by
  have hlt : s.work.i.toNat + 1 < 256 := by omega
  have hread : s.wdata.read (s.work.i + 1).toNat = some w := by rw [byte_succ_toNat hlt, hw]
  rw [tcpMultiEnd_next d hq h, ← zeroExtend_succ hlt]
  exact tcpMultiSend_eq hread

/-- Settles O43: the transaction's end decides between SHORT_READ, success and the next register's request. -/
theorem tcpMultiRegisterDone : Obligations.TcpMultiRegisterDone := by
  intro s bs left env' hs hr hq tr id
  rw [exec_tcpWrites (by simp) hs]
  refine ⟨fun hl => ?_, fun hl hi => ?_, fun w hl hi hw => ⟨bs, ?_⟩⟩
  · rw [tcpWriteEvent_rest _ _ _ _ hr hl.le, if_neg hl.ne]
    exact ends_of_writeEnd (i := .tcpWrMulti) (.fail .shortRead) nofun rfl
  · rw [tcpWriteEvent_rest _ _ _ _ hr hl.le, if_pos hl]
    exact ends_after_part .success (tcpMultiEnd_last [] hq hi) (by simp)
  · rw [tcpWriteEvent_rest _ _ _ _ hr hl.le, if_pos hl, ← tcpFrame_encWord]
    exact tcpMultiEnd_sends (s := withPart s 3 bs left env') [] hq hi hw

end Sys2Proof.Machine
end

section
/-! The utility commands (R105, R205), and the fault of a read that meets an unwritten element (R41). -/

namespace Sys2Proof.Machine

/-! ### The computations -/

theorem exec_utilCrc16 {s : State} (hs : Runs .utilCrc16 .compute s) : exec .utilCrc16 s = utilCrcCompute s :=
  exec_running hs.1 hs.2

theorem exec_utilSwap {s : State} (hs : Runs .utilSwap .compute s) : exec .utilSwap s = utilSwapCompute s :=
  exec_running hs.1 hs.2

/-- Settles O44: IBUF's first L_QTY bytes are read, and their CRC is the result. -/
theorem utilCrc16Completes : Obligations.UtilCrc16Completes := by
  intro s bs hs hl hb
  have hread : s.ibuf.readList 0 s.latched.qty.toNat = .ok bs := hl ▸ readList_of_holds hb
  rw [exec_utilCrc16 hs]
  simp only [utilCrcCompute, hread]
  exact ⟨_, rfl, ended_complete .success 0 rfl (by simp), ⟨⟨rfl, rfl, rfl, rfl, rfl⟩, rfl, rfl⟩, rfl, rfl, rfl, rfl⟩

/-- Settles O45: WDATA's first L_QTY words are read, and their swapped bytes fit BC. -/
theorem utilSwapCompletes : Obligations.UtilSwapCompletes := by
  intro s ws hs hl h127 hw
  have hread : s.wdata.readList 0 s.latched.qty.toNat = .ok ws := hl ▸ readList_of_holds hw
  have hfit : (beWords (ws.map swap16)).length < 256 := by
    rw [beWords_length, List.length_map]
    omega
  rw [exec_utilSwap hs, ← beWords_swap]
  simp only [utilSwapCompute, hread]
  exact ⟨_, rfl, ended_complete .success 0 rfl hfit, ⟨⟨rfl, rfl, rfl, rfl, rfl⟩, rfl, rfl⟩, rfl, rfl, rfl, rfl⟩

/-! ### Unwritten elements (R41) -/

/-- A command's read of elements 0 up stops at the first unwritten one. -/
theorem readList_unwritten {w : Nat} {m : Memory w} {n k : Nat} (hk : k < n) (h : m.read k = none)
    (hfirst : ∀ j, j < k → m.read j ≠ none) : m.readList 0 n = .error k :=
  Memory.readList_error.2 ⟨Nat.zero_le k, by omega, h, fun j _ hj => hfirst j hj⟩

/-- The host's reads of unwritten elements (log entry 14). -/
theorem hostReads_fault (s : State) (k : Nat) (rest : List HostOp) :
    (s.host = .getOut k :: rest → k < 255 → s.out.read k = none → step s = .fault (.unwrittenOut k)) ∧
    (s.host = .getWdata k :: rest → k < 127 → s.wdata.read k = none → step s = .fault (.unwrittenWdata k)) ∧
    (s.host = .getIbuf k :: rest → k < 256 → s.ibuf.read k = none → step s = .fault (.unwrittenIbuf k)) ∧
    (s.host = .getOutw k :: rest → k ≤ 126 → s.out.read (2 * k) = none → step s = .fault (.unwrittenOut (2 * k))) ∧
    (s.host = .getOutw k :: rest → k ≤ 126 → s.out.read (2 * k) ≠ none → s.out.read (2 * k + 1) = none →
      step s = .fault (.unwrittenOut (2 * k + 1))) := by
  refine ⟨fun hh hk h => ?_, fun hh hk h => ?_, fun hh hk h => ?_, fun hh hk h => ?_, fun hh hk h h' => ?_⟩
  all_goals rw [step_hostOp hh (by simp) (by simp)]
  · exact hostGetElement_unwritten _ _ hk h
  · exact hostGetElement_unwritten _ _ hk h
  · exact hostGetElement_unwritten _ _ hk h
  · exact hostGetOutw_error hk (by simp only [outWord, h])
  · obtain ⟨x, hx⟩ := Option.ne_none_iff_exists'.1 h
    exact hostGetOutw_error hk (by simp only [outWord, hx, h'])

theorem rtuWrMulti_faults {s : State} {k : Nat} (hb : s.status.busy = false) (hkind : s.params.kind = .rtu)
    (h127 : s.args.qty.toNat ≤ 127) (hk : k < s.args.qty.toNat) (h : s.wdata.read k = none)
    (hfirst : ∀ j, j < k → s.wdata.read j ≠ none) : exec .rtuWrMulti s = .fault (.unwrittenWdata k) := by
  have hl : legal s.params.kind s.args.qty .rtuWrMulti = true := hkind ▸ legal_rtuWrMulti (by omega) h127
  rw [exec_idle_legal hb hl]
  show rtuStartMulti _ _ = _
  simp only [rtuStartMulti, latchRegs_wdata, latchRegs_latched, readList_unwritten hk h hfirst]

/-- A transaction of TCP.WR_MULTI whose word is unwritten (R235). -/
theorem tcpMultiSend_faults {s : State} (h : s.wdata.read s.work.i.toNat = none) :
    tcpMultiSend s = .fault (.unwrittenWdata s.work.i.toNat) := by
  simp only [tcpMultiSend, h]

theorem tcpWrMulti_start_faults {s : State} (hb : s.status.busy = false) (hkind : s.params.kind = .tcp)
    (h1 : 1 ≤ s.args.qty.toNat) (h127 : s.args.qty.toNat ≤ 127) (h : s.wdata.read 0 = none) :
    exec .tcpWrMulti s = .fault (.unwrittenWdata 0) := by
  have hl : legal s.params.kind s.args.qty .tcpWrMulti = true := hkind ▸ legal_tcpWrMulti h1 h127
  rw [exec_idle_legal hb hl]
  exact tcpMultiSend_faults h

theorem tcpWrMulti_next_faults {s : State} {bs left : List Byte} {env' : List EnvInput}
    (hs : Runs .tcpWrMulti (.tcp .main .rest) s) (hr : ReadReturns bs env' left s) (hl : bs.length = 3)
    (hq : s.latched.qty.toNat ≤ 127) (hi : s.work.i.toNat + 1 < s.latched.qty.toNat)
    (h : s.wdata.read (s.work.i.toNat + 1) = none) :
    exec .tcpWrMulti s = .fault (.unwrittenWdata (s.work.i.toNat + 1)) := by
  have hsucc : (s.work.i + 1).toNat = s.work.i.toNat + 1 := byte_succ_toNat (by omega)
  rw [exec_tcpWrites (by simp) hs, tcpWriteEvent_rest _ _ _ _ hr hl.le, if_pos hl, ← hsucc]
  exact (tcpMultiEnd_next (s := withPart s 3 bs left env') [] hq hi).trans (tcpMultiSend_faults (hsucc ▸ h))

theorem utilCrc16_faults {s : State} {k : Nat} (hs : Runs .utilCrc16 .compute s) (hk : k < s.latched.qty.toNat)
    (h : s.ibuf.read k = none) (hfirst : ∀ j, j < k → s.ibuf.read j ≠ none) :
    exec .utilCrc16 s = .fault (.unwrittenIbuf k) := by
  rw [exec_utilCrc16 hs]
  simp only [utilCrcCompute, readList_unwritten hk h hfirst]

theorem utilSwap_faults {s : State} {k : Nat} (hs : Runs .utilSwap .compute s) (hk : k < s.latched.qty.toNat)
    (h : s.wdata.read k = none) (hfirst : ∀ j, j < k → s.wdata.read j ≠ none) :
    exec .utilSwap s = .fault (.unwrittenWdata k) := by
  rw [exec_utilSwap hs]
  simp only [utilSwapCompute, readList_unwritten hk h hfirst]

/-- Settles O16, read by read. -/
theorem unwrittenElementsFault : Obligations.UnwrittenElementsFault :=
  ⟨hostReads_fault, fun _ _ => rtuWrMulti_faults, fun _ => tcpWrMulti_start_faults, fun _ _ _ _ => tcpWrMulti_next_faults,
    fun _ _ => utilCrc16_faults, fun _ _ => utilSwap_faults⟩

end Sys2Proof.Machine
end

section
/-! Frames: what no action of a command changes, read off `started` and `happened` by cases (R28, R33, R44, R131, R160). -/

namespace Sys2Proof.Machine

/-! ### What an action of a command can answer -/

/-- `exec_next` with everything said of the start and the event. -/
theorem exec_answers {i : Instr} {s t : State} (h : exec i s = .next t) :
    t = s ∨ (s.status.busy = false ∧ t = illegalCommand (encode i) s) ∨
    (s.status.busy = false ∧ legal s.params.kind s.args.qty i = true ∧ Started i (latchRegs (encode i) s) (.next t)) ∨
    ∃ pt, s.status.busy = true ∧ s.fsm = .run i pt ∧ Happened i pt s (.next t) := by
  obtain rfl | ⟨hb, -, rfl⟩ | ⟨hb, hl, hs⟩ | ⟨pt, hb, hf, he⟩ := exec_next h
  · exact .inl rfl
  · exact .inr (.inl ⟨hb, rfl⟩)
  · exact .inr (.inr (.inl ⟨hb, hl, hs ▸ started (s := latchRegs (encode i) s) hl⟩))
  · exact .inr (.inr (.inr ⟨pt, hb, hf, he ▸ happened i pt s⟩))

/-! ### The host's side (R33, R34, R44) -/

theorem HostSideKept.refl (s : State) : HostSideKept s s := ⟨rfl, rfl, rfl, rfl, rfl⟩

theorem Carried.runningKept {s t : State} (h : Carried s t) : RunningKept s t :=
  ⟨⟨h.params, h.args, h.wdata, h.ibuf, h.host⟩, h.cmd, h.latched⟩

theorem Happened.runningKept {i : Instr} {pt : Point} {s t : State} (h : Happened i pt s (.next t)) : RunningKept s t := by
  cases h with
  | waits => exact ⟨.refl s, rfl, rfl⟩
  | moves pt' u hc => exact hc.runningKept
  | sends txn frame u hc => exact hc.runningKept
  | ends e bytes nd u hc => exact hc.runningKept
  | endsCrc c w => exact ⟨.refl s, rfl, rfl⟩

theorem Started.hostSideKept {i : Instr} {s t : State} (h : Started i s (.next t)) : HostSideKept s t := by
  cases h with
  | moves pt w => exact .refl s
  | sends txn frame w => exact .refl s

/-- Settles O46: latching and events keep the host's side, and only latching writes CMD and the latched arguments. -/
theorem commandsKeepTheHostSide : Obligations.CommandsKeepTheHostSide := by
  intro i s t h
  have idle (hb : s.status.busy = false) {P : Prop} (h : s.status.busy = true) : P := by simp [hb] at h
  obtain rfl | ⟨hb, rfl⟩ | ⟨hb, -, hs⟩ | ⟨pt, -, -, hh⟩ := exec_answers h
  · exact ⟨.refl t, fun _ => ⟨rfl, rfl⟩⟩
  · exact ⟨.refl s, idle hb⟩
  · exact ⟨hs.hostSideKept, idle hb⟩
  · exact ⟨hh.runningKept.1, fun _ => hh.runningKept.2⟩

/-! ### Results and OUT (R23 to R28, R35) -/

theorem Started.resultsKept {i : Instr} {s t : State} (h : Started i s (.next t)) : t.res = s.res ∧ t.out = s.out := by
  cases h <;> exact ⟨rfl, rfl⟩

/-- Settles O47: what leaves a command running is no completion, and only one completion touches CRCR. -/
theorem resultsChangeOnlyAtCompletion : Obligations.ResultsChangeOnlyAtCompletion := by
  intro i s t h
  obtain rfl | ⟨-, rfl⟩ | ⟨-, -, hs⟩ | ⟨pt, -, -, hh⟩ := exec_answers h
  · exact ⟨fun _ => ⟨rfl, rfl⟩, fun _ => rfl⟩
  · exact ⟨nofun, fun _ => rfl⟩
  · obtain ⟨hres, hout⟩ := hs.resultsKept
    exact ⟨fun _ => ⟨hres, hout⟩, fun _ => congrArg Results.crcr hres⟩
  · cases hh with
    | waits => exact ⟨fun _ => ⟨rfl, rfl⟩, fun _ => rfl⟩
    | moves pt' u hc => exact ⟨fun _ => ⟨hc.res, hc.out⟩, fun _ => congrArg Results.crcr hc.res⟩
    | sends txn frame u hc => exact ⟨fun _ => ⟨hc.res, hc.out⟩, fun _ => congrArg Results.crcr hc.res⟩
    | ends e bytes nd u hc => exact ⟨nofun, fun _ => by rw [complete_res, hc.res]⟩
    | endsCrc c w hi => exact ⟨nofun, fun hne => absurd hi hne⟩

/-- What `OutputBytesFrame` says of one action of command `i`. -/
def OutFrame (i : Instr) (s t : State) : Prop :=
  (∀ j, t.res.bc.toNat ≤ j → t.out.read j = s.out.read j) ∧
  (i ∉ rtuReads → i ∉ tcpReads → i ≠ .utilSwap → t.out = s.out) ∧
  (i ∈ rtuReads → t.res.cause ≠ 0 → t.out = s.out) ∧
  (i ∈ tcpReads → t.res.cause = 10 → t.out = s.out)

theorem outFrame_of_kept {i : Instr} {s t : State} (h : t.out = s.out) : OutFrame i s t :=
  ⟨fun _ _ => by rw [h], fun _ _ _ => h, fun _ _ => h, fun _ _ => h⟩

/-- Only a server exception has the cause 10 (R262). -/
theorem serverExc_of_cause {e : Ending} (he : EndingOk e) (h : endingCause e = 10) : ∃ k, e = .serverExc k := by
  cases e with
  | success => exact absurd h (by decide)
  | fail c =>
    have h9 := (causeCode_of_endingOk he).2
    rw [show causeCode c = 10 from h] at h9
    exact absurd h9 (by decide)
  | serverExc k => exact ⟨k, rfl⟩

/-- The completion step writes exactly the bytes its command may write. -/
theorem outFrame_of_complete {i : Instr} {s u : State} {e : Ending} {bytes : List Byte} (nd : Byte) (ho : u.out = s.out)
    (he : EndingOk e) (hb : BytesOk i e bytes) : OutFrame i s (complete e bytes nd u) := by
  have kept (h : bytes = []) : (complete e bytes nd u).out = s.out := by
    rw [h]
    exact ho
  refine ⟨fun j hj => ?_, fun h1 h2 h3 => kept (hb.noCommit h1 h2 h3), fun hi hc => kept (hb.rtu hi ?_), fun hi hc => ?_⟩
  · rw [complete_res, BitVec.toNat_ofNat, Nat.mod_eq_of_lt hb.short] at hj
    rw [complete_out, Memory.read_writeList_zero, if_neg (Nat.not_lt.2 hj), ho]
  · rintro rfl
    exact hc rfl
  · obtain ⟨k, rfl⟩ := serverExc_of_cause he hc
    exact kept (hb.tcp k hi rfl)

/-- Settles O48: OUT changes in a completion only. -/
theorem outputBytesFrame : Obligations.OutputBytesFrame := by
  intro i s t h hq
  show OutFrame i s t
  obtain rfl | ⟨-, rfl⟩ | ⟨-, -, hs⟩ | ⟨pt, -, -, hh⟩ := exec_answers h
  · exact outFrame_of_kept rfl
  · exact outFrame_of_kept rfl
  · exact outFrame_of_kept hs.resultsKept.2
  · cases hh with
    | waits => exact outFrame_of_kept rfl
    | moves pt' u hc => exact outFrame_of_kept hc.out
    | sends txn frame u hc => exact outFrame_of_kept hc.out
    | ends e bytes nd u hc he hb => exact outFrame_of_complete nd hc.out he (hb hq)
    | endsCrc c w => exact outFrame_of_kept rfl

/-! ### TID (R27, R160) -/

/-- Settles O49: the two ways to send, from a latching and from an event. -/
theorem tidChangesOnlyBySending : Obligations.TidChangesOnlyBySending := by
  intro i s t h
  obtain rfl | ⟨-, rfl⟩ | ⟨-, -, hs⟩ | ⟨pt, -, -, hh⟩ := exec_answers h
  · exact .inl rfl
  · exact .inl rfl
  · cases hs with
    | moves pt w => exact .inl rfl
    | sends txn frame w hi hl hid => exact .inr ⟨hi, rfl, txn, frame, rfl, hl, hid⟩
  · cases hh with
    | waits => exact .inl rfl
    | moves pt' u hc => exact .inl hc.tid
    | sends txn frame u hc hi hl hid => exact .inr ⟨hi, rfl, txn, frame, rfl, hl, hid⟩
    | ends e bytes nd u hc => exact .inl hc.tid
    | endsCrc c w => exact .inl rfl

/-! ### The transport (R57, R61) -/

theorem Happened.oneEvent {i : Instr} {pt : Point} {s t : State} (h : Happened i pt s (.next t)) : OneEvent s t := by
  cases h with
  | waits => exact .inl ⟨rfl, rfl⟩
  | moves pt' u hc => exact hc.event
  | sends txn frame u hc => exact hc.event
  | ends e bytes nd u hc => exact hc.event
  | endsCrc c w => exact .inl ⟨rfl, rfl⟩

theorem exec_oneEvent {i : Instr} {s t : State} (h : exec i s = .next t) : OneEvent s t := by
  cases hb : s.status.busy with
  | false => exact .inl (exec_idle_makes_no_call hb h)
  | true =>
    obtain rfl | ⟨hb', -⟩ | ⟨hb', -, -⟩ | ⟨pt, -, -, hh⟩ := exec_answers h
    · exact .inl ⟨rfl, rfl⟩
    · simp [hb] at hb'
    · simp [hb] at hb'
    · exact hh.oneEvent

/-- The turn of the engine and the world: an event only while a command runs, or an act of the world. -/
theorem engineTurn_moves {s t : State} (h : engineTurn s = .next t) :
    (t.transport = s.transport ∧ t.env = s.env) ∨ (s.status.busy = true ∧ VisibleEvent s t) ∨ WorldMoved s t := by
  obtain ⟨i, pt, hb, -, he⟩ | he := engineTurn_cases s
  · exact (exec_oneEvent (he ▸ h)).imp_right fun hv => .inl ⟨hb, hv⟩
  · obtain rfl | hm := worldAct_moved (he ▸ h)
    · exact .inl ⟨rfl, rfl⟩
    · exact .inr (.inr hm)

theorem step_moves {s t : State} (h : step s = .next t) :
    (t.transport = s.transport ∧ t.env = s.env) ∨ (s.status.busy = true ∧ VisibleEvent s t) ∨ WorldMoved s t := by
  obtain ⟨op, rest, -, -, -, he⟩ | ⟨rest, -, -, he⟩ | ⟨host, he⟩ := step_cases s
  all_goals rw [he] at h
  · have hkept := hostAct_makes_no_call h
    exact .inl hkept
  · cases h
    exact .inl ⟨rfl, rfl⟩
  · have hmoves := engineTurn_moves h
    exact hmoves

/-- The world moves by itself if its next input is no answer, unless a computation comes first. -/
theorem engineTurn_eq_worldAct {s : State} (hc : ∀ i, s.fsm ≠ .run i .compute) (hw : worldMoves s.env = true) :
    engineTurn s = worldAct s := by
  unfold engineTurn
  split
  · split
    · rfl
    · exact absurd ‹_› (hc _)
    · rfl
  · rfl

/-- What each act of the world does when it has the turn (log entries 5 and 13). -/
theorem step_worldActs {s : State} {rest : List EnvInput} (hy : HostYields s) (hc : ∀ i, s.fsm ≠ .run i .compute) :
    (∀ bs, s.env = .arrive bs :: rest →
      step s = .next { s with env := rest, transport := { s.transport with inQ := s.transport.inQ ++ bs } }) ∧
    (∀ k, s.env = .lose k :: rest → s.params.retainsUnread = false →
      step s = .next { s with env := rest, transport := { s.transport with inQ := s.transport.inQ.drop k } }) ∧
    (∀ k, s.env = .lose k :: rest → s.params.retainsUnread = true → step s = .refused .lostRetainedBytes) ∧
    (s.env = .drain :: rest → step s = .next { s with env := rest, transport := { s.transport with inQ := [] } }) := by
  have world (hw : worldMoves s.env = true) : step s = worldAct s :=
    (step_of_hostYields hy).trans (engineTurn_eq_worldAct hc hw)
  refine ⟨fun bs he => ?_, fun k he hr => ?_, fun k he hr => ?_, fun he => ?_⟩
  all_goals
    rw [world (by rw [he]; rfl)]
    simp only [worldAct, he]
  · exact if_neg (by simp [hr])
  · exact if_pos hr

/-- Settles O50: an action, a step, and the world's own acts. -/
theorem oneVisibleEventPerAction : Obligations.OneVisibleEventPerAction :=
  ⟨fun _ _ _ => exec_oneEvent, fun _ _ => step_moves, fun _ _ => step_worldActs⟩

end Sys2Proof.Machine
end

section
/-! Two consequences of the invariant: a step from a sound state is refused only for what the outside world did, and an engine of kind
RTU changes TID only by reset. -/

namespace Sys2Proof.Machine

/-! ### Refusals -/

/-- A command is refused only at an event: ignored, illegal and latched commands are not. -/
theorem exec_refused {i : Instr} {s : State} {r : Refusal} (h : exec i s = .refused r) :
    ∃ pt, s.fsm = .run i pt ∧ eventOf i pt s = .refused r := by
  cases hb : s.status.busy with
  | false =>
    cases hl : legal s.params.kind s.args.qty i with
    | false =>
      rw [exec_idle_illegal hb hl] at h
      cases h
    | true =>
      rw [exec_idle_legal hb hl] at h
      have hs := started (i := i) (s := latchRegs (encode i) s) hl
      rw [h] at hs
      cases hs
  | true =>
    rw [exec_eq_command, command, if_pos hb] at h
    split at h
    · rename_i j pt hf
      split_ifs at h with hij
      exact ⟨pt, hij ▸ hf, h⟩
    · cases h

/-- The running command of a sound state is refused only for what the outside world answered. -/
theorem Sound.exec_refusal {i : Instr} {s : State} {r : Refusal} (hs : Sound s) (h : exec i s = .refused r) :
    r ∈ inputRefusals := by
  obtain ⟨pt, hf, he⟩ := exec_refused h
  have hh := happened i pt s
  rw [he] at hh
  cases hh with
  | refuses r hr => exact hr (hs.before hf)

theorem worldAct_refusal {s : State} {r : Refusal} (h : worldAct s = .refused r) : r = .lostRetainedBytes := by
  unfold worldAct at h
  split at h
  · cases h
  · split_ifs at h
    cases h
    rfl
  · cases h
  · cases h

theorem hostSetElement_not_refused {cap k : Nat} {written s : State} {r : Refusal} :
    hostSetElement cap k written s ≠ .refused r := by
  unfold hostSetElement
  split_ifs <;> nofun

theorem hostGetElement_not_refused {w : Nat} {m : Memory w} {cap k : Nat} {f : Nat → Fault} {s : State} {r : Refusal} :
    hostGetElement m cap k f s ≠ .refused r := by
  unfold hostGetElement
  split_ifs
  · split <;> nofun
  · nofun

theorem hostGetOutw_not_refused {k : Nat} {s : State} {r : Refusal} : hostGetOutw k s ≠ .refused r := by
  unfold hostGetOutw
  split_ifs
  · split <;> nofun
  · nofun

/-- A host write of CMD is refused only as the command it starts is. -/
theorem Sound.hostSetReg_refusal {k : Nat} {v : Word} {s : State} {r : Refusal} (hs : Sound s)
    (h : hostSetReg k v s = .refused r) : r ∈ inputRefusals := by
  unfold hostSetReg at h
  split at h
  · cases h
  · split_ifs at h
    unfold startCommand at h
    split at h
    · exact hs.exec_refusal h
    · cases h

theorem Sound.hostAct_refusal {op : HostOp} {s : State} {r : Refusal} (hs : Sound s) (h : hostAct op s = .refused r) :
    r ∈ inputRefusals := by
  cases op with
  | setReg k v => exact hs.hostSetReg_refusal h
  | setWdata k v | setIbuf k b | setOut k b => exact absurd h hostSetElement_not_refused
  | getReg k =>
    simp only [hostAct] at h
    split at h <;> cases h
  | getWdata k | getIbuf k | getOut k => exact absurd h hostGetElement_not_refused
  | getOutw k => exact absurd h hostGetOutw_not_refused
  | wait | pause | reset => cases h

theorem Sound.engineTurn_refusal {s : State} {r : Refusal} (hs : Sound s) (h : engineTurn s = .refused r) :
    r ∈ inputRefusals := by
  obtain ⟨i, pt, -, -, he⟩ | he := engineTurn_cases s
  · exact hs.exec_refusal (he ▸ h)
  · obtain rfl : r = .lostRetainedBytes := worldAct_refusal (he ▸ h)
    decide

/-- Settles O54: the host never causes a refusal, and a sound state's command is at a point it has. -/
theorem soundStatesStopOnlyOnInput : Obligations.SoundStatesStopOnlyOnInput := by
  intro s hs r h
  have htaken (host : List HostOp) : Sound { s with host := host } := hs.withOutside _ _ _
  obtain ⟨op, rest, -, -, -, he⟩ | ⟨rest, -, -, he⟩ | ⟨host, he⟩ := step_cases s
  all_goals rw [he] at h
  · exact (htaken rest).hostAct_refusal h
  · cases h
  · exact (htaken host).engineTurn_refusal h

/-! ### TID on an RTU engine (R27, R137) -/

theorem not_tcp_of_legal_rtu {q : Word} {i : Instr} (h : legal .rtu q i = true) : i ∉ tcpAll := fun hi =>
  absurd ((kindOk_iff.1 (legal_iff.1 h).1).2 hi) (by decide)

/-- No legal command of an RTU engine sends a TCP request. -/
theorem Sound.exec_keeps_tid {i : Instr} {s t : State} (hs : Sound s) (hk : s.params.kind = .rtu)
    (h : exec i s = .next t) : t.params.kind = .rtu ∧ t.tid = s.tid := by
  refine ⟨(commandsKeepTheHostSide i s t h).1.1 ▸ hk, ?_⟩
  obtain rfl | ⟨-, rfl⟩ | ⟨-, hl, hst⟩ | ⟨pt, -, hf, hh⟩ := exec_answers h
  · rfl
  · rfl
  · cases hst with
    | moves pt w => rfl
    | sends txn frame w hi => exact absurd hi (not_tcp_of_legal_rtu (hk ▸ hl))
  · cases hh with
    | waits => rfl
    | moves pt' u hc => exact hc.tid
    | sends txn frame u hc hi => exact absurd hi (not_tcp_of_legal_rtu (hk ▸ (hs.before hf).legal))
    | ends e bytes nd u hc => exact hc.tid
    | endsCrc c w => rfl

theorem writeHostReg_keeps_tid (s : State) (r : HostReg) (v : Word) :
    (writeHostReg s r v).params = s.params ∧ (writeHostReg s r v).tid = s.tid := by
  cases r <;> exact ⟨rfl, rfl⟩

theorem Sound.hostSetReg_keeps_tid {k : Nat} {v : Word} {s t : State} (hs : Sound s) (hk : s.params.kind = .rtu)
    (h : hostSetReg k v s = .next t) : t.params.kind = .rtu ∧ t.tid = s.tid := by
  unfold hostSetReg at h
  split at h
  · cases h
  · split_ifs at h
    · cases h
      exact ⟨hk, rfl⟩
    · unfold startCommand at h
      split at h
      · exact hs.exec_keeps_tid hk h
      · cases h
        exact ⟨hk, rfl⟩
    · cases h
      obtain ⟨hp, htid⟩ := writeHostReg_keeps_tid s _ v
      exact ⟨hp ▸ hk, htid⟩

/-- Of the host's operations only reset touches TID without starting a command. -/
theorem Sound.hostAct_keeps_tid {op : HostOp} {s t : State} (hs : Sound s) (hk : s.params.kind = .rtu)
    (h : hostAct op s = .next t) : t.params.kind = .rtu ∧ (t.tid = s.tid ∨ t = resetEngine s) := by
  cases op with
  | setReg k v => exact (hs.hostSetReg_keeps_tid hk h).imp_right .inl
  | setWdata k v | setIbuf k b | setOut k b =>
    obtain rfl | ⟨-, rfl⟩ := hostSetElement_inside h <;> exact ⟨hk, .inl rfl⟩
  | getReg k =>
    simp only [hostAct] at h
    split at h <;> cases h
    exact ⟨hk, .inl rfl⟩
  | getWdata k | getIbuf k | getOut k =>
    obtain rfl := hostGetElement_next h
    exact ⟨hk, .inl rfl⟩
  | getOutw k =>
    obtain rfl := hostGetOutw_next h
    exact ⟨hk, .inl rfl⟩
  | wait | pause =>
    cases h
    exact ⟨hk, .inl rfl⟩
  | reset =>
    cases h
    exact ⟨hk, .inr rfl⟩

theorem Sound.engineTurn_keeps_tid {s t : State} (hs : Sound s) (hk : s.params.kind = .rtu) (h : engineTurn s = .next t) :
    t.params.kind = .rtu ∧ t.tid = s.tid := by
  obtain ⟨i, pt, -, -, he⟩ | he := engineTurn_cases s
  · exact hs.exec_keeps_tid hk (he ▸ h)
  · obtain ⟨rest, inQ, rfl⟩ := worldAct_next (he ▸ h)
    exact ⟨hk, rfl⟩

/-- Settles O55: the step was the reset event, or nothing of it sends a TCP request. -/
theorem rtuEngineKeepsTid : Obligations.RtuEngineKeepsTid := by
  intro s t hs hk h
  have htaken (host : List HostOp) : Sound { s with host := host } := hs.withOutside _ _ _
  obtain ⟨op, rest, -, -, -, he⟩ | ⟨rest, -, -, he⟩ | ⟨host, he⟩ := step_cases s
  all_goals rw [he] at h
  · obtain ⟨hkind, htid | rfl⟩ := (htaken rest).hostAct_keeps_tid hk h
    · exact ⟨hkind, .inl htid⟩
    · exact ⟨hkind, .inr rfl⟩
  · cases h
    exact ⟨hk, .inl rfl⟩
  · have hkept := (htaken host).engineTurn_keeps_tid hk h
    exact hkept.imp_right .inl

end Sys2Proof.Machine
end

section
/-! Whole RTU responses (R123 to R131): a response gathered in any number of short reads, and a line that stays silent. A state of such
a run is written `gathering`, so that what the run leaves alone is the same by definition. -/

namespace Sys2Proof.Machine

/-- `s` with command `i` at `pt`: `rx` gathered, `inQ` unread, the world to go on with `env`, `tr` recorded. -/
def gathering (s : State) (i : Instr) (pt : Point) (rx inQ : List Byte) (env : List EnvInput) (tr : List Event) : State :=
  { s with fsm := .run i pt, work := { s.work with rxbuf := rx }, transport := { inQ := inQ, trace := tr }, env := env }

/-- A running state is the first of its run. -/
theorem eq_gathering {s : State} {i : Instr} {pt : Point} (hf : s.fsm = .run i pt) :
    s = gathering s i pt s.work.rxbuf s.transport.inQ s.env s.transport.trace := by
  rw [gathering, ← hf]

/-- The answers to short reads, each with the sample after it. -/
abbrev shortScript (frags : List (Nat × Clock)) : List EnvInput := frags.flatMap fun p => [.rxDone p.1, .clock p.2]

section
variable {s : State} {i : Instr} {ph : RtuPhase} {last v : Clock} {rx bs inQ left : List Byte} {env : List EnvInput}
  {tr : List Event} (hb : s.status.busy = true) (hh : s.host = [])
include hb hh

theorem step_gathering {pt : Point} (hw : worldMoves env = false) :
    step (gathering s i pt rx inQ env tr) = exec i (gathering s i pt rx inQ env tr) :=
  step_eq_exec hh ⟨hb, rfl⟩ hw

/-! ### One round of an accumulation -/

theorem step_shortRead (hi : i ∈ rtuAll) (hlt : rx.length + bs.length < rtuTarget ph s.work.bcnt) :
    ∃ tr', step (gathering s i (.rtuRx ph last) rx (bs ++ left) (.rxDone bs.length :: env) tr) =
      .next (gathering s i (.rtuClk ph last) (rx ++ bs) left env tr') :=
  ⟨_, (step_gathering hb hh rfl).trans
    (rtuIncompleteReadSamplesClock i _ ph last bs left env hi ⟨hb, rfl⟩ ⟨rfl, rfl⟩ hlt)⟩

theorem step_sample (hi : i ∈ rtuAll) (hmono : (last - s.work.t0).toNat ≤ (v - s.work.t0).toNat)
    (hv : (v - s.work.t0).toNat ≤ 350) :
    ∃ tr', step (gathering s i (.rtuClk ph last) rx inQ (.clock v :: env) tr) =
      .next (gathering s i (.rtuRx ph v) rx inQ env tr') :=
  ⟨_, (step_gathering hb hh rfl).trans ((rtuDeadlineIsStrict i (gathering s i (.rtuClk ph last) rx inQ (.clock v :: env) tr)
    ph last v env hi ⟨hb, rfl⟩ rfl hmono).2 hv)⟩

/-- The read that completes a part is followed at once by the part's check. -/
theorem step_wholeRead (hi : i ∈ rtuReads) (hl : (rx ++ bs).length = rtuTarget ph s.work.bcnt) :
    ∃ tr', step (gathering s i (.rtuRx ph last) rx (bs ++ left) (.rxDone bs.length :: env) tr) =
      rtuPartDone i i.fields.fc .read ph last (gathering s i (.rtuRx ph last) (rx ++ bs) left env tr') :=
  ⟨_, (step_gathering hb hh rfl).trans (exec_rtuReads_completes
    (s := gathering s i (.rtuRx ph last) rx (bs ++ left) (.rxDone bs.length :: env) tr) hi ⟨hb, rfl⟩ ⟨rfl, rfl⟩ hl)⟩

/-- Short reads within the budget gather their bytes, however many they are. -/
theorem runs_shortReads (hi : i ∈ rtuAll) {frags more : List (Nat × Clock)} (hsum : bs.length = (frags.map Prod.fst).sum)
    (hlt : rx.length + bs.length < rtuTarget ph s.work.bcnt)
    (hp : Paced s.work.t0 (last - s.work.t0).toNat (frags ++ more)) :
    ∃ last' tr',
      runSteps (2 * frags.length) (gathering s i (.rtuRx ph last) rx (bs ++ left) (shortScript frags ++ env) tr) =
        .next (gathering s i (.rtuRx ph last') (rx ++ bs) left env tr') ∧
      Paced s.work.t0 (last' - s.work.t0).toNat more ∧ last' ∈ last :: frags.map Prod.snd := by
  induction frags generalizing last rx bs tr with
  | nil =>
    obtain rfl : bs = [] := List.length_eq_zero_iff.1 hsum
    exact ⟨last, tr, by rw [List.append_nil]; rfl, hp, List.mem_cons_self⟩
  | cons p r ih =>
    obtain ⟨n, c⟩ := p
    obtain ⟨hmono, hv, hp'⟩ := hp
    rw [List.map_cons, List.sum_cons] at hsum
    obtain ⟨b1, b2, rfl, rfl⟩ : ∃ b1 b2, bs = b1 ++ b2 ∧ b1.length = n :=
      ⟨bs.take n, bs.drop n, (List.take_append_drop _ _).symm, by rw [List.length_take]; omega⟩
    rw [List.length_append] at hsum hlt
    obtain ⟨tr1, h1⟩ := step_shortRead (ph := ph) (last := last) (rx := rx) (bs := b1) (left := b2 ++ left)
      (env := .clock c :: (shortScript r ++ env)) (tr := tr) hb hh hi (by omega)
    obtain ⟨tr2, h2⟩ := step_sample (ph := ph) (rx := rx ++ b1) (inQ := b2 ++ left) (env := shortScript r ++ env) (tr := tr1)
      hb hh hi hmono hv
    obtain ⟨last', tr', hrun, hmore, hmem⟩ := ih (rx := rx ++ b1) (bs := b2) (tr := tr2) (by omega)
      (by rw [List.length_append]; omega) hp'
    refine ⟨last', tr', ?_, hmore, ?_⟩
    · rw [List.append_assoc] at hrun
      rw [← hrun, List.length_cons, Nat.mul_succ, List.append_assoc]
      exact (runSteps_succ h1).trans (runSteps_succ h2)
    · rw [List.map_cons]
      exact List.mem_cons_of_mem _ hmem

/-- Short reads and the whole one that completes the part, which is then checked (R123). -/
theorem runs_accumulation (hi : i ∈ rtuReads) {frags more : List (Nat × Clock)} {n : Nat} (hn : 1 ≤ n)
    (hsum : bs.length = accBytes frags n) (hl : (rx ++ bs).length = rtuTarget ph s.work.bcnt)
    (hp : Paced s.work.t0 (last - s.work.t0).toNat (frags ++ more)) :
    ∃ last' tr',
      runSteps (accScript frags n).length (gathering s i (.rtuRx ph last) rx (bs ++ left) (accScript frags n ++ env) tr) =
        rtuPartDone i i.fields.fc .read ph last' (gathering s i (.rtuRx ph last') (rx ++ bs) left env tr') ∧
      Paced s.work.t0 (last' - s.work.t0).toNat more := by
  rw [accBytes] at hsum
  obtain ⟨b1, b2, rfl, h1, rfl⟩ : ∃ b1 b2, bs = b1 ++ b2 ∧ b1.length = (frags.map Prod.fst).sum ∧ b2.length = n :=
    ⟨bs.take (frags.map Prod.fst).sum, bs.drop (frags.map Prod.fst).sum, (List.take_append_drop _ _).symm,
      by rw [List.length_take]; omega, by rw [List.length_drop]; omega⟩
  have hlt : rx.length + b1.length < rtuTarget ph s.work.bcnt := by
    rw [← hl, List.length_append, List.length_append]
    omega
  rw [← List.append_assoc] at hl
  obtain ⟨last', tr1, hrun, hmore, -⟩ := runs_shortReads (left := b2 ++ left) (env := .rxDone b2.length :: env) (tr := tr)
    hb hh (rtuAll_cases.2 (.inl hi)) h1 hlt hp
  obtain ⟨tr2, hdone⟩ := step_wholeRead (last := last') (left := left) (env := env) (tr := tr1) hb hh hi hl
  have hlen : (accScript frags b2.length).length = 2 * frags.length + 1 := by
    simp [accScript, Nat.mul_comm]
  have hscript : accScript frags b2.length ++ env = shortScript frags ++ .rxDone b2.length :: env := by
    rw [accScript, List.append_assoc]
    rfl
  refine ⟨last', tr2, ?_, hmore⟩
  rw [hlen, hscript, List.append_assoc, runSteps_add hrun, runSteps_one, hdone, List.append_assoc]

end

/-! ### The parts of a well-formed response (R78) -/

section
variable {s : State} {i : Instr} {last : Clock} {left : List Byte} {env : List EnvInput} {tr : List Event}

/-- A normal answer leads to the payload, or at once to the trailer if the count is 0 (R127, R128). -/
theorem rtuPartDone_start (f b : Byte) :
    rtuPartDone i f .read .start last (gathering s i (.rtuRx .start last) [s.latched.unit, f, b] left env tr) =
      .next (gathering { s with work := { s.work with bcnt := b } } i (.rtuRx (if b = 0 then .trailer else .payload) last)
        [s.latched.unit, f, b] left env tr) := by
  refine (rtuCheckStart_eq rfl f _).trans ?_
  exact (if_neg (not_not.2 rfl)).trans (if_pos rfl)

/-- A right trailer ends the command with the payload through the codec (R130, R131). -/
theorem rtuPartDone_trailer {p d : List Byte} (hp : p.length = 3) (hd : d.length = s.work.bcnt.toNat) (fc : Byte) :
    ∃ t, rtuPartDone i fc .read .trailer last
        (gathering s i (.rtuRx .trailer last) (p ++ d ++ le16 (frameCrc (p ++ d))) left env tr) = .next t ∧
      EndsCommand s t { inQ := left, trace := tr } env 0 0 (regCodecRead fc s.latched.swap d) 0 := by
  have hfit : (regCodecRead fc s.latched.swap d).length < 256 := by
    rw [regCodecRead_length, hd]
    exact s.work.bcnt.isLt
  have hcheck := rtuReadCheck_bytes
    (s := gathering s i (.rtuRx .trailer last) (p ++ d ++ le16 (frameCrc (p ++ d))) left env tr) rfl hp hd fc
  refine ⟨_, hcheck.trans (if_pos ?_), ended_complete .success 0 rfl hfit,
    ⟨⟨rfl, rfl, rfl, rfl, rfl⟩, rfl, rfl⟩, rfl, rfl, rfl, rfl⟩
  rw [← word_toNat, word_hi_lo]

/-- The declared payload, which is not read at all when it is empty, leads to the trailer. -/
theorem runs_payload (hb : s.status.busy = true) (hh : s.host = []) (hi : i ∈ rtuReads) {p d : List Byte}
    {frags more : List (Nat × Clock)} {n : Nat} (hp3 : p.length = 3) (hd : d.length = s.work.bcnt.toNat)
    (hnone : d = [] → frags = []) (hsome : d ≠ [] → accBytes frags n = d.length ∧ 1 ≤ n)
    (hp : Paced s.work.t0 (last - s.work.t0).toNat (frags ++ more)) :
    let script := if d = [] then [] else accScript frags n
    ∃ last' tr',
      runSteps script.length (gathering s i (.rtuRx (if s.work.bcnt = 0 then .trailer else .payload) last) p (d ++ left)
          (script ++ env) tr) = .next (gathering s i (.rtuRx .trailer last') (p ++ d) left env tr') ∧
      Paced s.work.t0 (last' - s.work.t0).toNat more := by
  have hzero : s.work.bcnt = 0 ↔ d = [] := by
    rw [BitVec.toNat_eq, ← hd]
    exact List.length_eq_zero_iff
  by_cases hempty : d = []
  · obtain rfl := hnone hempty
    simp only [if_pos (hzero.2 hempty), if_pos hempty]
    subst hempty
    exact ⟨last, tr, by rw [List.append_nil]; rfl, hp⟩
  · obtain ⟨hsum, hn⟩ := hsome hempty
    simp only [if_neg (mt hzero.1 hempty), if_neg hempty]
    obtain ⟨last', tr', hrun, hmore⟩ := runs_accumulation (ph := .payload) (rx := p) (left := left) (env := env) (tr := tr)
      hb hh hi hn hsum.symm (by rw [List.length_append, hp3, hd]; rfl) hp
    exact ⟨last', tr', hrun, hmore⟩

end

/-- A well-formed response is its start, its payload and its trailer. -/
theorem rtuResponse_append (unit fc bc : Byte) (d left : List Byte) :
    rtuResponse unit fc bc d ++ left = [unit, fc, bc] ++ (d ++ (le16 (frameCrc ([unit, fc, bc] ++ d)) ++ left)) := by
  simp [rtuResponse]

/-- A well-formed response, gathered from its first read on, ends the command with its payload (R126 to R131). -/
theorem runs_rtuResponse {s : State} {i : Instr} {t0 : Clock} {d left : List Byte} {f1 f2 f3 : List (Nat × Clock)}
    {n1 n2 n3 : Nat} {tr : List Event} (hb : s.status.busy = true) (hh : s.host = []) (hi : i ∈ rtuReads)
    (ht0 : s.work.t0 = t0) (hd : d.length ≤ 255) (h1 : accBytes f1 n1 = 3) (hn1 : 1 ≤ n1) (hf2 : d = [] → f2 = [])
    (h2 : d ≠ [] → accBytes f2 n2 = d.length ∧ 1 ≤ n2) (h3 : accBytes f3 n3 = 2) (hn3 : 1 ≤ n3)
    (hp : Paced t0 0 (f1 ++ (f2 ++ f3))) :
    let script := accScript f1 n1 ++ (if d = [] then [] else accScript f2 n2) ++ accScript f3 n3
    ∃ t tr', runSteps script.length (gathering s i (.rtuRx .start t0) []
        (rtuResponse s.latched.unit i.fields.fc (BitVec.ofNat 8 d.length) d ++ left) script tr) = .next t ∧
      EndsCommand s t { inQ := left, trace := tr' } [] 0 0 (regCodecRead i.fields.fc s.latched.swap d) 0 := by
  intro script
  have hscript : script = accScript f1 n1 ++ ((if d = [] then [] else accScript f2 n2) ++ accScript f3 n3) :=
    List.append_assoc ..
  subst ht0
  let b := BitVec.ofNat 8 d.length
  let p := [s.latched.unit, i.fields.fc, b]
  let u := { s with work := { s.work with bcnt := b } }
  have hcount : d.length = b.toNat := by
    rw [BitVec.toNat_ofNat, Nat.mod_eq_of_lt (by omega)]
  obtain ⟨last1, tr1, hrun1, hp1⟩ := runs_accumulation (s := s) (ph := .start) (last := s.work.t0) (rx := []) (bs := p)
    (left := d ++ (le16 (frameCrc (p ++ d)) ++ left)) (env := (if d = [] then [] else accScript f2 n2) ++ accScript f3 n3)
    (tr := tr) hb hh hi hn1 h1.symm rfl (by rwa [BitVec.sub_self])
  obtain ⟨last2, tr2, hrun2, hp2⟩ := runs_payload (s := u) (p := p) (left := le16 (frameCrc (p ++ d)) ++ left)
    (env := accScript f3 n3) (tr := tr1) hb hh hi rfl hcount hf2 h2 hp1
  obtain ⟨last3, tr3, hrun3, -⟩ := runs_accumulation (s := u) (ph := .trailer) (rx := p ++ d)
    (bs := le16 (frameCrc (p ++ d))) (left := left) (env := []) (tr := tr2) (more := []) hb hh hi hn3 h3.symm
    (by simp only [List.length_append, hcount, rtuTarget, u]; simp [p, le16]; omega) (by rwa [List.append_nil])
  obtain ⟨t, ht, hend⟩ := rtuPartDone_trailer (s := u) (i := i) (last := last3) (left := left) (env := []) (tr := tr3)
    (p := p) rfl hcount i.fields.fc
  refine ⟨t, tr3, ?_, hend⟩
  rw [hscript, rtuResponse_append, List.length_append, runSteps_add (hrun1.trans (rtuPartDone_start _ b)), List.length_append,
    runSteps_add hrun2]
  rw [List.append_nil] at hrun3
  exact hrun3.trans ht

/-- Settles O56: the start, the payload and the trailer are gathered one after the other under one deadline. -/
theorem fragmentedRtuReadDelivers : Obligations.FragmentedRtuReadDelivers := by
  intro i s t0 d left f1 f2 f3 n1 n2 n3 hi hs hh hd hq h1 hn1 hf2 h2 h3 hn3 hp script henv
  rw [List.append_assoc] at hp
  obtain ⟨t, tr', hrun, hended, hkept, htid, -, htr, hnone⟩ := runs_rtuResponse
    (s := { s with work := { s.work with t0 := t0 } }) (left := left) (tr := s.transport.trace ++ [.now t0]) hs.1 hh hi rfl
    hd h1 hn1 hf2 h2 h3 hn3 hp
  have hsample : step s = _ := (step_eq_exec hh hs (by rw [henv]; rfl)).trans
    (rtuDeadlineStarts i s t0 _ (rtuAll_cases.2 (.inl hi)) hs henv)
  refine ⟨t, ?_, hended, hkept, htid, htr ▸ rfl, hnone⟩
  rw [← hq] at hrun
  exact (runSteps_succ hsample).trans hrun

/-! ### A silent line (R123, R303) -/

/-- Settles O57: the empty reads are short reads of no byte, and the last sample is beyond the budget. -/
theorem silentRtuLineTimesOut : Obligations.SilentRtuLineTimesOut := by
  intro i s ph last v vs hi hs hh hlt hp hv hmono henv
  obtain ⟨hb, hf⟩ := hs
  have hscript : s.env = shortScript (vs.map fun c => (0, c)) ++ [.rxDone 0, .clock v] := by
    rw [henv, List.flatMap_append, shortScript, List.flatMap_map]
    rfl
  have hsum : ([] : List Byte).length = ((vs.map fun c => ((0, c) : Nat × Clock)).map Prod.fst).sum := by
    simp [Function.comp_def]
  obtain ⟨last', tr1, hrun, -, hlast⟩ := runs_shortReads (left := s.transport.inQ) (env := [.rxDone 0, .clock v])
    (tr := s.transport.trace) (more := []) hb hh hi hsum hlt (by rwa [List.append_nil])
  obtain ⟨tr2, hread⟩ := step_shortRead (last := last') (rx := s.work.rxbuf ++ []) (bs := []) (left := s.transport.inQ)
    (env := [.clock v]) (tr := tr1) hb hh hi (by rwa [List.append_nil])
  have hle : (last' - s.work.t0).toNat ≤ (v - s.work.t0).toNat := hmono last' (by simpa using hlast)
  obtain ⟨t, ht, hend⟩ := (rtuDeadlineIsStrict i
    (gathering s i (.rtuClk ph last') (s.work.rxbuf ++ [] ++ []) s.transport.inQ [.clock v] tr2) ph last' v [] hi ⟨hb, rfl⟩ rfl
    hle).1 hv
  obtain ⟨hended, hkept, htid, -, htr, hnone⟩ := hend
  refine ⟨t, ?_, hended, hkept, htid, htr ▸ rfl, hnone⟩
  have hstart : s = gathering s i (.rtuRx ph last) s.work.rxbuf ([] ++ s.transport.inQ)
      (shortScript (vs.map fun c => (0, c)) ++ [.rxDone 0, .clock v]) s.transport.trace := by
    rw [← hscript]
    exact eq_gathering hf
  rw [hstart, Nat.mul_succ, ← List.length_map (as := vs) fun c => ((0, c) : Nat × Clock), runSteps_add hrun]
  exact (runSteps_succ hread).trans ((runSteps_one _).trans ((step_gathering hb hh rfl).trans ht))

end Sys2Proof.Machine
end

section
/-! Whole runs of TCP.WR_MULTI (R235, R268, R269): registers echoed one after the other, and the first transaction that fails.
A state of such a run is written `multiAt`, so that what the run leaves alone is the same by definition. -/

namespace Sys2Proof.Machine

/-! ### The request of register `k`, and the states of a run -/

/-- The id of register `k`'s transaction, the first being the one after `s.tid` (R160). -/
def regId (s : State) (k : Nat) : Word := s.tid + 1 + BitVec.ofNat 16 k

/-- The request of register `k` (R235); the word is the one in WDATA, which a run has written. -/
def regFrame (s : State) (k : Nat) : List Byte :=
  tcpFrame (regId s k) s.latched.unit 0x06 (s.latched.start + BitVec.ofNat 16 k)
    (encWord s.latched.swap ((s.wdata.read k).getD 0))

/-- `s` in the transaction of register `k`, at phase `ph`: RXBUF `rx`, `inQ` unread, the world to go on with `env`, `tr` recorded. -/
def multiAt (s : State) (k : Nat) (ph : TcpPhase) (rx inQ : List Byte) (env : List EnvInput) (tr : List Event) :
    State :=
  { s with
    tid := regId s k, fsm := .run .tcpWrMulti (.tcp .main ph)
    work := { s.work with rxbuf := rx, i := BitVec.ofNat 8 k }
    transport := { inQ := inQ, trace := tr }, env := env }

/-- The write call of register `k`'s request comes next, with nothing unread. -/
abbrev sendsReg (s : State) (k : Nat) (rx : List Byte) (env : List EnvInput) (tr : List Event) : State :=
  multiAt s k (.tx (regFrame s k)) rx [] env tr

theorem bitVec_add_ofNat_succ {n : Nat} (a : BitVec n) (k : Nat) :
    a + BitVec.ofNat n k + 1 = a + BitVec.ofNat n (k + 1) := by
  rw [BitVec.add_assoc, BitVec.ofNat_add]
  rfl

theorem regId_succ (s : State) (k : Nat) : regId s k + 1 = regId s (k + 1) := bitVec_add_ofNat_succ _ k

theorem regId_zero (s : State) : regId s 0 = s.tid + 1 := BitVec.add_zero _

theorem regFrame_eq {s : State} {k : Nat} {w : Word} (h : s.wdata.read k = some w) :
    regFrame s k = tcpFrame (regId s k) s.latched.unit 0x06 (s.latched.start + BitVec.ofNat 16 k)
      (encWord s.latched.swap w) := by
  rw [regFrame, h]
  rfl

@[simp] theorem regFrame_length (s : State) (k : Nat) : (regFrame s k).length = 12 := tcpFrame_length ..

/-- The requests of consecutive registers are those the statements list. -/
theorem multiFrames_eq_map {s : State} {ws : List Word} {k : Nat}
    (h : ∀ j, j < ws.length → s.wdata.read (k + j) = ws[j]?) :
    multiFrames (regId s k) s.latched.unit (s.latched.start + BitVec.ofNat 16 k) s.latched.swap ws =
      (List.range' k ws.length).map (regFrame s) := by
  induction ws generalizing k with
  | nil => rfl
  | cons w r ih =>
    have hhead : s.wdata.read k = some w := h 0 (Nat.succ_pos _)
    have htail : ∀ j, j < r.length → s.wdata.read (k + 1 + j) = r[j]? := fun j hj => by
      rw [Nat.add_assoc, Nat.add_comm 1 j]
      exact h (j + 1) (Nat.succ_lt_succ hj)
    rw [multiFrames, List.length_cons, List.range'_succ, List.map_cons, ← ih htail, regFrame_eq hhead, regId_succ,
      bitVec_add_ofNat_succ]

/-! ### The outbound stream -/

/-- The bytes that the write calls of a record put on the wire (R43). -/
def sent (tr : List Event) : List (List Byte) := outbound { State.reset with transport := { inQ := [], trace := tr } }

theorem outbound_eq_sent (s : State) : outbound s = sent s.transport.trace := rfl

@[simp] theorem sent_append_write (tr : List Event) (bs : List Byte) (tmo : Option Nat) (n : Nat) :
    sent (tr ++ [.txWrite bs tmo n]) = sent tr ++ [bs.take n] := by
  simp [sent, outbound]

@[simp] theorem sent_append_read (tr : List Event) (asked : Nat) (tmo : Option Nat) (bs : List Byte) :
    sent (tr ++ [.rxRead asked tmo bs]) = sent tr := by
  simp [sent, outbound]

/-! ### The steps of one transaction -/

/-- The checks of a write response's header, on any nine bytes (R170, R171). -/
theorem tcpWriteHeader_eq (i : Instr) (txn : TcpTxn) (fc : Byte) (fin : TxnEnd → State → Result) (hdr : List Byte) (s : State) :
    tcpWriteHeader i txn fc fin hdr s =
      if headerTid hdr = s.tid then
        if byteAt hdr 7 = fc then .next (goto i (.tcp txn .rest) s)
        else if 128 ≤ (byteAt hdr 7).toNat then fin (.serverExc (byteAt hdr 8)) s
        else fin (.fail .funcMismatch) s
      else fin (.fail .tidMismatch) s := by
  simp only [tcpWriteHeader, ne_eq, ite_not, decodeAnswer_eq]
  split_ifs <;> rfl

section
variable {s : State} {k n : Nat} {ph : TcpPhase} {rx inQ left bs hdr frame : List Byte} {env : List EnvInput} {tr : List Event}
  (hb : s.status.busy = true) (hh : s.host = [])
include hb hh

theorem step_multiAt (hw : worldMoves env = false) :
    step (multiAt s k ph rx inQ env tr) = exec .tcpWrMulti (multiAt s k ph rx inQ env tr) :=
  step_eq_exec hh ⟨hb, rfl⟩ hw

/-- The whole request is written, and the answer arrives (R162). -/
theorem runs_sent (hn : n = frame.length) :
    runSteps 2 (multiAt s k (.tx frame) rx [] (.txDone n :: .arrive bs :: env) tr) =
      .next (multiAt s k .header rx bs env (tr ++ [.txWrite frame none n])) := by
  have hwrite : step (multiAt s k (.tx frame) rx [] (.txDone n :: .arrive bs :: env) tr) =
      .next (multiAt s k .header rx [] (.arrive bs :: env) (tr ++ [.txWrite frame none n])) :=
    (step_multiAt hb hh rfl).trans ((tcpWriteCallOutcomes .tcpWrMulti
      (multiAt s k (.tx frame) rx [] (.txDone n :: .arrive bs :: env) tr) frame n _ (by simp) ⟨hb, rfl⟩ rfl).2 hn)
  exact (runSteps_succ hwrite).trans ((runSteps_one _).trans (step_eq_worldAct hh nofun rfl))

/-- The read of a whole header is followed by its checks. -/
theorem step_header (hl : hdr.length = 9) :
    step (multiAt s k .header rx (hdr ++ left) (.rxDone 9 :: env) tr) =
      tcpWriteHeader .tcpWrMulti .main 0x06 (writeEnd .tcpWrMulti) hdr
        (withPart (multiAt s k .header rx (hdr ++ left) (.rxDone 9 :: env) tr) 9 hdr left env) :=
  (step_multiAt hb hh rfl).trans (exec_tcpWrites_header (by simp) ⟨hb, rfl⟩ ⟨by rw [hl]; rfl, rfl⟩ hl)

/-- A header under the request's id and function leads to the last three bytes (R170). -/
theorem step_echoHeader (hl : hdr.length = 9) (hid : headerTid hdr = regId s k) (hf : byteAt hdr 7 = 0x06) :
    step (multiAt s k .header rx (hdr ++ left) (.rxDone 9 :: env) tr) =
      .next (multiAt s k .rest hdr left env (tr ++ [.rxRead 9 none hdr])) := by
  rw [step_header hb hh hl, tcpWriteHeader_eq, if_pos hf]
  exact if_pos hid

end

/-- An echo is a header under its id and function, and three bytes that nothing checks (R83). -/
theorem tcpEcho_split (tid : Word) {mid : List Byte} (fc : Byte) {tail : List Byte} (hm : mid.length = 5)
    (ht : tail.length = 4) :
    ∃ hdr last, tcpEcho tid mid fc tail = hdr ++ last ∧ hdr.length = 9 ∧ last.length = 3 ∧ headerTid hdr = tid ∧
      byteAt hdr 7 = fc := by
  obtain ⟨m1, mid, rfl⟩ := List.exists_cons_of_length_eq_add_one hm
  obtain ⟨m2, m3, m4, m5, rfl⟩ := List.length_eq_four.1 (Nat.succ.inj hm)
  obtain ⟨b, t1, t2, t3, rfl⟩ := List.length_eq_four.1 ht
  exact ⟨[hi tid, lo tid, m1, m2, m3, m4, m5, fc, b], [t1, t2, t3], rfl, rfl, rfl, word_hi_lo tid, rfl⟩

/-! ### The registers that are echoed (R235) -/

/-- The words of every register of the command are written. -/
def AllWritten (s : State) : Prop := ∀ j, j < s.latched.qty.toNat → ∃ w, s.wdata.read j = some w

/-- The five and four bytes of an echo that nothing checks. -/
def JunkOk (j : List Byte × List Byte) : Prop := j.1.length = 5 ∧ j.2.length = 4

theorem ofNat_byte_toNat {k : Nat} (h : k < 256) : (BitVec.ofNat 8 k).toNat = k := by
  rw [BitVec.toNat_ofNat, Nat.mod_eq_of_lt h]

section
variable {s : State} {k : Nat} {rx left bs : List Byte} {env : List EnvInput} {tr : List Event}
  (hb : s.status.busy = true) (hh : s.host = []) (hq : s.latched.qty.toNat ≤ 127) (hwritten : AllWritten s)

section
include hb hh

/-- Up to the last three bytes of an echo. -/
theorem runs_echoHeader {j : List Byte × List Byte} (hj : JunkOk j) :
    ∃ hdr last tr', runSteps 3 (sendsReg s k rx (echoScript (regId s k) j ++ env) tr) =
        .next (multiAt s k .rest hdr last (.rxDone 3 :: env) tr') ∧
      last.length = 3 ∧ sent tr' = sent tr ++ [regFrame s k] := by
  obtain ⟨hdr, last, hecho, hlen, hlast, hid, hf⟩ := tcpEcho_split (regId s k) 0x06 hj.1 hj.2
  refine ⟨hdr, last, tr ++ [.txWrite (regFrame s k) none 12] ++ [.rxRead 9 none hdr], ?_, hlast, ?_⟩
  · rw [echoScript, hecho]
    exact (runSteps_add (runs_sent hb hh (regFrame_length s k).symm)).trans
      ((runSteps_one _).trans (step_echoHeader hb hh hlen hid hf))
  · rw [sent_append_read, sent_append_write, List.take_of_length_le (regFrame_length s k).le]

end

include hb hh hq hwritten

/-- The last bytes of an echo lead to the next register's request, while there is one. -/
theorem step_nextRegister (hl : bs.length = 3) (hk : k + 1 < s.latched.qty.toNat) :
    step (multiAt s k .rest rx (bs ++ left) (.rxDone 3 :: env) tr) =
      .next (multiAt s (k + 1) (.tx (regFrame s (k + 1))) bs left env (tr ++ [.rxRead 3 none bs])) := by
  obtain ⟨w, hw⟩ := hwritten (k + 1) hk
  have hreg : (BitVec.ofNat 8 k).toNat = k := ofNat_byte_toNat (by omega)
  let u := multiAt s k .rest rx (bs ++ left) (.rxDone 3 :: env) tr
  have hr : ReadReturns bs env left u := ⟨by rw [hl]; rfl, rfl⟩
  have hends := tcpMultiEnd_sends (s := withPart u 3 bs left env) (w := w) [] hq (hreg.symm ▸ hk) (hreg.symm ▸ hw)
  rw [step_multiAt hb hh rfl, exec_tcpWrites (s := u) (by simp) ⟨hb, rfl⟩, tcpWriteEvent_rest _ _ _ _ hr hl.le, if_pos hl]
  refine hends.trans ?_
  have hwork : (withPart u 3 bs left env).work.i.toNat = k := hreg
  have hsucc : BitVec.ofNat 8 (k + 1) = BitVec.ofNat 8 k + 1 := BitVec.ofNat_add k 1
  rw [hwork, regFrame_eq hw, multiAt, ← regId_succ, hsucc]
  rfl

/-- A register whose request is echoed leads to the next one's request. -/
theorem runs_register {j : List Byte × List Byte} (hj : JunkOk j) (hk : k + 1 < s.latched.qty.toNat) :
    ∃ rx' tr', runSteps 4 (sendsReg s k rx (echoScript (regId s k) j ++ env) tr) = .next (sendsReg s (k + 1) rx' env tr') ∧
      sent tr' = sent tr ++ [regFrame s k] := by
  obtain ⟨hdr, last, tr1, hecho, hlast, hsent⟩ := runs_echoHeader (k := k) (rx := rx) (env := env) (tr := tr) hb hh hj
  have hnext := step_nextRegister (rx := hdr) (left := []) (env := env) (tr := tr1) hb hh hq hwritten hlast hk
  rw [List.append_nil] at hnext
  exact ⟨last, _, (runSteps_add hecho).trans ((runSteps_one _).trans hnext), (sent_append_read ..).trans hsent⟩

/-- Registers echoed one after the other, each under its own id. -/
theorem runs_registers {junk : List (List Byte × List Byte)} (hj : ∀ j ∈ junk, JunkOk j)
    (hlt : k + junk.length < s.latched.qty.toNat) :
    ∃ rx' tr', runSteps (4 * junk.length) (sendsReg s k rx (echoScripts (regId s k) junk ++ env) tr) =
        .next (sendsReg s (k + junk.length) rx' env tr') ∧
      sent tr' = sent tr ++ (List.range' k junk.length).map (regFrame s) := by
  induction junk generalizing k rx tr with
  | nil => exact ⟨rx, tr, rfl, (List.append_nil _).symm⟩
  | cons j r ih =>
    rw [List.length_cons] at hlt
    obtain ⟨rx1, tr1, hfirst, hsent1⟩ := runs_register (k := k) (rx := rx) (env := echoScripts (regId s (k + 1)) r ++ env)
      (tr := tr) hb hh hq hwritten (hj j List.mem_cons_self) (by omega)
    obtain ⟨rx', tr', hrun, hsent⟩ := ih (k := k + 1) (rx := rx1) (tr := tr1)
      (fun x hx => hj x (List.mem_cons_of_mem _ hx)) (by omega)
    rw [Nat.add_assoc, Nat.add_comm 1] at hrun
    refine ⟨rx', tr', ?_, ?_⟩
    · rw [echoScripts, List.append_assoc, regId_succ, List.length_cons, Nat.mul_succ, Nat.add_comm, runSteps_add hfirst, hrun]
    · rw [hsent, hsent1, List.append_assoc, List.length_cons, List.range'_succ, List.map_cons]
      rfl

end

/-! ### The start -/

/-- `s` with TCP.WR_MULTI latched, the host having nothing more to do. -/
abbrev multiLatched (s : State) : State := latchRegs (encode .tcpWrMulti) { s with host := [] }

/-- The CMD write latches the command and goes to the write call of register 0's request (R235). -/
theorem step_multiStart {s : State} {w : Word} (hh : s.host = [.setReg 0x00 0x4010]) (hb : s.status.busy = false)
    (hk : s.params.kind = .tcp) (hin : s.transport.inQ = []) (h1 : 1 ≤ s.args.qty.toNat) (h127 : s.args.qty.toNat ≤ 127)
    (hw : s.wdata.read 0 = some w) :
    step s = .next (sendsReg (multiLatched s) 0 s.work.rxbuf s.env s.transport.trace) := by
  have hl : legal s.params.kind s.args.qty .tcpWrMulti = true := hk ▸ legal_tcpWrMulti h1 h127
  rw [stepRunsDecodedCommand.1 s 0x4010 .tcpWrMulti [] hh hb rfl, exec_idle_legal (s := { s with host := [] }) hb hl]
  show tcpMultiSend _ = _
  rw [tcpMultiSend_eq (w := w) hw, sendsReg, regFrame_eq (s := multiLatched s) hw, multiAt, regId_zero, ← hin]
  rfl

/-! ### A register whose transaction does not succeed (R268) -/

/-- The command has ended so at register `k`, with `frames` on the wire and nothing left of the script. -/
def EndsAtReg (s : State) (k : Nat) (rc : Word) (cause ndone : Byte) (frames : List (List Byte)) (t : State) : Prop :=
  Ended s t rc cause [] ndone ∧ t.tid = regId s k ∧ sent t.transport.trace = frames ∧ t.env = [] ∧ t.wdata = s.wdata

theorem byteAt_append {hdr : List Byte} (left : List Byte) {j : Nat} (h : j < hdr.length) :
    byteAt (hdr ++ left) j = byteAt hdr j :=
  List.getD_append _ _ _ _ h

theorem headerTid_append {hdr : List Byte} (left : List Byte) (h : hdr.length = 9) :
    headerTid (hdr ++ left) = headerTid hdr := by
  rw [headerTid, headerTid, byteAt_append left (by omega), byteAt_append left (by omega)]

/-- An answer of at least `n` bytes is the `n` that a read returns and the rest. -/
theorem exists_append_of_le_length {n : Nat} {bs : List Byte} (h : n ≤ bs.length) :
    ∃ a b, bs = a ++ b ∧ a.length = n :=
  ⟨bs.take n, bs.drop n, (List.take_append_drop n bs).symm, List.length_take_of_le h⟩

section
variable {s t : State} {k asked n : Nat} {ph : TcpPhase} {rx inQ bs hdr left : List Byte} {env : List EnvInput}
  {tr : List Event} {tp : Transport} {rc : Word} {cause nd : Byte} {r : Result}

theorem endsAtReg_of_endsCommand (h : EndsCommand (multiAt s k ph rx inQ env tr) t tp [] rc cause [] nd) :
    EndsAtReg s k rc cause nd (sent tp.trace) t := by
  obtain ⟨hended, ⟨⟨-, -, hwd, -, -⟩, -, -⟩, htid, -, rfl, henv⟩ := h
  exact ⟨hended, htid, rfl, henv, hwd⟩

/-- A command that ends at a read has sent what was sent before it. -/
theorem endsAtReg_of_read (h : EndsCommand (multiAt s k ph rx inQ env tr) t
    (afterRead (multiAt s k ph rx inQ env tr) asked none bs left) [] rc cause [] nd) :
    EndsAtReg s k rc cause nd (sent tr) t ∧ t.transport.inQ = left := by
  have hat := endsAtReg_of_endsCommand h
  obtain ⟨-, -, -, -, htr, -⟩ := h
  exact ⟨sent_append_read .. ▸ hat, htr ▸ rfl⟩

theorem endsAtReg_of_writeEnd (e : TxnEnd) (he : ∀ d, e ≠ .ok d)
    (h : r = writeEnd .tcpWrMulti e (withPart (multiAt s k ph rx inQ env tr) asked bs left [])) :
    ∃ t, r = .next t ∧ EndsAtReg s k (endingRc e.ending) (endingCause e.ending) (BitVec.ofNat 8 k) (sent tr) t := by
  obtain ⟨t, ht, hend⟩ := ends_of_writeEnd e he h
  exact ⟨t, ht, (endsAtReg_of_read hend).1⟩

/-- The transaction's request is sent whole, and its end comes at the read of the header. -/
theorem runs_endAtHeader (hb : s.status.busy = true) (hh : s.host = []) (e : TxnEnd) (he : ∀ d, e ≠ .ok d)
    (h : ∀ tr, exec .tcpWrMulti (multiAt s k .header rx (bs ++ left) [.rxDone n] tr) =
      writeEnd .tcpWrMulti e (withPart (multiAt s k .header rx (bs ++ left) [.rxDone n] tr) 9 bs left [])) :
    ∃ t, runSteps 3 (sendsReg s k rx [.txDone 12, .arrive (bs ++ left), .rxDone n] tr) = .next t ∧
      EndsAtReg s k (endingRc e.ending) (endingCause e.ending) (BitVec.ofNat 8 k) (sent tr ++ [regFrame s k]) t := by
  obtain ⟨t, ht, hend⟩ := endsAtReg_of_writeEnd e he (h (tr ++ [.txWrite (regFrame s k) none 12]))
  refine ⟨t, (runSteps_add (runs_sent hb hh (regFrame_length s k).symm)).trans
    ((runSteps_one _).trans ((step_multiAt hb hh rfl).trans ht)), ?_⟩
  rwa [sent_append_write, List.take_of_length_le (regFrame_length s k).le] at hend

/-- The transaction ends with a check of a whole header. -/
theorem runs_endByHeader (hb : s.status.busy = true) (hh : s.host = []) (e : TxnEnd) (he : ∀ d, e ≠ .ok d)
    (hl : hdr.length = 9)
    (h : ∀ u : State, u.tid = regId s k →
      tcpWriteHeader .tcpWrMulti .main 0x06 (writeEnd .tcpWrMulti) hdr u = writeEnd .tcpWrMulti e u) :
    ∃ t, runSteps 3 (sendsReg s k rx [.txDone 12, .arrive (hdr ++ left), .rxDone 9] tr) = .next t ∧
      EndsAtReg s k (endingRc e.ending) (endingCause e.ending) (BitVec.ofNat 8 k) (sent tr ++ [regFrame s k]) t :=
  runs_endAtHeader hb hh e he fun tr' =>
    (exec_tcpWrites_header (s := multiAt s k .header rx (hdr ++ left) [.rxDone 9] tr') (by simp) ⟨hb, rfl⟩
      ⟨by rw [hl]; rfl, rfl⟩ hl).trans (h _ rfl)

/-- The transaction ends with fewer than three last bytes. -/
theorem runs_endAtRest (hb : s.status.busy = true) (hh : s.host = []) (hq : s.latched.qty.toNat ≤ 127) (hl : hdr.length = 9)
    (hid : headerTid hdr = regId s k) (hf : byteAt hdr 7 = 0x06) (hn : bs.length < 3) :
    ∃ t, runSteps 4 (sendsReg s k rx [.txDone 12, .arrive (hdr ++ (bs ++ left)), .rxDone 9, .rxDone bs.length] tr) = .next t ∧
      EndsAtReg s k 0xFFFF 8 (BitVec.ofNat 8 k) (sent tr ++ [regFrame s k]) t := by
  have hsent := runs_sent (k := k) (rx := rx) (bs := hdr ++ (bs ++ left)) (env := [.rxDone 9, .rxDone bs.length]) (tr := tr)
    hb hh (regFrame_length s k).symm
  have hheader := step_echoHeader (k := k) (rx := rx) (left := bs ++ left) (env := [.rxDone bs.length])
    (tr := tr ++ [.txWrite (regFrame s k) none 12]) hb hh hl hid hf
  obtain ⟨t, ht, hend⟩ := (tcpMultiRegisterDone (multiAt s k .rest hdr (bs ++ left) [.rxDone bs.length]
    (tr ++ [.txWrite (regFrame s k) none 12] ++ [.rxRead 9 none hdr])) bs left [] ⟨hb, rfl⟩ ⟨rfl, rfl⟩ hq).1 hn
  obtain ⟨hat, -⟩ := endsAtReg_of_read hend
  rw [sent_append_read, sent_append_write, List.take_of_length_le (regFrame_length s k).le] at hat
  exact ⟨t, (runSteps_add hsent).trans ((runSteps_succ hheader).trans
    ((runSteps_one _).trans ((step_multiAt hb hh rfl).trans ht))), hat⟩

end

/-- A transaction that does not succeed ends the command at its register, whichever check fails (R268, R269). -/
theorem runs_failing {s : State} {k written : Nat} {rx : List Byte} {answers : List EnvInput} {tr : List Event} {rc : Word}
    {cause : Byte} (hb : s.status.busy = true) (hh : s.host = []) (hq : s.latched.qty.toNat ≤ 127)
    (hf : TxnFails (regId s k) answers written rc cause) :
    ∃ t, runSteps answers.length (sendsReg s k rx answers tr) = .next t ∧
      EndsAtReg s k rc cause (BitVec.ofNat 8 k) (sent tr ++ [(regFrame s k).take written]) t := by
  have hwhole : (regFrame s k).take 12 = regFrame s k := List.take_of_length_le (regFrame_length s k).le
  cases hf with
  | shortWrite _ hn =>
    obtain ⟨t, ht, hend⟩ := (tcpWriteCallOutcomes .tcpWrMulti (sendsReg s k rx [.txDone written] tr) (regFrame s k) written []
      (by simp) ⟨hb, rfl⟩ rfl).1 (by rwa [regFrame_length])
    have hat := endsAtReg_of_endsCommand hend
    exact ⟨t, (runSteps_one _).trans ((step_multiAt hb hh rfl).trans ht), sent_append_write .. ▸ hat⟩
  | shortHeader bs n hn hl =>
    obtain ⟨hdr, left, rfl, rfl⟩ := exists_append_of_le_length hl
    rw [hwhole]
    exact runs_endAtHeader hb hh (.fail .shortRead) nofun fun _ =>
      exec_tcpWrites_header_short (by simp) ⟨hb, rfl⟩ ⟨rfl, rfl⟩ hn
  | tidMismatch bs hl hid =>
    obtain ⟨hdr, left, rfl, hlen⟩ := exists_append_of_le_length hl
    rw [headerTid_append left hlen] at hid
    rw [hwhole]
    refine runs_endByHeader hb hh (.fail .tidMismatch) nofun hlen fun u hu => ?_
    rw [tcpWriteHeader_eq, hu, if_neg hid]
  | serverException bs hl hid hf h7 =>
    obtain ⟨hdr, left, rfl, hlen⟩ := exists_append_of_le_length hl
    rw [headerTid_append left hlen] at hid
    rw [byteAt_append left (by omega)] at hf h7
    rw [hwhole, byteAt_append left (by omega)]
    refine runs_endByHeader hb hh (.serverExc _) nofun hlen fun u hu => ?_
    rw [tcpWriteHeader_eq, hu, if_pos hid, if_neg hf, if_pos h7]
  | funcMismatch bs hl hid hf h7 =>
    obtain ⟨hdr, left, rfl, hlen⟩ := exists_append_of_le_length hl
    rw [headerTid_append left hlen] at hid
    rw [byteAt_append left (by omega)] at hf h7
    rw [hwhole]
    refine runs_endByHeader hb hh (.fail .funcMismatch) nofun hlen fun u hu => ?_
    rw [tcpWriteHeader_eq, hu, if_pos hid, if_neg hf, if_neg (Nat.not_le.2 h7)]
  | shortRest bs n hn hl hid hf =>
    obtain ⟨hdr, rest, rfl, hlen⟩ := exists_append_of_le_length (Nat.le_of_add_right_le hl)
    rw [List.length_append, hlen] at hl
    obtain ⟨last, left, rfl, rfl⟩ := exists_append_of_le_length (Nat.le_of_add_le_add_left hl)
    rw [headerTid_append _ hlen] at hid
    rw [byteAt_append _ (by omega)] at hf
    rw [hwhole]
    exact runs_endAtRest hb hh hq hlen hid hf hn

/-! ### Whole runs -/

/-- The echo of the last register ends the command (R235). -/
theorem runs_lastRegister {s : State} {k : Nat} {rx : List Byte} {j : List Byte × List Byte} {tr : List Event}
    (hb : s.status.busy = true) (hh : s.host = []) (hq : s.latched.qty.toNat ≤ 127) (hj : JunkOk j)
    (hk : k + 1 = s.latched.qty.toNat) :
    ∃ t, runSteps 4 (sendsReg s k rx (echoScript (regId s k) j) tr) = .next t ∧
      EndsAtReg s k 0 0 (BitVec.ofNat 8 s.latched.qty.toNat) (sent tr ++ [regFrame s k]) t ∧ t.transport.inQ = [] := by
  obtain ⟨hdr, last, tr', hrun, hlast, hsent⟩ := runs_echoHeader (k := k) (rx := rx) (env := []) (tr := tr) hb hh hj
  have hreg : (BitVec.ofNat 8 k).toNat = k := ofNat_byte_toNat (by omega)
  obtain ⟨t, ht, hend⟩ := (tcpMultiRegisterDone (multiAt s k .rest hdr last [.rxDone 3] tr') last [] [] ⟨hb, rfl⟩
    ⟨by rw [hlast]; rfl, (List.append_nil last).symm⟩ hq).2.1 hlast (hreg.symm ▸ hk)
  obtain ⟨hat, hin⟩ := endsAtReg_of_read hend
  rw [hsent, lo_eq_ofNat] at hat
  rw [List.append_nil] at hrun
  exact ⟨t, (runSteps_add hrun).trans ((runSteps_one _).trans ((step_multiAt hb hh rfl).trans ht)), hat, hin⟩

theorem echoScripts_append (tid : Word) (a b : List (List Byte × List Byte)) :
    echoScripts tid (a ++ b) = echoScripts tid a ++ echoScripts (tid + BitVec.ofNat 16 a.length) b := by
  induction a generalizing tid with
  | nil => rw [List.nil_append, List.length_nil, BitVec.add_zero]; rfl
  | cons j r ih =>
    have hid : tid + 1 + BitVec.ofNat 16 r.length = tid + BitVec.ofNat 16 (r.length + 1) := by
      rw [BitVec.add_assoc, Nat.add_comm, BitVec.ofNat_add]
      rfl
    rw [List.cons_append, echoScripts, echoScripts, ih, List.append_assoc, List.length_cons, hid]

theorem allWritten_of_holds {s : State} {ws : List Word} (hlen : ws.length = s.latched.qty.toNat) (h : Holds s.wdata ws) :
    AllWritten s := fun j hj => ⟨ws[j]'(hlen ▸ hj), by rw [h j (hlen ▸ hj), List.getElem?_eq_getElem]⟩

/-- The requests of the first `k` registers are those the statements list. -/
theorem multiFrames_eq_regFrames {s : State} {ws : List Word} (h : Holds s.wdata ws) :
    multiFrames (s.tid + 1) s.args.unit s.args.start s.args.swap ws =
      (List.range' 0 ws.length).map (regFrame (multiLatched s)) := by
  have hframes := multiFrames_eq_map (s := multiLatched s) (k := 0) (ws := ws) fun j hj => by
    rw [Nat.zero_add]
    exact h j hj
  rwa [regId_zero, BitVec.add_zero] at hframes

/-- From the CMD write to the write call of the first register that is not yet echoed. -/
theorem runs_multiStart {s : State} {ws : List Word} {junk : List (List Byte × List Byte)} {env : List EnvInput}
    (hh : s.host = [.setReg 0x00 0x4010]) (hb : s.status.busy = false) (hk : s.params.kind = .tcp)
    (hin : s.transport.inQ = []) (hlen : ws.length = s.args.qty.toNat) (h127 : ws.length ≤ 127) (hw : Holds s.wdata ws)
    (hj : ∀ j ∈ junk, JunkOk j) (hlt : junk.length < ws.length) (henv : s.env = echoScripts (s.tid + 1) junk ++ env) :
    ∃ rx tr, runSteps (1 + 4 * junk.length) s = .next (sendsReg (multiLatched s) junk.length rx env tr) ∧
      sent tr = outbound s ++ (List.range' 0 junk.length).map (regFrame (multiLatched s)) := by
  obtain ⟨w, hw0⟩ := allWritten_of_holds (s := multiLatched s) hlen hw 0 (hlen ▸ Nat.zero_lt_of_lt hlt)
  have hstart := step_multiStart hh hb hk hin (by omega) (by omega) hw0
  obtain ⟨rx, tr, hrun, hsent⟩ := runs_registers (s := multiLatched s) (k := 0) (rx := s.work.rxbuf) (env := env)
    (tr := s.transport.trace) rfl rfl (hlen ▸ h127) (allWritten_of_holds hlen hw) hj
    ((Nat.zero_add _).symm ▸ hlen ▸ hlt)
  rw [Nat.zero_add, regId_zero] at hrun
  refine ⟨rx, tr, ?_, hsent⟩
  rw [Nat.add_comm, runSteps_succ hstart, henv]
  exact hrun

/-- Settles O58: all registers but the last are echoed one after the other, and the last one's echo ends the command. -/
theorem tcpMultiWritesEveryRegister : Obligations.TcpMultiWritesEveryRegister := by
  intro s ws junk hh hb hk hin hlen h1 h127 hw hjlen hj henv
  obtain ⟨js, j, rfl⟩ : ∃ js j, junk = js ++ [j] :=
    ⟨junk.dropLast, junk.getLast (List.ne_nil_of_length_pos (by omega)), (List.dropLast_append_getLast _).symm⟩
  rw [List.length_append, List.length_singleton] at hjlen
  rw [echoScripts_append] at henv
  obtain ⟨rx, tr, hrun, hsent⟩ := runs_multiStart hh hb hk hin hlen h127 hw
    (fun x hx => hj x (List.mem_append_left _ hx)) (by omega) henv
  obtain ⟨t, hlast, ⟨hended, htid, hframes, hnone, hwd⟩, hleft⟩ := runs_lastRegister (s := multiLatched s) (k := js.length)
    (rx := rx) (j := j) (tr := tr) rfl rfl (hlen ▸ h127) (hj j (by simp)) (hjlen.trans hlen)
  refine ⟨t, ?_, ?_, ?_, ?_, hleft, hnone, hwd⟩
  · rw [← hjlen, Nat.mul_succ, ← Nat.add_assoc, runSteps_add hrun]
    exact hlast
  · rw [hlen]
    exact hended
  · rw [htid, ← hjlen, Nat.add_comm, BitVec.ofNat_add, ← BitVec.add_assoc]
    rfl
  · rw [outbound_eq_sent, hframes, hsent, List.append_assoc, multiFrames_eq_regFrames hw, ← hjlen, List.range'_1_concat,
      List.map_append, Nat.zero_add]
    rfl

/-- Settles O59: the registers before are echoed one after the other, and the next one's transaction ends the command. -/
theorem tcpMultiStopsAtFirstFailure : Obligations.TcpMultiStopsAtFirstFailure := by
  intro s before after w junk answers written rc cause n id hh hb hk hin hlen h127 hw hjlen hj hf henv
  have hlength : (before ++ w :: after).length = before.length + 1 + after.length := by
    rw [List.length_append, List.length_cons]
    omega
  have hreads : (multiLatched s).wdata.read before.length = some w :=
    (hw before.length (by omega)).trans (by simp)
  have hbefore : Holds s.wdata before := fun j hj =>
    (hw j (by omega)).trans (List.getElem?_append_left hj)
  obtain ⟨rx, tr, hrun, hsent⟩ := runs_multiStart hh hb hk hin (hlength.trans hlen) (by omega) hw hj (by omega) henv
  rw [hjlen] at hrun hsent
  obtain ⟨t, hlast, hended, htid, hframes, hnone, hwd⟩ := runs_failing (s := multiLatched s) (k := before.length) (rx := rx)
    (tr := tr) rfl rfl h127 hf
  refine ⟨t, (runSteps_add hrun).trans hlast, hended, htid, ?_, hnone, hwd⟩
  rw [outbound_eq_sent, hframes, hsent, multiFrames_eq_regFrames hbefore, regFrame_eq hreads]
  rfl

end Sys2Proof.Machine
end
